-- ==== Sys2Proof/Word.lean ====
section
/-! DEFINITION. The word types and the two-valued constants of the spec (rules R11, R13). -/

namespace Sys2Proof

/-- A byte is 8 bits (R60). -/
abbrev Byte := BitVec 8

/-- A 16-bit quantity: an address, a count, a register (R60, R94). -/
abbrev Half := BitVec 16

/-- A command word or a setup packet read as one value (R91, R100). -/
abbrev Word64 := BitVec 64

/-- Directions, R13: `OUT = 0` (host to device), `IN = 1` (device to host). -/
inductive Dir where
  | out
  | inn
  deriving DecidableEq, Repr

/-- Ping-pong slots, R13: `EVEN = 0`, `ODD = 1`. -/
inductive Slot where
  | even
  | odd
  deriving DecidableEq, Repr

/-- Source kinds, R13: `ROM = 0`, `RAM = 1`. -/
inductive Kind where
  | rom
  | ram
  deriving DecidableEq, Repr

/-- RAM and ROM are 65536 bytes each (R60). -/
def spaceSize : Nat := 65536

end Sys2Proof
end

