-- ==== Sys2Proof/Config.lean ====
section
/-! DEFINITION. The implementation parameters of rule R8 as one plain record, their ranges and their
defaults. The record is fixed for a run: State carries it and no step changes it (log 1). And the free value of the
model: what a read past the top of memory gives (log 11). -/

namespace Sys2Proof

/-- The byte that draw `n` gives for an address past 0xFFFF, where there is none (R60, R65): a free value, of which nothing
is known (log 11). -/
opaque freeByte : Nat → Nat → Byte

/-- Ping-pong policies (R8, parameter `PP`, 0 to 3). -/
inductive PingPong where
  | disabled
  | outOnly
  | allButEp0
  | all
  deriving DecidableEq, Repr

/-- Which OUT endpoints policy 1 double-buffers (R8, parameter `OUT_ONLY_SCOPE`). -/
inductive OutOnlyScope where
  | allOut
  | ep0Out
  deriving DecidableEq, Repr

/-- Which context invokes SERVICE (R8, parameter `DRIVE`). -/
inductive Drive where
  | polled
  | interrupt
  deriving DecidableEq, Repr

/-- The optional hooks that are present (R8, parameter `HOOKS`; R262 to R266). -/
structure HookSet where
  req : Bool
  trn : Bool
  sof : Bool
  idle : Bool
  resume : Bool
  activity : Bool
  config : Bool
  deriving DecidableEq, Repr

/-- One answer of the descriptor provider (R264): for a type and an index, and for one language id or
(`none`) for all of them, the descriptor is the `len` bytes at `addr` in the space `kind`. -/
structure DescEntry where
  dtype : Byte
  index : Byte
  langid : Option Half
  kind : Kind
  addr : Half
  len : Half
  deriving DecidableEq, Repr

/-- The parameters of rule R8, and the descriptor provider of rule R264 as a finite list. `mps` is
indexed by `2 * ep + dir`; `cfgEps` holds `CFG_EPS(n)` as a bit mask at index `n - 1`. -/
structure Params where
  pp : PingPong
  outOnlyScope : OutOnlyScope
  nep : Nat
  mps : Vector Nat 32
  bdtBase : Half
  ep0Buf : Half
  scratch : Half
  csrBase : Half
  tqDepth : Nat
  numConfig : Nat
  numIface : Nat
  cfgEps : List Half
  selfPowered : Bool
  drive : Drive
  hooks : HookSet
  descs : List DescEntry
  deriving DecidableEq, Repr

/-- The bytes `a .. a+n-1` and `b .. b+m-1` share none. -/
abbrev disjointRanges (a n b m : Nat) : Prop := a + n ≤ b ∨ b + m ≤ a

/-- The ranges of rule R8, and the placement rules R63 (table 4-byte aligned), R65 (no region passes
the top of RAM) and R67 (table, EP0 buffer and scratch bytes pairwise disjoint). A mask of `cfgEps` has no bit 0 and
no bit `nep` or above. -/
abbrev Params.wf (c : Params) : Prop :=
  (1 ≤ c.nep ∧ c.nep ≤ 16) ∧
  (∀ i : Fin 32, 1 ≤ c.mps[i] ∧ c.mps[i] ≤ 64) ∧
  c.mps[0] = c.mps[1] ∧
  (c.mps[0] = 8 ∨ c.mps[0] = 16 ∨ c.mps[0] = 32 ∨ c.mps[0] = 64) ∧
  c.bdtBase.toNat % 4 = 0 ∧
  c.bdtBase.toNat + 16 * c.nep ≤ spaceSize ∧
  c.ep0Buf.toNat + c.mps[0] ≤ spaceSize ∧
  c.scratch.toNat + 2 ≤ spaceSize ∧
  disjointRanges c.bdtBase.toNat (16 * c.nep) c.ep0Buf.toNat c.mps[0] ∧
  disjointRanges c.bdtBase.toNat (16 * c.nep) c.scratch.toNat 2 ∧
  disjointRanges c.ep0Buf.toNat c.mps[0] c.scratch.toNat 2 ∧
  c.csrBase.toNat + 0x42 ≤ spaceSize ∧
  1 ≤ c.tqDepth ∧
  (1 ≤ c.numConfig ∧ c.numConfig ≤ 255) ∧
  c.numIface ≤ 255 ∧
  c.cfgEps.length = c.numConfig ∧
  (c.cfgEps.all fun m => decide (m.toNat % 2 = 0 ∧ m.toNat < 2 ^ c.nep)) = true

/-- Every optional hook present, the default of R8. -/
def HookSet.allPresent : HookSet := ⟨true, true, true, true, true, true, true⟩

/-- The defaults of rule R8; the provider's default (no descriptor) is the model's (log 6). -/
def Params.defaults : Params where
  pp := .disabled
  outOnlyScope := .allOut
  nep := 3
  mps := ((Vector.replicate 32 64).set 0 8).set 1 8
  bdtBase := 0x0400
  ep0Buf := 0x0500
  scratch := 0x0540
  csrBase := 0x0F00
  tqDepth := 4
  numConfig := 1
  numIface := 1
  cfgEps := [0x0006]
  selfPowered := false
  drive := .polled
  hooks := HookSet.allPresent
  descs := []

end Sys2Proof
end

