-- ==== Sys2Proof/Syntax.lean ====
section
/-! DEFINITION. The operations of the block, one constructor per row of the opcode table (R90, R95,
R102, R105, R106), and the four encoded forms they are read from. -/

namespace Sys2Proof

/-- The 39 operations. Operands of command words are the fields of R91 that the opcode uses (R92);
operands of standard requests are the fields of the setup packet (R100): `t` bmRequestType, `v` wValue,
`i` wIndex, `l` wLength; operands of bus-side events are the fields of the record of R106. -/
inductive Instr where
  -- CMD, public driving operations (R95)
  | init
  | service
  | shutdown
  | getState
  | getConfig
  | setStage (stage : BitVec 3) (dst : Half) (count : Half)
  | armEp (keep toi : Bool) (ep : BitVec 4) (dir : Dir) (buf : Half) (n : Half)
  | armEp0In (count : Half)
  | armStatus (dir : Dir)
  | stallEp (ep : BitVec 4) (dir : Dir)
  | xferRom (src avail req : Half)
  | xferRam (src avail req : Half)
  -- CMD, Buffer Model and Arming Primitive contracts (R95)
  | arm (keep toi : Bool) (ep : BitVec 4) (dir : Dir) (slot : Slot) (tgl : Bool) (buf : Half) (cnt : Half)
  | armOut (keep toi : Bool) (ep : BitVec 4) (buf : Half) (max : Half)
  | armIn (keep toi : Bool) (ep : BitVec 4) (buf : Half) (count : Half)
  | clearStall (ep : BitVec 4) (dir : Dir)
  -- REQ, standard requests (R102)
  | getStatus (t : Byte) (v i l : Half)
  | clearFeature (t : Byte) (v i l : Half)
  | setFeature (t : Byte) (v i l : Half)
  | setAddress (t : Byte) (v i l : Half)
  | getDescriptor (t : Byte) (v i l : Half)
  | setDescriptor (t : Byte) (v i l : Half)
  | getConfiguration (t : Byte) (v i l : Half)
  | setConfiguration (t : Byte) (v i l : Half)
  | getInterface (t : Byte) (v i l : Half)
  | setInterface (t : Byte) (v i l : Half)
  | synchFrame (t : Byte) (v i l : Half)
  -- EVT, servicing arms (R105)
  | svcRst
  | svcIdle
  | svcAct
  | svcSof
  | svcTrn
  -- BUS, bus-side events (R106)
  | tokOut (addr : BitVec 7) (ep : BitVec 4) (tgl : Bool) (data : List Byte)
  | tokIn (addr : BitVec 7) (ep : BitVec 4) (ack : Bool)
  | tokSetup (addr : BitVec 7) (ep : BitVec 4) (data : List Byte)
  | busReset
  | busIdle
  | busActivity
  | busSof
  deriving DecidableEq, Repr

/-- A bus-side event, the record of R106. A field the code does not use is ignored by the decoder
and written empty by the encoder. -/
structure BusRecord where
  code : BitVec 3
  addr : BitVec 7
  ep : BitVec 4
  tgl : Bool
  data : List Byte
  ack : Bool
  deriving DecidableEq, Repr

/-- The four encoded forms of an operation (R90). -/
inductive Code where
  | cmd (w : Word64)
  | req (sp : Word64)
  | evt (ir : Byte)
  | bus (r : BusRecord)
  deriving DecidableEq, Repr

/-- Why an encoded form is refused, by name. -/
inductive Reject where
  /-- A command word whose opcode is not in the map of R95 (R98). -/
  | reservedOpcode
  /-- A command word with a bit set outside the fields of its opcode (R93, R98). -/
  | mustBeZero
  /-- A setup packet that selects no standard request (R102, R104); it goes to the class hook. -/
  | notStandard
  /-- A selector that is not exactly one of the five bits of R105. -/
  | notOneArm
  /-- Bus-side event code 7, reserved (R106). -/
  | reservedBusCode
  deriving DecidableEq, Repr

end Sys2Proof
end

