-- ==== Sys2Proof/Machine/State.lean ====
section
/-! DEFINITION. The state of the block (R20 to R52) as plain data, the inputs and outputs of a model (R355,
R356), the reasons a step can stop, and the state after power-on (R49, R331). -/

namespace Sys2Proof.Machine

/-- A memory of 65536 bytes (R60) as the list of its listed bytes; an unlisted address reads as the
byte that `Memory.read` names. The canonical form is `Memory.wf`. -/
abbrev Memory := List Host.Cell

/-- A buffer descriptor's fields (R21). -/
structure Bd where
  own : Bool
  dts : Bool
  keep : Bool
  toi : Bool
  stall : Bool
  cnt : BitVec 10
  addr : Half
  deriving DecidableEq, Repr

/-- An endpoint status record (R26); `last` is the slot of the most recent completion. -/
structure Eps where
  toggle : Bool
  halt : Bool
  last : Slot
  deriving DecidableEq, Repr

/-- Reset value of an endpoint status record (R28). -/
def Eps.initial : Eps := ⟨false, false, .odd⟩

/-- `DEVSTATE` (R29); the two unused encodings do not exist. -/
inductive DevState where
  | detached
  | attached
  | powered
  | default
  | address
  | configured
  deriving DecidableEq, Repr

/-- `CTX.stage` (R37), this block's program counter (R16). -/
inductive Stage where
  | idle
  | setup
  | dataIn
  | dataOut
  | statusIn
  | statusOut
  deriving DecidableEq, Repr

/-- The control transfer context (R36). -/
structure Ctx where
  stage : Stage
  remaining : Half
  src : Half
  kind : Kind
  zlp : Bool
  dst : Half
  deriving DecidableEq, Repr

/-- The destroyed context, every field 0 (R38, R189). -/
def Ctx.destroyed : Ctx := ⟨.idle, 0, 0, .rom, false, 0⟩

/-- The stored bus-condition flags of `IR` (R39); `TRN` is computed from the queue. -/
structure IrFlags where
  rst : Bool
  idle : Bool
  act : Bool
  sof : Bool
  deriving DecidableEq, Repr

/-- `IR = 0x00` but for `TRN`. -/
def IrFlags.none : IrFlags := ⟨false, false, false, false⟩

/-- The sticky bits of `FAULT` (R43); bits 7:4 are zero and not stored. -/
structure FaultBits where
  darm : Bool
  badparam : Bool
  badcmd : Bool
  reentry : Bool
  deriving DecidableEq, Repr

/-- `FAULT = 0x00`. -/
def FaultBits.none : FaultBits := ⟨false, false, false, false⟩

/-- The four fault causes (R304). -/
inductive FaultCause where
  | darm
  | badparam
  | badcmd
  | reentry
  deriving DecidableEq, Repr

/-- A completion record (R41): the four fields of the spec; and, the model's own, the buffer its descriptor was armed with,
which CLASS must leave alone until the completion is observed (R341, log 26). No operation reads those two. -/
structure Completion where
  ep : BitVec 4
  dir : Dir
  slot : Slot
  setup : Bool
  /-- The model's own: where the armed buffer begins (log 26). -/
  addr : Half
  /-- The model's own: the count it was armed with, which ENG writes over in an OUT descriptor (log 26). -/
  armed : BitVec 10
  deriving DecidableEq, Repr

/-- Causes of a request error, labels that no register holds (R187, R301). -/
inductive ErrorCause where
  | unhandled
  | rejected
  | setupLen
  | overrun
  deriving DecidableEq, Repr

/-- An answer of the hook oracle (R262, R263): a verdict (read only for HOOK_REQ) and command words. -/
structure HookAnswer where
  handled : Bool
  words : List Word64
  deriving DecidableEq, Repr

/-- ENG's response to a token (R282); `silent` is the spec's `NONE`. -/
inductive Response where
  | silent
  | ack
  | nak
  | stall
  | data (tgl : Bool) (bytes : List Byte)
  deriving DecidableEq, Repr

/-- An item of the trace of a step (R356): a hook call with its arguments, or a request error's label
(R186). -/
inductive TraceItem where
  | hookReq (setup : Word64) (handled : Bool)
  | hookTrn (ep : BitVec 4) (dir : Dir) (slot : Slot) (count : BitVec 10)
  | hookSof
  | hookIdle
  | hookResume
  | hookActivity
  | hookConfig (n : Byte)
  | requestError (cause : ErrorCause)
  deriving DecidableEq, Repr

/-- An element of the schedule (R355): a command word written, a bus-side event, a CLASS store to RAM; and
two finer ones of the model, a CLASS byte store to the register block (R45, R47, log 13) and the harness
writing its interrupt enable (R308, log 17). -/
inductive Input where
  | cmd (w : Word64)
  | bus (r : BusRecord)
  | mem (a : Half) (v : Byte)
  | csr (a : Half) (v : Byte)
  | setIe (b : Bool)
  deriving DecidableEq, Repr

/-- Why the machine stops. The spec's own faults (R303) are no stops: they are next states. -/
inductive Fault where
  /-- Raised by a CLASS store to REG at an address outside the register block (R47, R60). Safe (log 12). -/
  | registerOutsideBlock
  deriving DecidableEq, Repr

/-- Why an instruction has no meaning. -/
inductive Refusal where
  /-- Raised by an arm of exec whose instruction has no meaning yet. Safe. -/
  | notModelled (mnemonic : String)
  /-- Raised by a bus-side event of code 7, "reserved", "never generated" (R106). Safe (log 14). -/
  | reservedBusCode
  deriving DecidableEq, Repr

/-- The whole state (R20), with the parameters (R8), the inputs still to come and the outputs of the last
step (R355, R356). -/
structure State where
  /-- The parameters of R8 and the descriptor provider; no step changes them. -/
  cfg : Params
  /-- RAM, with the BD table in it (R21, R60). -/
  ram : Memory
  /-- ROM (R60, R80); no step changes it. -/
  rom : Memory
  /-- `EPS[ep][dir]` at index `2 * ep + dir` (R26). -/
  eps : Vector Eps 32
  /-- `ENG_PP[ep][dir]` at index `2 * ep + dir` (R42). -/
  engPp : Vector Slot 32
  /-- `DEVSTATE` (R29). -/
  devState : DevState
  /-- `SUSPENDED` (R30). -/
  suspended : Bool
  /-- `CONFIG` (R31). -/
  config : Byte
  /-- `DEVADDR` (R32). -/
  devAddr : BitVec 7
  /-- `NEWADDR` (R32). -/
  newAddr : BitVec 7
  /-- `ADDR_PENDING` (R32). -/
  addrPending : Bool
  /-- `EPEN` (R33). -/
  epen : Half
  /-- `USBEN` (R34). -/
  usbEn : Bool
  /-- `SETUP`, read as the 64-bit value `SP` (R35, R100). -/
  setup : Word64
  /-- `CTX` (R36). -/
  ctx : Ctx
  /-- `IR` (R39). -/
  ir : IrFlags
  /-- `TQ`, oldest first (R41). -/
  tq : List Completion
  /-- `SETUP_HOLD` (R52). -/
  setupHold : Bool
  /-- `FAULT` (R43). -/
  fault : FaultBits
  /-- `RESP` (R44). -/
  resp : Half
  /-- `CMD` (R45). -/
  cmd : Word64
  /-- `BUSY` (R46). -/
  busy : Bool
  /-- The harness's USB interrupt enable (R308, log 17). -/
  usbie : Bool
  /-- The schedule still to run (R355, log 8). -/
  sched : List Input
  /-- The hook oracle's answers still to be given (R262, log 7). -/
  hookTape : List HookAnswer
  /-- The response of the last step's token event (R282, R356). -/
  response : Option Response
  /-- The trace of the last step (R356). -/
  trace : List TraceItem
  /-- The model's own: how many times bytes past the top of memory have been drawn (log 11). -/
  draws : Nat
  deriving DecidableEq, Repr

/-- The state at power-on (R331, R49) with the default parameters. Where the spec leaves a value
unspecified the value is the model's (logs 2 to 6, 17). -/
def State.reset : State where
  cfg := Params.defaults
  ram := []
  rom := []
  eps := Vector.replicate 32 Eps.initial
  engPp := Vector.replicate 32 .even
  devState := .detached
  suspended := false
  config := 0
  devAddr := 0
  newAddr := 0
  addrPending := false
  epen := 0x0000
  usbEn := false
  setup := 0
  ctx := Ctx.destroyed
  ir := IrFlags.none
  tq := []
  setupHold := false
  fault := FaultBits.none
  resp := 0x0000
  cmd := 0
  busy := false
  usbie := false
  sched := []
  hookTape := []
  response := none
  trace := []
  draws := 0

end Sys2Proof.Machine
end

