-- ==== Sys2Proof/Machine/Operands.lean ====
section
/-! DEFINITION. Operand forms and what the parameters say of them: indices, ping-pong predicates (R9), the
operand checks (R65, R130), the parameters' lookups (R8, R264) and the operands of a setup packet (R101, R211). -/

namespace Sys2Proof

/-- The number of a direction (R13). -/
def Dir.toNat : Dir → Nat
  | .out => 0
  | .inn => 1

/-- The number of a slot (R13). -/
def Slot.toNat : Slot → Nat
  | .even => 0
  | .odd => 1

/-- The complement `!slot` (R11, R150). -/
def Slot.other : Slot → Slot
  | .even => .odd
  | .odd => .even

namespace Machine

/-- The place of `(ep, dir)` in a per-endpoint table: `2 * ep + dir` (R47). -/
def epIx (ep : BitVec 4) (dir : Dir) : Fin 32 :=
  ⟨2 * ep.toNat + dir.toNat, by have := ep.isLt; cases dir <;> simp only [Dir.toNat] <;> omega⟩

/-- `pp(ep, dir)` (R9): the endpoint direction is double-buffered. -/
def pp (c : Params) (ep : BitVec 4) (dir : Dir) : Bool :=
  match c.pp with
  | .disabled => false
  | .outOnly => dir = .out && (c.outOnlyScope = .allOut || ep = 0)
  | .allButEp0 => ep ≠ 0
  | .all => true

/-- `slots(ep, dir)` (R9). -/
def slots (c : Params) (ep : BitVec 4) (dir : Dir) : List Slot :=
  if pp c ep dir then [.even, .odd] else [.even]

/-- `MPS[ep][dir]` (R8). -/
def mps (c : Params) (ep : BitVec 4) (dir : Dir) : Nat := c.mps[epIx ep dir]

/-- `MPS0` (R8). -/
def mps0 (c : Params) : Nat := mps c 0 .out

/-- A range `addr .. addr+n-1` stays inside a space; an empty one has no bound to satisfy (R65). -/
def fits (addr n : Nat) : Bool := n = 0 || addr + n ≤ spaceSize

/-- `CheckEp` (R130) finds nothing wrong: `ep < NEP`, slot ODD only when double-buffered, `n ≤ MPS`. -/
def checkEp (c : Params) (ep : BitVec 4) (dir : Dir) (slot : Slot) (n : Nat) : Bool :=
  ep.toNat < c.nep && (slot = .even || pp c ep dir) && n ≤ mps c ep dir

/-- `bdi` and the descriptor's address (R22). -/
def bdAddr (c : Params) (ep : BitVec 4) (dir : Dir) (slot : Slot) : Nat :=
  c.bdtBase.toNat + 4 * (4 * ep.toNat + 2 * dir.toNat + slot.toNat)

/-- The endpoint numbers 0 to `NEP - 1` (R8). -/
def endpoints (c : Params) : List (BitVec 4) := (List.range c.nep).map (BitVec.ofNat 4)

/-- `CFG_EPS(n)` as a bit mask, for `n` in 1 to `NUM_CONFIG` (R8). -/
def cfgEps (c : Params) (n : Byte) : Half := c.cfgEps.getD (n.toNat - 1) 0

/-- One entry of the provider answers a lookup (R264). -/
def DescEntry.answers (e : DescEntry) (dtype index : Byte) (langid : Half) : Bool :=
  e.dtype = dtype && e.index = index && (e.langid = none || e.langid = some langid)

/-- `DescLookup(type, index, langid)` (R264): the first entry that answers, or NONE. -/
def descLookup (c : Params) (dtype index : Byte) (langid : Half) : Option (Kind × Half × Half) :=
  (c.descs.find? fun e => DescEntry.answers e dtype index langid).map fun e => (e.kind, e.addr, e.len)

/-! ### Operands of a setup packet (R100, R101, R211) -/

/-- `d2h = T[7]`. -/
def d2h (t : Byte) : Bool := t.getLsbD 7

/-- `rcp = T[4:0]`. -/
def recipient (t : Byte) : Nat := (t.extractLsb' 0 5).toNat

/-- `wValue[15:8]`, the descriptor type (R101). -/
def highByte (v : Half) : Byte := v.extractLsb' 8 8

/-- `wValue[7:0]`, the descriptor index or configuration value (R101). -/
def lowByte (v : Half) : Byte := v.extractLsb' 0 8

/-- `e = I[3:0]` (R211). -/
def indexEp (i : Half) : BitVec 4 := i.extractLsb' 0 4

/-- `d = I[7]`, 1 IN (R211). -/
def indexDir (i : Half) : Dir := if i.getLsbD 7 then .inn else .out

/-- `EpOk(I)` (R211). -/
def epOk (s : State) (i : Half) : Bool :=
  highByte i = 0 && i.extractLsb' 4 3 = 0 && (indexEp i).toNat < s.cfg.nep &&
    (indexEp i = 0 || (s.devState = .configured && s.epen.getLsbD (indexEp i).toNat))

/-- `IfOk(I)` (R211). -/
def ifOk (s : State) (i : Half) : Bool :=
  s.devState = .configured && i.toNat < s.cfg.numIface

end Machine
end Sys2Proof
end

