-- ==== Sys2Proof/Machine/Flags.lean ====
section
/-! DEFINITION. Flag computations and register images: `IR`, `USBIF`, `LP_OK`, `TSTAT`, `DSTAT`, `FAULT`,
the zero-length-packet flag and the register block (R27, R39 to R47, R176, R320). -/

namespace Sys2Proof.Machine

/-- `TRN` reads 1 exactly when `TQ` is not empty (R39). -/
def State.trn (s : State) : Bool := s.tq ≠ []

/-- The `IR` byte (R39). -/
def State.irByte (s : State) : Byte :=
  0#3 ++ BitVec.ofBool s.trn ++ BitVec.ofBool s.ir.sof ++ BitVec.ofBool s.ir.act ++
    BitVec.ofBool s.ir.idle ++ BitVec.ofBool s.ir.rst

/-- `USBIF` reads 1 exactly when `IR` is not 0 (R40). -/
def State.usbif (s : State) : Bool := s.irByte ≠ 0

/-- `LP_OK` equals `SUSPENDED` (R320). -/
def State.lpOk (s : State) : Bool := s.suspended

/-- The encoding of `DEVSTATE` (R29). -/
def DevState.bits : DevState → BitVec 3
  | .detached => 0
  | .attached => 1
  | .powered => 2
  | .default => 3
  | .address => 4
  | .configured => 5

/-- The encoding of `CTX.stage` (R37). -/
def Stage.bits : Stage → BitVec 3
  | .idle => 0
  | .setup => 1
  | .dataIn => 2
  | .dataOut => 3
  | .statusIn => 4
  | .statusOut => 5

/-- The stage an encoding names (R37); 6 and 7 name none. -/
def Stage.ofBits (b : BitVec 3) : Option Stage :=
  match b.toNat with
  | 0 => some .idle
  | 1 => some .setup
  | 2 => some .dataIn
  | 3 => some .dataOut
  | 4 => some .statusIn
  | 5 => some .statusOut
  | _ => none

/-- The bit of a direction (R13). -/
def dirBit (d : Dir) : BitVec 1 := BitVec.ofNat 1 d.toNat

/-- The bit of a slot (R13). -/
def slotBit (sl : Slot) : BitVec 1 := BitVec.ofNat 1 sl.toNat

/-- The bit of a source kind (R13). -/
def kindBit : Kind → BitVec 1
  | .rom => 0
  | .ram => 1

/-- The image of a completion record in `TSTAT` (R41). -/
def Completion.byte (r : Completion) : Byte :=
  0#1 ++ r.ep ++ dirBit r.dir ++ slotBit r.slot ++ BitVec.ofBool r.setup

/-- `TSTAT`: the head of the queue, 0x00 when it is empty (R41). -/
def State.tstat (s : State) : Byte :=
  match s.tq with
  | [] => 0
  | r :: _ => r.byte

/-- `DSTAT` (R47). -/
def State.dstat (s : State) : Byte :=
  0#2 ++ BitVec.ofBool s.setupHold ++ BitVec.ofBool s.usbEn ++ BitVec.ofBool s.suspended ++ s.devState.bits

/-- The `NEWADDR` register: bit 7 is `ADDR_PENDING` (R47). -/
def State.newAddrByte (s : State) : Byte := BitVec.ofBool s.addrPending ++ s.newAddr

/-- `CSTAGE` (R47). -/
def State.cstage (s : State) : Byte :=
  0#3 ++ BitVec.ofBool s.ctx.zlp ++ kindBit s.ctx.kind ++ s.ctx.stage.bits

/-- The image of an endpoint status record (R27). -/
def Eps.byte (e : Eps) : Byte :=
  0#5 ++ slotBit e.last ++ BitVec.ofBool e.halt ++ BitVec.ofBool e.toggle

/-- The `FAULT` byte (R43). -/
def FaultBits.byte (f : FaultBits) : Byte :=
  0#4 ++ BitVec.ofBool f.reentry ++ BitVec.ofBool f.badcmd ++ BitVec.ofBool f.badparam ++ BitVec.ofBool f.darm

/-- Setting one sticky bit (R43). -/
def FaultBits.set (f : FaultBits) : FaultCause → FaultBits
  | .darm => { f with darm := true }
  | .badparam => { f with badparam := true }
  | .badcmd => { f with badcmd := true }
  | .reentry => { f with reentry := true }

/-- The flag `zlp` that XFER computes (R176): a zero-length packet is owed. -/
def owesZlp (n req packet : Nat) : Bool := n = 0 || (n % packet = 0 && n < req)

/-- Byte `k` of a value of 8 bytes or fewer, little-endian (R62). -/
def byteOf {w : Nat} (v : BitVec w) (k : Nat) : Byte := v.extractLsb' (8 * k) 8

/-- The register block as CLASS reads it: the byte at an offset (R47), none outside the block. Reading
has no side effect (R68). -/
def State.csrRead (s : State) (off : Nat) : Option Byte :=
  if off = 0x00 then some s.irByte
  else if off = 0x01 then some s.tstat
  else if off = 0x02 then some s.dstat
  else if off = 0x03 then some s.config
  else if off = 0x04 then some (0#1 ++ s.devAddr)
  else if off = 0x05 then some s.newAddrByte
  else if off = 0x06 then some s.cstage
  else if off = 0x07 then some s.fault.byte
  else if off < 0x0A then some (byteOf s.ctx.remaining (off - 0x08))
  else if off < 0x0C then some (byteOf s.ctx.src (off - 0x0A))
  else if off < 0x0E then some (byteOf s.ctx.dst (off - 0x0C))
  else if off < 0x10 then some (byteOf s.resp (off - 0x0E))
  else if off < 0x18 then some (byteOf s.setup (off - 0x10))
  else if off < 0x20 then some (byteOf s.cmd (off - 0x18))
  else if off < 0x40 then (s.eps[off - 0x20]?).map Eps.byte
  else if off < 0x42 then some (byteOf s.epen (off - 0x40))
  else none

end Sys2Proof.Machine
end

