-- ==== Sys2Proof/Machine/Ops.lean ====
section
/-! DEFINITION. The shared operations: memory (R60 to R65), the outcome of an operation, descriptors (R21,
R22), endpoint records (R26, R42), and the block's two exceptions: `raise Fault` (R303) and `RequestError`
(R186, R302) with the prologue that ends a request error (R174). -/

namespace Sys2Proof.Machine

/-! ### Memory -/

/-- The byte at an address; an unlisted one reads 0x00 (logs 2, 3). -/
def Memory.read : Memory → Nat → Byte
  | [], _ => 0
  | (b, v) :: m, a => if b = a then v else Memory.read m a

/-- Insert an entry before the first larger address. -/
def Memory.insert : Memory → Nat → Byte → Memory
  | [], a, v => [(a, v)]
  | (b, u) :: m, a, v => if a < b then (a, v) :: (b, u) :: m else (b, u) :: Memory.insert m a v

/-- Write one byte. The form stays canonical: a byte equal to what an unlisted address reads as is not
listed, and an address past the top holds nothing and is no other address (R60, R65; log 11). -/
def Memory.write (m : Memory) (a : Nat) (v : Byte) : Memory :=
  if a < spaceSize then
    if v = 0 then m.filter (fun c => c.1 ≠ a) else Memory.insert (m.filter (fun c => c.1 ≠ a)) a v
  else m

/-- The canonical form: addresses strictly rising, inside the space, no entry equal to 0x00. -/
abbrev Memory.wf (m : Memory) : Prop :=
  m.Pairwise (fun c d => c.1 < d.1) ∧ ∀ c ∈ m, c.1 < spaceSize ∧ c.2 ≠ 0

/-- The byte a data movement reads at `a`: the one held there or, past the top of memory, where there is none and no
wrap-around (R60, R65), the free value of draw `draw` (log 11). -/
def Memory.fetch (m : Memory) (draw a : Nat) : Byte := if a < spaceSize then m.read a else freeByte draw a

/-- `MemRead(a, n)`: `n` bytes in ascending order (R12, R64). -/
def Memory.readBytes (m : Memory) (draw a n : Nat) : List Byte := (List.range n).map fun i => m.fetch draw (a + i)

/-- Bytes stored at ascending addresses (R64). -/
def Memory.writeBytes : Memory → Nat → List Byte → Memory
  | m, _, [] => m
  | m, a, b :: bs => Memory.writeBytes (m.write a b) (a + 1) bs

/-- `n` bytes from `a` written 0x00 (R25). -/
def Memory.fillZero (m : Memory) (a n : Nat) : Memory := m.writeBytes a (List.replicate n 0)

/-- `Src(kind, a)`: one byte of a transfer's source (R12, R61). -/
def srcByte (rom ram : Memory) (kind : Kind) (draw a : Nat) : Byte :=
  match kind with
  | .rom => rom.fetch draw a
  | .ram => ram.fetch draw a

/-- The copies of CtInStep and CtOutData: `n` bytes from `src` to RAM at `dst`, ascending, one byte at a
time, so that an overlap has the result R67 says (R178, R180). -/
def copyBytes (rom : Memory) (kind : Kind) (draw : Nat) : Nat → Nat → Nat → Memory → Memory
  | 0, _, _, ram => ram
  | n + 1, src, dst, ram => copyBytes rom kind draw n (src + 1) (dst + 1) (ram.write dst (srcByte rom ram kind draw src))

/-- The number of the next draw once `n` bytes from `a` are read: a new one when some of them do not exist (log 11). -/
def State.drawsAfter (s : State) (a n : Nat) : Nat := if fits a n then s.draws else s.draws + 1

/-! ### The outcome of an operation -/

/-- An operation of the block ends normally with a value, or is abandoned by a fault it raised (R303); there is no
third end (R96, R357). -/
inductive Res (α : Type) where
  | ok (a : α) (s : State)
  | raised (s : State)
  deriving Repr

/-- Sequencing; a raise abandons the rest (R303 part 3). -/
def Res.bind {α β : Type} : Res α → (α → State → Res β) → Res β
  | .ok a s, f => f a s
  | .raised s, _ => .raised s

/-- The outcome of an operation as the outcome of an instruction: both a completed and a faulted command
word leave a next state (R303, R357). -/
def Res.toOutcome {α : Type} : Res α → Host.Outcome State Fault Refusal
  | .ok _ s => .next s
  | .raised s => .next s

/-- A condition under which an operation runs; otherwise nothing happens. -/
def Res.when (c : Bool) (f : State → Res Unit) (s : State) : Res Unit := if c then f s else .ok () s

/-! ### Taking an exception: `raise Fault` (R303) -/

/-- What a raise records: the sticky bit and `RESP = 0xFFFF` (R303 parts 1 and 2). -/
def State.faulted (s : State) (c : FaultCause) : State :=
  { s with fault := s.fault.set c, resp := 0xFFFF }

/-- `raise Fault(F)` (R303). -/
def State.raise {α : Type} (s : State) (c : FaultCause) : Res α := .raised (s.faulted c)

/-! ### Descriptors -/

/-- The `STAT` byte (R21). -/
def Bd.stat (b : Bd) : Byte :=
  BitVec.ofBool b.own ++ BitVec.ofBool b.dts ++ BitVec.ofBool b.keep ++ BitVec.ofBool b.toi ++ 0#1 ++
    BitVec.ofBool b.stall ++ b.cnt.extractLsb' 8 2

/-- The fields of the four bytes of a descriptor (R21); bit 3 of `STAT` reads 0. -/
def Bd.ofBytes (st c lo hi : Byte) : Bd where
  own := st.getLsbD 7
  dts := st.getLsbD 6
  keep := st.getLsbD 5
  toi := st.getLsbD 4
  stall := st.getLsbD 2
  cnt := st.extractLsb' 0 2 ++ c
  addr := hi ++ lo

/-- `BD[ep][dir][slot]` read from RAM (R22, R62). -/
def State.bd (s : State) (ep : BitVec 4) (dir : Dir) (slot : Slot) : Bd :=
  let a := bdAddr s.cfg ep dir slot
  .ofBytes (s.ram.read a) (s.ram.read (a + 1)) (s.ram.read (a + 2)) (s.ram.read (a + 3))

/-- One write of the `STAT` byte (R64). -/
def State.writeStat (s : State) (ep : BitVec 4) (dir : Dir) (slot : Slot) (b : Bd) : State :=
  { s with ram := s.ram.write (bdAddr s.cfg ep dir slot) b.stat }

/-- ENG's completion writes (R71): byte 1, then `STAT`. -/
def State.writeCntStat (s : State) (ep : BitVec 4) (dir : Dir) (slot : Slot) (b : Bd) : State :=
  let a := bdAddr s.cfg ep dir slot
  { s with ram := (s.ram.write (a + 1) (byteOf b.cnt 0)).write a b.stat }

/-- The arming writes in the order of R70: bytes 1, 2, 3, then `STAT`. -/
def State.writeBd (s : State) (ep : BitVec 4) (dir : Dir) (slot : Slot) (b : Bd) : State :=
  let a := bdAddr s.cfg ep dir slot
  { s with
    ram := (((s.ram.write (a + 1) (byteOf b.cnt 0)).write (a + 2) (byteOf b.addr 0)).write
      (a + 3) (byteOf b.addr 1)).write a b.stat }

/-- A descriptor in the terminal stall state (R139). -/
def Bd.stalled (b : Bd) : Bd := { b with own := true, keep := false, toi := false, stall := true }

/-- A descriptor reclaimed by the setup prologue: `dts` kept (R174). -/
def Bd.reclaimed (b : Bd) : Bd := { b with own := false, keep := false, toi := false, stall := false }

/-- A descriptor returned by CLEAR_STALL or `ReinitEndpoints`: `dts = 0` (R141, R249). -/
def Bd.returned (b : Bd) : Bd :=
  { b with own := false, dts := false, keep := false, toi := false, stall := false }

/-- A descriptor reclaimed by an early status: only `own` is cleared (R172). -/
def Bd.disowned (b : Bd) : Bd := { b with own := false }

/-- A descriptor completed by ENG: `own` and `stall` cleared (R286 to R288). -/
def Bd.completed (b : Bd) : Bd := { b with own := false, stall := false }

/-- One `STAT` write for every slot in `slots(ep, dir)` (R9). -/
def State.overSlots (s : State) (ep : BitVec 4) (dir : Dir) (f : Bd → Bd) : State :=
  (slots s.cfg ep dir).foldl (fun s slot => s.writeStat ep dir slot (f (s.bd ep dir slot))) s

/-! ### Endpoint records -/

/-- `EPS[ep][dir]` (R26). -/
def State.epsAt (s : State) (ep : BitVec 4) (dir : Dir) : Eps := s.eps[epIx ep dir]

/-- Write `EPS[ep][dir]` (R26). -/
def State.setEps (s : State) (ep : BitVec 4) (dir : Dir) (e : Eps) : State :=
  { s with eps := s.eps.set (epIx ep dir) e (epIx ep dir).isLt }

/-- `EPS[ep][dir].toggle <- t`. -/
def State.setToggle (s : State) (ep : BitVec 4) (dir : Dir) (t : Bool) : State :=
  s.setEps ep dir { s.epsAt ep dir with toggle := t }

/-- `EPS[ep][dir].halt <- h`. -/
def State.setHalt (s : State) (ep : BitVec 4) (dir : Dir) (h : Bool) : State :=
  s.setEps ep dir { s.epsAt ep dir with halt := h }

/-- `ENG_PP[ep][dir]` (R42). -/
def State.engSlotBit (s : State) (ep : BitVec 4) (dir : Dir) : Slot := s.engPp[epIx ep dir]

/-- `ENG_PP[ep][dir] <- !ENG_PP[ep][dir]` when `pp(ep, dir)` (R289). -/
def State.flipEngPp (s : State) (ep : BitVec 4) (dir : Dir) : State :=
  if pp s.cfg ep dir then
    { s with engPp := s.engPp.set (epIx ep dir) (s.engSlotBit ep dir).other (epIx ep dir).isLt }
  else s

/-- `NextSlot(ep, dir)` (R150). -/
def State.nextSlot (s : State) (ep : BitVec 4) (dir : Dir) : Slot :=
  if pp s.cfg ep dir then (s.epsAt ep dir).last.other else .even

/-- The parts of INIT, bus-reset servicing and SHUTDOWN that clear the descriptor table, the endpoint
records and ENG's slot pointers (R240, R248; log 15). -/
def State.clearEndpoints (s : State) : State :=
  { s with
    ram := s.ram.fillZero s.cfg.bdtBase.toNat (16 * s.cfg.nep)
    eps := Vector.replicate 32 Eps.initial
    engPp := Vector.replicate 32 .even }

/-! ### The request error (R186, R302) -/

/-- `DestroyCtx()` (R189). -/
def State.destroyCtx (s : State) : State := { s with ctx := Ctx.destroyed }

/-- The effect of STALL_EP once its operands are checked (R139). -/
def State.stallEndpoint (s : State) (ep : BitVec 4) (dir : Dir) : State :=
  (s.setHalt ep dir true).overSlots ep dir Bd.stalled

/-- `RequestError(cause)` (R186); the cause is a label of the trace (R187, R301). -/
def State.requestError (s : State) (cause : ErrorCause) : State :=
  let s := { s with trace := s.trace ++ [TraceItem.requestError cause] }
  (s.stallEndpoint 0 .inn).destroyCtx

/-- The abort that begins `CtSetup` (R174) and with which a request error ends (R302): the context
destroyed, a pending address dropped, EP0's descriptors reclaimed, its halt bits cleared, stage SETUP. -/
def State.setupPrologue (s : State) : State :=
  let s := { s.destroyCtx with addrPending := false }
  let s := (s.overSlots 0 .out Bd.reclaimed).overSlots 0 .inn Bd.reclaimed
  let s := (s.setHalt 0 .out false).setHalt 0 .inn false
  { s with ctx := { s.ctx with stage := .setup } }

end Sys2Proof.Machine
end

