-- ==== Sys2Proof/Machine/Engine.lean ====
section
/-! DEFINITION. The hardware engine ENG: token acceptance (R284, R285), TOK_OUT (R286), TOK_SETUP (R287), TOK_IN
(R288) and the bus conditions (R292). -/

namespace Sys2Proof.Machine

/-- `Accept(addr, ep)` (R284). -/
def State.accepts (s : State) (addr : BitVec 7) (ep : BitVec 4) : Bool :=
  s.usbEn && !s.ir.rst && (s.devState = .default || s.devState = .address || s.devState = .configured) &&
    addr = s.devAddr && ep.toNat < s.cfg.nep && s.epen.getLsbD ep.toNat

/-- `Slot(ep, dir)` (R285). -/
def State.engSlot (s : State) (ep : BitVec 4) (dir : Dir) : Slot :=
  if pp s.cfg ep dir then s.engSlotBit ep dir else .even

/-- `|TQ| = TQ_DEPTH`: no room to report (R290). -/
def State.tqFull (s : State) : Bool := s.cfg.tqDepth ≤ s.tq.length

/-- The response of a token (R282). -/
def State.respond (s : State) (r : Response) : State := { s with response := some r }

/-- The last writes of a completion, in order: the descriptor, the slot pointer, the record (R71, R289,
R290). -/
def State.report (s : State) (r : Completion) : State :=
  let s := s.flipEngPp r.ep r.dir
  { s with tq := s.tq ++ [r] }

/-- A packet received into an armed OUT descriptor: the bytes, the count, the ownership (R286, R287). The fields
`dts`, `keep` and `toi` that go back into `STAT`, and the address, are those the descriptor held before the data bytes
were stored: the model's choice, which shows only for a buffer that overlaps its own descriptor (U9, log 27). -/
def State.received (s : State) (ep : BitVec 4) (slot : Slot) (data : List Byte) : State :=
  let b := s.bd ep .out slot
  { s with ram := s.ram.writeBytes b.addr.toNat data }.writeCntStat ep .out slot
    { b.completed with cnt := .ofNat 10 data.length }

/-- TOK_OUT (R286). -/
def execTokOut (addr : BitVec 7) (ep : BitVec 4) (tgl : Bool) (data : List Byte) (s : State) :
    Host.Outcome State Fault Refusal :=
  let slot := s.engSlot ep .out
  let b := s.bd ep .out slot
  if !s.accepts addr ep then .next (s.respond .silent)
  else if ep = 0 && s.setupHold then .next (s.respond .nak)
  else if !b.own then .next (s.respond .nak)
  else if b.stall then .next (s.respond .stall)
  else if s.tqFull then .next (s.respond .nak)
  else if tgl ≠ b.dts then .next (s.respond .ack)
  else if b.cnt.toNat < data.length then .next (s.respond .silent)
  else .next (((s.received ep slot data).report ⟨ep, .out, slot, false, b.addr, b.cnt⟩).respond .ack)

/-- TOK_SETUP (R287). -/
def execTokSetup (addr : BitVec 7) (ep : BitVec 4) (data : List Byte) (s : State) :
    Host.Outcome State Fault Refusal :=
  let slot := s.engSlot 0 .out
  let b := s.bd 0 .out slot
  if !s.accepts addr ep || ep ≠ 0 then .next (s.respond .silent)
  else if s.setupHold then .next (s.respond .silent)
  else if !b.own then .next (s.respond .silent)
  else if s.tqFull then .next (s.respond .silent)
  else if b.cnt.toNat < data.length then .next (s.respond .silent)
  else
    let s := s.received 0 slot data
    .next (({ s with setupHold := true }.report ⟨0, .out, slot, true, b.addr, b.cnt⟩).respond .ack)

/-- TOK_IN (R288). An unacknowledged packet is sent again the same, so it draws nothing new (log 11). -/
def execTokIn (addr : BitVec 7) (ep : BitVec 4) (ack : Bool) (s : State) :
    Host.Outcome State Fault Refusal :=
  let slot := s.engSlot ep .inn
  let b := s.bd ep .inn slot
  if !s.accepts addr ep then .next (s.respond .silent)
  else if ep = 0 && s.setupHold then .next (s.respond .nak)
  else if !b.own then .next (s.respond .nak)
  else if b.stall then .next (s.respond .stall)
  else if s.tqFull then .next (s.respond .nak)
  else
    let r := Response.data b.dts (s.ram.readBytes s.draws b.addr.toNat b.cnt.toNat)
    if ack then
      let s := { s.writeStat ep .inn slot b.completed with draws := s.drawsAfter b.addr.toNat b.cnt.toNat }
      .next ((s.report ⟨ep, .inn, slot, false, b.addr, b.cnt⟩).respond r)
    else .next (s.respond r)

/-- BUS_RESET (R292), under the guard of R281. -/
def execBusReset (s : State) : Host.Outcome State Fault Refusal :=
  .next (if s.usbEn then { s with ir := { s.ir with rst := true } } else s)

/-- BUS_IDLE (R292), under the guard of R281. -/
def execBusIdle (s : State) : Host.Outcome State Fault Refusal :=
  .next (if s.usbEn then { s with ir := { s.ir with idle := true } } else s)

/-- BUS_ACTIVITY (R292), under the guard of R281. -/
def execBusActivity (s : State) : Host.Outcome State Fault Refusal :=
  .next (if s.usbEn then { s with ir := { s.ir with act := true } } else s)

/-- BUS_SOF (R292), under the guard of R281. -/
def execBusSof (s : State) : Host.Outcome State Fault Refusal :=
  .next (if s.usbEn then { s with ir := { s.ir with sof := true } } else s)

end Sys2Proof.Machine
end

