-- ==== Sys2Proof/WellFormed.lean ====
section
/-! DEFINITION. Which instruction terms an encoding stands for. Every operand is carried at its encoded
width, so one check is left: a standard request's type bits are 0 (R102). -/

namespace Sys2Proof

/-- `bmRequestType[6:5] = 0`, type standard (R100, R102). -/
def standardType (t : Byte) : Bool := t.extractLsb' 5 2 = 0

/-- A well-formed instruction: one that some encoded form of R90 decodes to. -/
def Instr.wf : Instr → Bool
  | .init | .service | .shutdown | .getState | .getConfig => true
  | .setStage _ _ _ | .armEp _ _ _ _ _ _ | .armEp0In _ | .armStatus _ | .stallEp _ _ => true
  | .xferRom _ _ _ | .xferRam _ _ _ => true
  | .arm _ _ _ _ _ _ _ _ | .armOut _ _ _ _ _ | .armIn _ _ _ _ _ | .clearStall _ _ => true
  | .getStatus t _ _ _ => standardType t
  | .clearFeature t _ _ _ => standardType t
  | .setFeature t _ _ _ => standardType t
  | .setAddress t _ _ _ => standardType t
  | .getDescriptor t _ _ _ => standardType t
  | .setDescriptor t _ _ _ => standardType t
  | .getConfiguration t _ _ _ => standardType t
  | .setConfiguration t _ _ _ => standardType t
  | .getInterface t _ _ _ => standardType t
  | .setInterface t _ _ _ => standardType t
  | .synchFrame t _ _ _ => standardType t
  | .svcRst | .svcIdle | .svcAct | .svcSof | .svcTrn => true
  | .tokOut _ _ _ _ | .tokIn _ _ _ | .tokSetup _ _ _ => true
  | .busReset | .busIdle | .busActivity | .busSof => true

end Sys2Proof
end

