-- ==== Sys2Proof/Decode.lean ====
section
/-! DEFINITION. Decoding and encoding of the four formats (R90): command words (R91 to R98), setup packets
(R100 to R104), servicing selectors (R105) and bus-side events (R106). Decoding is total and rejects by
name; the encoder is written from the same tables. -/

namespace Sys2Proof

/-! ### One-bit fields -/

/-- The direction bit of an encoding (R91: 0 OUT, 1 IN). -/
def Dir.bit : Dir → BitVec 1
  | .out => 0
  | .inn => 1

/-- The direction named by a bit (R91). -/
def Dir.ofBit (b : BitVec 1) : Dir := if b = 1 then .inn else .out

/-- The slot bit of an encoding (R91: 0 EVEN, 1 ODD). -/
def Slot.bit : Slot → BitVec 1
  | .even => 0
  | .odd => 1

/-- The slot named by a bit (R91). -/
def Slot.ofBit (b : BitVec 1) : Slot := if b = 1 then .odd else .even

/-- A one-bit field as a Bool. -/
def flag (b : BitVec 1) : Bool := b = 1

/-! ### Command words -/

/-- The fields of a command word (R91), most significant first; `rsv` is bit 48. -/
structure CmdFields where
  opc : BitVec 6
  keep : BitVec 1
  toi : BitVec 1
  ep : BitVec 4
  dir : BitVec 1
  slot : BitVec 1
  tgl : BitVec 1
  rsv : BitVec 1
  addr : Half
  n1 : Half
  n2 : Half
  deriving DecidableEq, Repr

/-- The bit positions of R91, read. -/
def CmdFields.unpack (w : Word64) : CmdFields where
  opc := w.extractLsb' 58 6
  keep := w.extractLsb' 57 1
  toi := w.extractLsb' 56 1
  ep := w.extractLsb' 52 4
  dir := w.extractLsb' 51 1
  slot := w.extractLsb' 50 1
  tgl := w.extractLsb' 49 1
  rsv := w.extractLsb' 48 1
  addr := w.extractLsb' 32 16
  n1 := w.extractLsb' 16 16
  n2 := w.extractLsb' 0 16

/-- The bit positions of R91, written. -/
def CmdFields.pack (f : CmdFields) : Word64 :=
  f.opc ++ f.keep ++ f.toi ++ f.ep ++ f.dir ++ f.slot ++ f.tgl ++ f.rsv ++ f.addr ++ f.n1 ++ f.n2

/-- All fields zero but the opcode. -/
def CmdFields.only (opc : BitVec 6) : CmdFields := ⟨opc, 0, 0, 0, 0, 0, 0, 0, 0, 0, 0⟩

/-- The must-be-zero rule R93: the word's fields equal those the opcode's sub-format keeps, every
other field zero. -/
def CmdFields.checked (f kept : CmdFields) (i : Instr) : Except Reject Instr :=
  if f = kept then .ok i else .error .mustBeZero

/-- Decoding of a command word from its fields, opcode by opcode (R92, R93, R95). -/
def decodeFields (f : CmdFields) : Except Reject Instr :=
  match f.opc.toNat with
  | 0x01 => f.checked (.only f.opc) .init
  | 0x02 => f.checked (.only f.opc) .service
  | 0x03 => f.checked (.only f.opc) .shutdown
  | 0x04 => f.checked (.only f.opc) .getState
  | 0x05 => f.checked (.only f.opc) .getConfig
  | 0x06 => f.checked { CmdFields.only f.opc with addr := f.addr, n1 := (f.n1.extractLsb' 0 3).setWidth 16, n2 := f.n2 }
      (.setStage (f.n1.extractLsb' 0 3) f.addr f.n2)
  | 0x07 => f.checked { CmdFields.only f.opc with keep := f.keep, toi := f.toi, ep := f.ep, dir := f.dir, addr := f.addr, n1 := f.n1 }
      (.armEp (flag f.keep) (flag f.toi) f.ep (.ofBit f.dir) f.addr f.n1)
  | 0x08 => f.checked { CmdFields.only f.opc with n1 := f.n1 } (.armEp0In f.n1)
  | 0x09 => f.checked { CmdFields.only f.opc with dir := f.dir } (.armStatus (.ofBit f.dir))
  | 0x0A => f.checked { CmdFields.only f.opc with ep := f.ep, dir := f.dir } (.stallEp f.ep (.ofBit f.dir))
  | 0x0B => f.checked { CmdFields.only f.opc with addr := f.addr, n1 := f.n1, n2 := f.n2 } (.xferRom f.addr f.n1 f.n2)
  | 0x0C => f.checked { CmdFields.only f.opc with addr := f.addr, n1 := f.n1, n2 := f.n2 } (.xferRam f.addr f.n1 f.n2)
  | 0x10 => f.checked { f with rsv := 0, n2 := 0 }
      (.arm (flag f.keep) (flag f.toi) f.ep (.ofBit f.dir) (.ofBit f.slot) (flag f.tgl) f.addr f.n1)
  | 0x11 => f.checked { CmdFields.only f.opc with keep := f.keep, toi := f.toi, ep := f.ep, addr := f.addr, n1 := f.n1 }
      (.armOut (flag f.keep) (flag f.toi) f.ep f.addr f.n1)
  | 0x12 => f.checked { CmdFields.only f.opc with keep := f.keep, toi := f.toi, ep := f.ep, addr := f.addr, n1 := f.n1 }
      (.armIn (flag f.keep) (flag f.toi) f.ep f.addr f.n1)
  | 0x13 => f.checked { CmdFields.only f.opc with ep := f.ep, dir := f.dir } (.clearStall f.ep (.ofBit f.dir))
  | _ => .error .reservedOpcode

/-- Decoding of a command word (R96 step 2, R98). -/
def decodeCmd (w : Word64) : Except Reject Instr := decodeFields (.unpack w)

/-- The opcode field of a command word names INIT, SERVICE or SHUTDOWN (R96 step 1). -/
def reentrantOpcode (w : Word64) : Bool :=
  (CmdFields.unpack w).opc = 0x01 || (CmdFields.unpack w).opc = 0x02 || (CmdFields.unpack w).opc = 0x03

/-! ### Setup packets -/

/-- The fields of a setup packet (R100). -/
structure SetupFields where
  bmRequestType : Byte
  bRequest : Byte
  wValue : Half
  wIndex : Half
  wLength : Half
  deriving DecidableEq, Repr

/-- The little-endian positions of R100 in the 64-bit value `SP`. -/
def SetupFields.unpack (sp : Word64) : SetupFields where
  bmRequestType := sp.extractLsb' 0 8
  bRequest := sp.extractLsb' 8 8
  wValue := sp.extractLsb' 16 16
  wIndex := sp.extractLsb' 32 16
  wLength := sp.extractLsb' 48 16

/-- The positions of R100, written. -/
def SetupFields.pack (f : SetupFields) : Word64 :=
  f.wLength ++ f.wIndex ++ f.wValue ++ f.bRequest ++ f.bmRequestType

/-- The standard request a setup packet selects (R102): type bits 0 and one of the eleven codes. -/
def decodeSetup (f : SetupFields) : Except Reject Instr :=
  if f.bmRequestType.extractLsb' 5 2 = 0 then
    match f.bRequest.toNat with
    | 0x00 => .ok (.getStatus f.bmRequestType f.wValue f.wIndex f.wLength)
    | 0x01 => .ok (.clearFeature f.bmRequestType f.wValue f.wIndex f.wLength)
    | 0x03 => .ok (.setFeature f.bmRequestType f.wValue f.wIndex f.wLength)
    | 0x05 => .ok (.setAddress f.bmRequestType f.wValue f.wIndex f.wLength)
    | 0x06 => .ok (.getDescriptor f.bmRequestType f.wValue f.wIndex f.wLength)
    | 0x07 => .ok (.setDescriptor f.bmRequestType f.wValue f.wIndex f.wLength)
    | 0x08 => .ok (.getConfiguration f.bmRequestType f.wValue f.wIndex f.wLength)
    | 0x09 => .ok (.setConfiguration f.bmRequestType f.wValue f.wIndex f.wLength)
    | 0x0A => .ok (.getInterface f.bmRequestType f.wValue f.wIndex f.wLength)
    | 0x0B => .ok (.setInterface f.bmRequestType f.wValue f.wIndex f.wLength)
    | 0x0C => .ok (.synchFrame f.bmRequestType f.wValue f.wIndex f.wLength)
    | _ => .error .notStandard
  else .error .notStandard

/-- Decoding of a latched setup packet. -/
def decodeReq (sp : Word64) : Except Reject Instr := decodeSetup (.unpack sp)

/-! ### Servicing selectors and bus-side events -/

/-- Decoding of a one-hot servicing selector over the `IR` byte (R105). -/
def decodeEvt (ir : Byte) : Except Reject Instr :=
  match ir.toNat with
  | 0x01 => .ok .svcRst
  | 0x02 => .ok .svcIdle
  | 0x04 => .ok .svcAct
  | 0x08 => .ok .svcSof
  | 0x10 => .ok .svcTrn
  | _ => .error .notOneArm

/-- Decoding of a bus-side event by its code (R106). -/
def decodeBus (r : BusRecord) : Except Reject Instr :=
  match r.code.toNat with
  | 0 => .ok (.tokOut r.addr r.ep r.tgl r.data)
  | 1 => .ok (.tokIn r.addr r.ep r.ack)
  | 2 => .ok (.tokSetup r.addr r.ep r.data)
  | 3 => .ok .busReset
  | 4 => .ok .busIdle
  | 5 => .ok .busActivity
  | 6 => .ok .busSof
  | _ => .error .reservedBusCode

/-- Decoding of any encoded form (R90). -/
def decode : Code → Except Reject Instr
  | .cmd w => decodeCmd w
  | .req sp => decodeReq sp
  | .evt ir => decodeEvt ir
  | .bus r => decodeBus r

/-! ### The encoder -/

/-- A command word from its fields. -/
def Code.ofFields (f : CmdFields) : Code := .cmd f.pack

/-- A setup packet of request code `code` (R102). -/
def Code.ofSetup (code : Byte) (t : Byte) (v i l : Half) : Code :=
  .req (SetupFields.pack ⟨t, code, v, i, l⟩)

/-- A bus-side event of code `code` with every field empty. -/
def BusRecord.only (code : BitVec 3) : BusRecord := ⟨code, 0, 0, false, [], false⟩

/-- The encoded form of an instruction (R91 to R95, R100, R102, R105, R106). -/
def encode : Instr → Code
  | .init => .ofFields (.only 0x01)
  | .service => .ofFields (.only 0x02)
  | .shutdown => .ofFields (.only 0x03)
  | .getState => .ofFields (.only 0x04)
  | .getConfig => .ofFields (.only 0x05)
  | .setStage stage dst count =>
      .ofFields { CmdFields.only 0x06 with addr := dst, n1 := stage.setWidth 16, n2 := count }
  | .armEp keep toi ep dir buf n =>
      .ofFields { CmdFields.only 0x07 with keep := .ofBool keep, toi := .ofBool toi, ep := ep, dir := dir.bit, addr := buf, n1 := n }
  | .armEp0In count => .ofFields { CmdFields.only 0x08 with n1 := count }
  | .armStatus dir => .ofFields { CmdFields.only 0x09 with dir := dir.bit }
  | .stallEp ep dir => .ofFields { CmdFields.only 0x0A with ep := ep, dir := dir.bit }
  | .xferRom src avail req => .ofFields { CmdFields.only 0x0B with addr := src, n1 := avail, n2 := req }
  | .xferRam src avail req => .ofFields { CmdFields.only 0x0C with addr := src, n1 := avail, n2 := req }
  | .arm keep toi ep dir slot tgl buf cnt =>
      .ofFields ⟨0x10, .ofBool keep, .ofBool toi, ep, dir.bit, slot.bit, .ofBool tgl, 0, buf, cnt, 0⟩
  | .armOut keep toi ep buf max =>
      .ofFields { CmdFields.only 0x11 with keep := .ofBool keep, toi := .ofBool toi, ep := ep, addr := buf, n1 := max }
  | .armIn keep toi ep buf count =>
      .ofFields { CmdFields.only 0x12 with keep := .ofBool keep, toi := .ofBool toi, ep := ep, addr := buf, n1 := count }
  | .clearStall ep dir => .ofFields { CmdFields.only 0x13 with ep := ep, dir := dir.bit }
  | .getStatus t v i l => .ofSetup 0x00 t v i l
  | .clearFeature t v i l => .ofSetup 0x01 t v i l
  | .setFeature t v i l => .ofSetup 0x03 t v i l
  | .setAddress t v i l => .ofSetup 0x05 t v i l
  | .getDescriptor t v i l => .ofSetup 0x06 t v i l
  | .setDescriptor t v i l => .ofSetup 0x07 t v i l
  | .getConfiguration t v i l => .ofSetup 0x08 t v i l
  | .setConfiguration t v i l => .ofSetup 0x09 t v i l
  | .getInterface t v i l => .ofSetup 0x0A t v i l
  | .setInterface t v i l => .ofSetup 0x0B t v i l
  | .synchFrame t v i l => .ofSetup 0x0C t v i l
  | .svcRst => .evt 0x01
  | .svcIdle => .evt 0x02
  | .svcAct => .evt 0x04
  | .svcSof => .evt 0x08
  | .svcTrn => .evt 0x10
  | .tokOut addr ep tgl data => .bus { BusRecord.only 0 with addr := addr, ep := ep, tgl := tgl, data := data }
  | .tokIn addr ep ack => .bus { BusRecord.only 1 with addr := addr, ep := ep, ack := ack }
  | .tokSetup addr ep data => .bus { BusRecord.only 2 with addr := addr, ep := ep, data := data }
  | .busReset => .bus (.only 3)
  | .busIdle => .bus (.only 4)
  | .busActivity => .bus (.only 5)
  | .busSof => .bus (.only 6)

/-! ### The host's numbering of the opcode table

The table numbers four formats that the spec keeps apart by where the value stands (log 10): a word of at
most 8 bits is a servicing selector if it is one, else a bus-side event code; a wider one is a command word
if its opcode is in the map and its must-be-zero bits are 0, else a setup packet. -/

/-- The encoded form that a word of the table's numbering stands for (log 10). -/
def tableCode (nbits w : Nat) : Code :=
  if nbits ≤ 8 then
    match decodeEvt (.ofNat 8 w) with
    | .ok _ => .evt (.ofNat 8 w)
    | .error _ => .bus (.only (if w < 8 then .ofNat 3 w else 7))
  else
    match decodeCmd (.ofNat 64 w) with
    | .ok _ => .cmd (.ofNat 64 w)
    | .error _ => .req (.ofNat 64 w)

/-- The instruction the decoder reads from a word numbered as the opcode table numbers it. -/
def decodeTableWord (nbits w : Nat) : Option Instr :=
  match decode (tableCode nbits w) with
  | .ok i => some i
  | .error _ => none

end Sys2Proof
end

