-- ==== Sys2Proof/Machine/BufferModel.lean ====
section
/-! DEFINITION. The Endpoint Buffer Model: ARM (R131), ON_COMPLETE (R137), STALL_EP (R139), CLEAR_STALL (R141). -/

namespace Sys2Proof.Machine

/-- The writes of ARM once its checks have passed (R131). -/
def State.armed (s : State) (keep toi : Bool) (ep : BitVec 4) (dir : Dir) (slot : Slot) (tgl : Bool)
    (buf cnt : Half) : State :=
  (s.writeBd ep dir slot
    { own := true, dts := tgl, keep := keep, toi := toi, stall := false,
      cnt := cnt.setWidth 10, addr := buf }).setToggle ep dir tgl

/-- ARM (R131): the operand checks (R130, R65), then the ownership check (R133), then the writes. -/
def armOp (keep toi : Bool) (ep : BitVec 4) (dir : Dir) (slot : Slot) (tgl : Bool) (buf cnt : Half)
    (s : State) : Res Unit :=
  if !checkEp s.cfg ep dir slot cnt.toNat then s.raise .badparam
  else if !fits buf.toNat cnt.toNat then s.raise .badparam
  else if (s.bd ep dir slot).own then s.raise .darm
  else .ok () (s.armed keep toi ep dir slot tgl buf cnt)

/-- ON_COMPLETE (R137): the count the descriptor reports, and the endpoint's bookkeeping. -/
def onComplete (ep : BitVec 4) (dir : Dir) (slot : Slot) (s : State) : BitVec 10 × State :=
  let b := s.bd ep dir slot
  let e := s.epsAt ep dir
  (b.cnt,
    s.setEps ep dir
      { e with
        toggle := if b.keep then e.toggle else !e.toggle
        last := if pp s.cfg ep dir then slot else e.last })

/-- STALL_EP (R139). -/
def stallOp (ep : BitVec 4) (dir : Dir) (s : State) : Res Unit :=
  if !checkEp s.cfg ep dir .even 0 then s.raise .badparam
  else .ok () (s.stallEndpoint ep dir)

/-- CLEAR_STALL's writes before the re-arm (R141). -/
def State.clearHalt (s : State) (ep : BitVec 4) (dir : Dir) : State :=
  ((s.setHalt ep dir false).setToggle ep dir false).overSlots ep dir Bd.returned

/-- CLEAR_STALL (R141): an OUT endpoint other than 0 is armed again for `MPS` bytes at the address its
next-slot descriptor holds. -/
def clearStallOp (ep : BitVec 4) (dir : Dir) (s : State) : Res Unit :=
  if !checkEp s.cfg ep dir .even 0 then s.raise .badparam
  else
    let s := s.clearHalt ep dir
    if dir = .out && ep ≠ 0 then
      let slot := s.nextSlot ep .out
      armOp false false ep .out slot false (s.bd ep .out slot).addr (.ofNat 16 (mps s.cfg ep .out)) s
    else .ok () s

/-- The command ARM (R131). -/
def execArm (keep toi : Bool) (ep : BitVec 4) (dir : Dir) (slot : Slot) (tgl : Bool) (buf cnt : Half)
    (s : State) : Host.Outcome State Fault Refusal :=
  (armOp keep toi ep dir slot tgl buf cnt s).toOutcome

/-- The command STALL_EP (R139). -/
def execStallEp (ep : BitVec 4) (dir : Dir) (s : State) : Host.Outcome State Fault Refusal :=
  (stallOp ep dir s).toOutcome

/-- The command CLEAR_STALL (R141). -/
def execClearStall (ep : BitVec 4) (dir : Dir) (s : State) : Host.Outcome State Fault Refusal :=
  (clearStallOp ep dir s).toOutcome

end Sys2Proof.Machine
end

