-- ==== Sys2Proof/Machine/Arming.lean ====
section
/-! DEFINITION. The Endpoint Arming Primitive: ARM_OUT (R152), ARM_IN (R154), ARM_EP (R156), ARM_EP0_IN (R158),
ARM_STATUS (R160), and `Ep0OutRearm` (R188). -/

namespace Sys2Proof.Machine

/-- ARM_OUT (R152). -/
def armOutOp (keep toi : Bool) (ep : BitVec 4) (buf max : Half) (s : State) : Res Unit :=
  if s.cfg.nep ≤ ep.toNat then s.raise .badparam
  else armOp keep toi ep .out (s.nextSlot ep .out) (s.epsAt ep .out).toggle buf max s

/-- ARM_IN (R154). -/
def armInOp (keep toi : Bool) (ep : BitVec 4) (buf count : Half) (s : State) : Res Unit :=
  if s.cfg.nep ≤ ep.toNat then s.raise .badparam
  else armOp keep toi ep .inn (s.nextSlot ep .inn) (s.epsAt ep .inn).toggle buf count s

/-- ARM_EP (R156). -/
def armEpOp (keep toi : Bool) (ep : BitVec 4) (dir : Dir) (buf n : Half) (s : State) : Res Unit :=
  match dir with
  | .out => armOutOp keep toi ep buf n s
  | .inn => armInOp keep toi ep buf n s

/-- ARM_EP0_IN (R158). -/
def armEp0InOp (count : Half) (s : State) : Res Unit :=
  armInOp false false 0 s.cfg.ep0Buf count s

/-- `Ep0OutRearm(force)` (R188). -/
def ep0OutRearm (force : Bool) (s : State) : Res Unit :=
  let slot := s.nextSlot 0 .out
  if (s.bd 0 .out slot).own then .ok () s
  else
    armOp false false 0 .out slot (if force then true else (s.epsAt 0 .out).toggle) s.cfg.ep0Buf
      (.ofNat 16 (mps0 s.cfg)) s

/-- ARM_STATUS (R160): a status stage uses DATA1 (R161). -/
def armStatusOp (dir : Dir) (s : State) : Res Unit :=
  match dir with
  | .inn => armInOp false false 0 s.cfg.ep0Buf 0 (s.setToggle 0 .inn true)
  | .out => ep0OutRearm true s

/-- The command ARM_OUT (R152). -/
def execArmOut (keep toi : Bool) (ep : BitVec 4) (buf max : Half) (s : State) :
    Host.Outcome State Fault Refusal :=
  (armOutOp keep toi ep buf max s).toOutcome

/-- The command ARM_IN (R154). -/
def execArmIn (keep toi : Bool) (ep : BitVec 4) (buf count : Half) (s : State) :
    Host.Outcome State Fault Refusal :=
  (armInOp keep toi ep buf count s).toOutcome

/-- The command ARM_EP (R156). -/
def execArmEp (keep toi : Bool) (ep : BitVec 4) (dir : Dir) (buf n : Half) (s : State) :
    Host.Outcome State Fault Refusal :=
  (armEpOp keep toi ep dir buf n s).toOutcome

/-- The command ARM_EP0_IN (R158). -/
def execArmEp0In (count : Half) (s : State) : Host.Outcome State Fault Refusal :=
  (armEp0InOp count s).toOutcome

/-- The command ARM_STATUS (R160). -/
def execArmStatus (dir : Dir) (s : State) : Host.Outcome State Fault Refusal :=
  (armStatusOp dir s).toOutcome

end Sys2Proof.Machine
end

