-- ==== Sys2Proof/Machine/ControlEngine.lean ====
section
/-! DEFINITION. The Control Transfer Engine but for its dispatch: XFER_ROM and XFER_RAM (R176, R177), `CtInStep`
(R178), `CtOutData` (R180), `CtStatusDone` (R182), SET_STAGE (R184). -/

namespace Sys2Proof.Machine

/-- The data of one chunk staged in the EP0 buffer and the context moved past it (R178). -/
def State.staged (s : State) (k : Nat) : State :=
  { s with
    ram := copyBytes s.rom s.ctx.kind s.draws k s.ctx.src.toNat s.cfg.ep0Buf.toNat s.ram
    draws := s.drawsAfter s.ctx.src.toNat k
    ctx := { s.ctx with
      src := s.ctx.src + .ofNat 16 k
      remaining := s.ctx.remaining - .ofNat 16 k
      zlp := if k < mps0 s.cfg then false else s.ctx.zlp } }

/-- `CtInStep()` (R178). -/
def ctInStep (s : State) : Res Unit :=
  if s.ctx.remaining = 0 && !s.ctx.zlp then
    ep0OutRearm true { s with ctx := { s.ctx with stage := .statusOut } }
  else
    let k := min s.ctx.remaining.toNat (mps0 s.cfg)
    armInOp false false 0 s.cfg.ep0Buf (.ofNat 16 k) (s.staged k)

/-- The context that XFER sets up (R176). -/
def State.xferContext (s : State) (kind : Kind) (src avail req : Half) : State :=
  let n := min avail.toNat req.toNat
  { s with
    ctx := { s.ctx with
      kind := kind
      src := src
      remaining := .ofNat 16 n
      zlp := owesZlp n req.toNat (mps0 s.cfg)
      stage := .dataIn } }

/-- XFER (R176): both checks, the context, DATA1 (R190), then the first packet. -/
def xferOp (kind : Kind) (src avail req : Half) (s : State) : Res Unit :=
  if s.ctx.stage ≠ .setup then s.raise .badparam
  else if !fits src.toNat (min avail.toNat req.toNat) then s.raise .badparam
  else ctInStep ((s.xferContext kind src avail req).setToggle 0 .inn true)

/-- A received chunk of `count` bytes copied to the destination and the context moved past it (R180). -/
def State.consumed (s : State) (count : BitVec 10) : State :=
  { s with
    ram := copyBytes s.rom .ram s.draws count.toNat s.cfg.ep0Buf.toNat s.ctx.dst.toNat s.ram
    draws := s.drawsAfter s.cfg.ep0Buf.toNat count.toNat
    ctx := { s.ctx with
      dst := s.ctx.dst + count.setWidth 16
      remaining := s.ctx.remaining - count.setWidth 16 } }

/-- `CtOutData(count)` (R180). -/
def ctOutData (count : BitVec 10) (s : State) : Res Unit :=
  if s.ctx.remaining.toNat < count.toNat then ep0OutRearm false (s.requestError .overrun)
  else
    let s := s.consumed count
    (if s.ctx.remaining = 0 then
      (armStatusOp .inn s).bind fun _ s => .ok () { s with ctx := { s.ctx with stage := .statusIn } }
    else .ok () s).bind fun _ s => ep0OutRearm false s

/-- `CtStatusDone()` (R182). -/
def State.statusDone (s : State) : State :=
  (if s.addrPending then
    { s with
      devAddr := s.newAddr
      devState := if s.newAddr ≠ 0 then .address else .default
      addrPending := false }
  else s).destroyCtx

/-- SET_STAGE (R184). -/
def setStageOp (stage : BitVec 3) (dst count : Half) (s : State) : Res Unit :=
  match Stage.ofBits stage with
  | none => s.raise .badparam
  | some .dataOut =>
    if count = 0 || !fits dst.toNat count.toNat then s.raise .badparam
    else .ok () { s with ctx := { s.ctx with dst := dst, remaining := count, zlp := false, stage := .dataOut } }
  | some st => .ok () { s with ctx := { s.ctx with stage := st } }

/-- The command XFER_ROM (R176). -/
def execXferRom (src avail req : Half) (s : State) : Host.Outcome State Fault Refusal :=
  (xferOp .rom src avail req s).toOutcome

/-- The command XFER_RAM (R177). -/
def execXferRam (src avail req : Half) (s : State) : Host.Outcome State Fault Refusal :=
  (xferOp .ram src avail req s).toOutcome

/-- The command SET_STAGE (R184). -/
def execSetStage (stage : BitVec 3) (dst count : Half) (s : State) : Host.Outcome State Fault Refusal :=
  (setStageOp stage dst count s).toOutcome

end Sys2Proof.Machine
end

