-- ==== Sys2Proof/Machine/Device.lean ====
section
/-! DEFINITION. The supervisory commands INIT (R240), SHUTDOWN (R256), GET_STATE (R258), GET_CONFIG (R259). -/

namespace Sys2Proof.Machine

/-- The assignments that INIT and SHUTDOWN share (R240, R256); `USBEN` and `DEVSTATE` follow. -/
def State.restart (s : State) (en : Bool) (d : DevState) : State :=
  { s.clearEndpoints with
    config := 0
    devAddr := 0
    newAddr := 0
    addrPending := false
    setup := 0
    ctx := Ctx.destroyed
    ir := IrFlags.none
    tq := []
    suspended := false
    epen := 0x0000
    setupHold := false
    usbEn := en
    devState := d }

/-- INIT (R240), refused while a SERVICE is in progress (R243). -/
def initOp (s : State) : Res Unit :=
  if s.busy then s.raise .reentry else .ok () (s.restart true .powered)

/-- SHUTDOWN (R256), refused while a SERVICE is in progress (R243). -/
def shutdownOp (s : State) : Res Unit :=
  if s.busy then s.raise .reentry else .ok () (s.restart false .detached)

/-- GET_STATE (R258). -/
def getStateOp (s : State) : Res Unit :=
  .ok () { s with resp := (BitVec.ofBool s.suspended ++ s.devState.bits).setWidth 16 }

/-- GET_CONFIG (R259). -/
def getConfigOp (s : State) : Res Unit :=
  .ok () { s with resp := s.config.setWidth 16 }

/-- The command INIT (R240). -/
def execInit (s : State) : Host.Outcome State Fault Refusal := (initOp s).toOutcome

/-- The command SHUTDOWN (R256). -/
def execShutdown (s : State) : Host.Outcome State Fault Refusal := (shutdownOp s).toOutcome

/-- The command GET_STATE (R258). -/
def execGetState (s : State) : Host.Outcome State Fault Refusal := (getStateOp s).toOutcome

/-- The command GET_CONFIG (R259). -/
def execGetConfig (s : State) : Host.Outcome State Fault Refusal := (getConfigOp s).toOutcome

end Sys2Proof.Machine
end

