-- ==== Sys2Proof/Machine/Hooks.lean ====
section
/-! DEFINITION. Hook calls (R262 to R267): the oracle's next answer is taken from the tape and its command words
are executed at the point of the call. -/

namespace Sys2Proof.Machine

/-- What one command word of a hook performs (R96, R267). INIT, SERVICE and SHUTDOWN are the re-entry fault
(R243, log 18); the other operations are no command words and no command word decodes to them. -/
def hookCommand (i : Instr) (s : State) : Res Unit :=
  match i with
  | .init | .service | .shutdown => s.raise .reentry
  | .getState => getStateOp s
  | .getConfig => getConfigOp s
  | .setStage stage dst count => setStageOp stage dst count s
  | .armEp keep toi ep dir buf n => armEpOp keep toi ep dir buf n s
  | .armEp0In count => armEp0InOp count s
  | .armStatus dir => armStatusOp dir s
  | .stallEp ep dir => stallOp ep dir s
  | .xferRom src avail req => xferOp .rom src avail req s
  | .xferRam src avail req => xferOp .ram src avail req s
  | .arm keep toi ep dir slot tgl buf cnt => armOp keep toi ep dir slot tgl buf cnt s
  | .armOut keep toi ep buf max => armOutOp keep toi ep buf max s
  | .armIn keep toi ep buf count => armInOp keep toi ep buf count s
  | .clearStall ep dir => clearStallOp ep dir s
  | .getStatus _ _ _ _ | .clearFeature _ _ _ _ | .setFeature _ _ _ _ | .setAddress _ _ _ _
  | .getDescriptor _ _ _ _ | .setDescriptor _ _ _ _ | .getConfiguration _ _ _ _
  | .setConfiguration _ _ _ _ | .getInterface _ _ _ _ | .setInterface _ _ _ _ | .synchFrame _ _ _ _
  | .svcRst | .svcIdle | .svcAct | .svcSof | .svcTrn
  | .tokOut _ _ _ _ | .tokIn _ _ _ | .tokSetup _ _ _
  | .busReset | .busIdle | .busActivity | .busSof => s.raise .badcmd

/-- Execution of one command word of a hook (R96): `CMD` is written, the re-entry check comes before the
decode (R305), and an operation that is performed starts with `RESP = 0`. -/
def runHookWord (w : Word64) (s : State) : Res Unit :=
  let s := { s with cmd := w }
  if reentrantOpcode w then s.raise .reentry
  else
    match decodeCmd w with
    | .error _ => s.raise .badcmd
    | .ok i => hookCommand i { s with resp := 0x0000 }

/-- The words of a hook in order; a fault ends its own word only (R267, R303). -/
def runHookWords : List Word64 → State → Res Unit
  | [], s => .ok () s
  | w :: ws, s =>
    match runHookWord w s with
    | .ok _ s => runHookWords ws s
    | .raised s => runHookWords ws s

/-- One call of a hook that is present: the next answer of the tape, the call recorded in the trace
(R356), its words executed, its verdict returned. An exhausted tape answers "unhandled" with no word (log 7). -/
def callHook (item : Bool → TraceItem) (s : State) : Res Bool :=
  let a := s.hookTape.headD ⟨false, []⟩
  (runHookWords a.words { s with hookTape := s.hookTape.tail, trace := s.trace ++ [item a.handled] }).bind
    fun _ s => .ok a.handled s

/-- A call of a hook without a verdict; an absent hook is not called (R262, R265). -/
def notifyHook (present : Bool) (item : TraceItem) (s : State) : Res Unit :=
  if present then (callHook (fun _ => item) s).bind fun _ s => .ok () s else .ok () s

end Sys2Proof.Machine
end

