-- ==== Sys2Proof/Machine/StdRequests.lean ====
section
/-! DEFINITION. The handlers of the eleven standard requests (R212 to R232), each with its verdict, and the
conclusion that `Dispatch` draws from a verdict (R175). An instruction of format REQ is its handler followed by that
conclusion (log 21). -/

namespace Sys2Proof.Machine

/-- The verdict `false`: nothing was changed (R210). -/
def reject (s : State) : Res Bool := .ok false s

/-- The verdict `true`. -/
def accept (s : State) : Res Bool := .ok true s

/-- The bytes of a short answer written at `SCRATCH`, then `XFER(RAM, SCRATCH, n, L)` and verdict `true`
(R212, R224, R228). -/
def answerScratch (bytes : List Byte) (l : Half) (s : State) : Res Bool :=
  (xferOp .ram s.cfg.scratch (.ofNat 16 bytes.length) l
    { s with ram := s.ram.writeBytes s.cfg.scratch.toNat bytes }).bind fun _ s => accept s

/-- `0x01` or `0x00`. -/
def boolByte (b : Bool) : Byte := if b then 1 else 0

/-- The status byte of GET_STATUS, where the recipient is one it serves (R212). -/
def statusByte (t : Byte) (i : Half) (s : State) : Option Byte :=
  match recipient t with
  | 0 => if i ≠ 0 then none else some (boolByte s.cfg.selfPowered)
  | 1 => if ifOk s i then some 0 else none
  | 2 => if epOk s i then some (boolByte (s.epsAt (indexEp i) (indexDir i)).halt) else none
  | _ => none

/-- GET_STATUS (R212). -/
def stdGetStatus (t : Byte) (v i l : Half) (s : State) : Res Bool :=
  if !d2h t || v ≠ 0 then reject s
  else
    match statusByte t i s with
    | none => reject s
    | some b0 => answerScratch [b0, 0x00] l s

/-- CLEAR_FEATURE (R214). -/
def stdClearFeature (t : Byte) (v i l : Half) (s : State) : Res Bool :=
  if d2h t || l ≠ 0 then reject s
  else if recipient t = 2 ∧ v = 0 then
    if !epOk s i then reject s
    else if indexEp i ≠ 0 then (clearStallOp (indexEp i) (indexDir i) s).bind fun _ s => accept s
    else accept s
  else reject s

/-- SET_FEATURE (R216). -/
def stdSetFeature (t : Byte) (v i l : Half) (s : State) : Res Bool :=
  if d2h t || l ≠ 0 then reject s
  else if recipient t = 2 ∧ v = 0 then
    if !epOk s i || indexEp i = 0 then reject s
    else (stallOp (indexEp i) (indexDir i) s).bind fun _ s => accept s
  else reject s

/-- SET_ADDRESS (R218): the address takes effect only at the end of the status stage (R182). -/
def stdSetAddress (t : Byte) (v i l : Half) (s : State) : Res Bool :=
  if d2h t || recipient t ≠ 0 || i ≠ 0 || l ≠ 0 || 127 < v.toNat then reject s
  else if s.devState = .configured then reject s
  else accept { s with newAddr := v.extractLsb' 0 7, addrPending := true }

/-- GET_DESCRIPTOR (R220). -/
def stdGetDescriptor (t : Byte) (v i l : Half) (s : State) : Res Bool :=
  if !d2h t then reject s
  else
    match descLookup s.cfg (highByte v) (lowByte v) i with
    | none => reject s
    | some (kind, addr, len) => (xferOp kind addr len l s).bind fun _ s => accept s

/-- SET_DESCRIPTOR (R222): recognised and rejected. -/
def stdSetDescriptor (_ : Byte) (_ _ _ : Half) (s : State) : Res Bool := reject s

/-- GET_CONFIGURATION (R224). -/
def stdGetConfiguration (t : Byte) (v i l : Half) (s : State) : Res Bool :=
  if !d2h t || recipient t ≠ 0 || v ≠ 0 || i ≠ 0 then reject s
  else answerScratch [s.config] l s

/-- The records of endpoints other than 0 leave `TQ`; a double-buffered one still updates `last`
(R249). -/
def State.discardClassRecords (s : State) : State :=
  { s.tq.foldl
      (fun s r =>
        if r.ep ≠ 0 && pp s.cfg r.ep r.dir then s.setEps r.ep r.dir { s.epsAt r.ep r.dir with last := r.slot }
        else s) s with
    tq := s.tq.filter fun r => r.ep = 0 }

/-- `ReinitEndpoints()` (R249). -/
def State.reinitEndpoints (s : State) : State :=
  let s := s.discardClassRecords
  let s := { s with eps := s.eps.map fun e => { e with toggle := false, halt := false } }
  ((endpoints s.cfg).filter (· ≠ 0)).foldl
    (fun s ep => (s.overSlots ep .out Bd.returned).overSlots ep .inn Bd.returned) s

/-- The configuration SET_CONFIGURATION(n) puts into effect (R226). -/
def State.configured (s : State) (n : Byte) : State :=
  { s.reinitEndpoints with
    config := n
    devState := if n ≠ 0 then .configured else .address
    epen := if n ≠ 0 then 1 ||| cfgEps s.cfg n else 1 }

/-- SET_CONFIGURATION (R226). -/
def stdSetConfiguration (t : Byte) (v i l : Half) (s : State) : Res Bool :=
  let n := lowByte v
  if d2h t || recipient t ≠ 0 || i ≠ 0 || l ≠ 0 || highByte v ≠ 0 then reject s
  else if s.cfg.numConfig < n.toNat then reject s
  else if s.devState ≠ .address ∧ s.devState ≠ .configured then reject s
  else (notifyHook s.cfg.hooks.config (.hookConfig n) (s.configured n)).bind fun _ s => accept s

/-- GET_INTERFACE (R228). -/
def stdGetInterface (t : Byte) (v i l : Half) (s : State) : Res Bool :=
  if !d2h t || recipient t ≠ 1 || v ≠ 0 || !ifOk s i then reject s
  else answerScratch [0x00] l s

/-- SET_INTERFACE (R230): alternate setting 0 only. -/
def stdSetInterface (t : Byte) (v i l : Half) (s : State) : Res Bool :=
  if d2h t || recipient t ≠ 1 || l ≠ 0 || !ifOk s i then reject s
  else if v ≠ 0 then reject s
  else accept s

/-- SYNCH_FRAME (R232): recognised and rejected. -/
def stdSynchFrame (_ : Byte) (_ _ _ : Half) (s : State) : Res Bool := reject s

/-- The end of `Dispatch` (R175): a rejected request is a request error; an accepted one whose stage is
still SETUP has its status armed. -/
def conclude (cause : ErrorCause) (ok : Bool) (s : State) : Res Unit :=
  if !ok then .ok () (s.requestError cause)
  else if s.ctx.stage = .setup then
    (armStatusOp .inn s).bind fun _ s => .ok () { s with ctx := { s.ctx with stage := .statusIn } }
  else .ok () s

/-- A standard request: its handler, then the conclusion of `Dispatch` (R175, log 21). -/
def serve (handler : State → Res Bool) (s : State) : Res Unit :=
  (handler s).bind (conclude .rejected)

/-- The request GET_STATUS (R212). -/
def execGetStatus (t : Byte) (v i l : Half) (s : State) : Host.Outcome State Fault Refusal :=
  (serve (stdGetStatus t v i l) s).toOutcome

/-- The request CLEAR_FEATURE (R214). -/
def execClearFeature (t : Byte) (v i l : Half) (s : State) : Host.Outcome State Fault Refusal :=
  (serve (stdClearFeature t v i l) s).toOutcome

/-- The request SET_FEATURE (R216). -/
def execSetFeature (t : Byte) (v i l : Half) (s : State) : Host.Outcome State Fault Refusal :=
  (serve (stdSetFeature t v i l) s).toOutcome

/-- The request SET_ADDRESS (R218). -/
def execSetAddress (t : Byte) (v i l : Half) (s : State) : Host.Outcome State Fault Refusal :=
  (serve (stdSetAddress t v i l) s).toOutcome

/-- The request GET_DESCRIPTOR (R220). -/
def execGetDescriptor (t : Byte) (v i l : Half) (s : State) : Host.Outcome State Fault Refusal :=
  (serve (stdGetDescriptor t v i l) s).toOutcome

/-- The request SET_DESCRIPTOR (R222). -/
def execSetDescriptor (t : Byte) (v i l : Half) (s : State) : Host.Outcome State Fault Refusal :=
  (serve (stdSetDescriptor t v i l) s).toOutcome

/-- The request GET_CONFIGURATION (R224). -/
def execGetConfiguration (t : Byte) (v i l : Half) (s : State) : Host.Outcome State Fault Refusal :=
  (serve (stdGetConfiguration t v i l) s).toOutcome

/-- The request SET_CONFIGURATION (R226). -/
def execSetConfiguration (t : Byte) (v i l : Half) (s : State) : Host.Outcome State Fault Refusal :=
  (serve (stdSetConfiguration t v i l) s).toOutcome

/-- The request GET_INTERFACE (R228). -/
def execGetInterface (t : Byte) (v i l : Half) (s : State) : Host.Outcome State Fault Refusal :=
  (serve (stdGetInterface t v i l) s).toOutcome

/-- The request SET_INTERFACE (R230). -/
def execSetInterface (t : Byte) (v i l : Half) (s : State) : Host.Outcome State Fault Refusal :=
  (serve (stdSetInterface t v i l) s).toOutcome

/-- The request SYNCH_FRAME (R232). -/
def execSynchFrame (t : Byte) (v i l : Half) (s : State) : Host.Outcome State Fault Refusal :=
  (serve (stdSynchFrame t v i l) s).toOutcome

end Sys2Proof.Machine
end

