-- ==== Sys2Proof/Machine/Service.lean ====
section
/-! DEFINITION. `Dispatch` (R175), `CtSetup` (R174), `CtEvent` (R172), the servicing arms (R248 to R253) and
SERVICE (R242). -/

namespace Sys2Proof.Machine

/-- The handler that `StdRequest` selects (R210); the operations that are no standard request have none. -/
def stdRequest (i : Instr) : Option (State → Res Bool) :=
  match i with
  | .getStatus t v i l => some (stdGetStatus t v i l)
  | .clearFeature t v i l => some (stdClearFeature t v i l)
  | .setFeature t v i l => some (stdSetFeature t v i l)
  | .setAddress t v i l => some (stdSetAddress t v i l)
  | .getDescriptor t v i l => some (stdGetDescriptor t v i l)
  | .setDescriptor t v i l => some (stdSetDescriptor t v i l)
  | .getConfiguration t v i l => some (stdGetConfiguration t v i l)
  | .setConfiguration t v i l => some (stdSetConfiguration t v i l)
  | .getInterface t v i l => some (stdGetInterface t v i l)
  | .setInterface t v i l => some (stdSetInterface t v i l)
  | .synchFrame t v i l => some (stdSynchFrame t v i l)
  | .init | .service | .shutdown | .getState | .getConfig | .setStage _ _ _ | .armEp _ _ _ _ _ _
  | .armEp0In _ | .armStatus _ | .stallEp _ _ | .xferRom _ _ _ | .xferRam _ _ _
  | .arm _ _ _ _ _ _ _ _ | .armOut _ _ _ _ _ | .armIn _ _ _ _ _ | .clearStall _ _
  | .svcRst | .svcIdle | .svcAct | .svcSof | .svcTrn
  | .tokOut _ _ _ _ | .tokIn _ _ _ | .tokSetup _ _ _
  | .busReset | .busIdle | .busActivity | .busSof => none

/-- A request that is not standard goes to HOOK_REQ, if it is present (R104, R175). -/
def classRequest (s : State) : Res Unit :=
  if s.cfg.hooks.req then (callHook (.hookReq s.setup) s).bind (conclude .unhandled)
  else conclude .unhandled false s

/-- `Dispatch()` (R175). -/
def dispatch (s : State) : Res Unit :=
  match decodeReq s.setup with
  | .error _ => classRequest s
  | .ok i =>
    match stdRequest i with
    | some handler => serve handler s
    | none => classRequest s

/-- The 8 bytes at `EP0_BUF` as the latch reads them (R35, R78, R100). -/
def State.latchSetup (s : State) : State :=
  let m := fun k => s.ram.read (s.cfg.ep0Buf.toNat + k)
  { s with setup := m 7 ++ m 6 ++ m 5 ++ m 4 ++ m 3 ++ m 2 ++ m 1 ++ m 0 }

/-- `CtSetup(rec, count)` (R174). -/
def ctSetup (count : BitVec 10) (s : State) : Res Unit :=
  let s := s.setupPrologue
  (if count ≠ 8 then .ok () (s.requestError .setupLen) else dispatch s.latchSetup).bind fun _ s =>
    (ep0OutRearm true s).bind fun _ s => .ok () { s with setupHold := false }

/-- An early status (R172): the host ends the data stage, so EP0 IN is reclaimed. -/
def earlyStatus (s : State) : Res Unit :=
  ep0OutRearm false (s.overSlots 0 .inn Bd.disowned).destroyCtx

/-- `CtEvent(rec, count)` (R172). -/
def ctEvent (rec : Completion) (count : BitVec 10) (s : State) : Res Unit :=
  if rec.dir = .out && rec.setup then ctSetup count s
  else if s.setupHold then .ok () s
  else
    match s.ctx.stage, rec.dir with
    | .idle, .inn => .ok () s
    | .idle, .out => ep0OutRearm false s
    | .setup, .inn => .ok () s
    | .setup, .out => ep0OutRearm false s
    | .dataIn, .inn => ctInStep s
    | .dataIn, .out => earlyStatus s
    | .dataOut, .inn => .ok () s
    | .dataOut, .out => ctOutData count s
    | .statusIn, .inn => .ok () s.statusDone
    | .statusIn, .out => ep0OutRearm false s
    | .statusOut, .inn => .ok () s
    | .statusOut, .out => ep0OutRearm false s.destroyCtx

/-- The assignments of SVC_RST before EP0 OUT is armed (R248, R50). -/
def State.busResetValues (s : State) : State :=
  { s.clearEndpoints with
    config := 0
    ctx := Ctx.destroyed
    setup := 0
    devAddr := 0
    newAddr := 0
    addrPending := false
    devState := .default
    suspended := false
    epen := 0x0001
    tq := []
    setupHold := false
    ir := IrFlags.none }

/-- SVC_RST (R248). -/
def svcRstOp (s : State) : Res Unit :=
  let s := s.busResetValues
  armOutOp false false 0 s.cfg.ep0Buf (.ofNat 16 (mps0 s.cfg)) s

/-- SVC_IDLE (R250). -/
def svcIdleOp (s : State) : Res Unit :=
  notifyHook s.cfg.hooks.idle .hookIdle { s with suspended := true }

/-- SVC_ACT (R251). -/
def svcActOp (s : State) : Res Unit :=
  (notifyHook (s.suspended && s.cfg.hooks.resume) .hookResume { s with suspended := false }).bind fun _ s =>
    notifyHook s.cfg.hooks.activity .hookActivity s

/-- SVC_SOF (R252). -/
def svcSofOp (s : State) : Res Unit := notifyHook s.cfg.hooks.sof .hookSof s

/-- SVC_TRN (R253); with an empty queue there is no record to serve (log 19). -/
def svcTrnOp (s : State) : Res Unit :=
  match s.tq with
  | [] => .ok () s
  | rec :: rest =>
    let (count, s) := onComplete rec.ep rec.dir rec.slot { s with tq := rest }
    if rec.ep = 0 then ctEvent rec count s
    else notifyHook s.cfg.hooks.trn (.hookTrn rec.ep rec.dir rec.slot count) s

/-- The arms of one SERVICE in the order of R244; a flag is cleared before its arm runs (R246). -/
def serviceArms (s : State) : Res Unit :=
  if s.ir.rst then svcRstOp s
  else
    (Res.when s.ir.idle (fun s => svcIdleOp { s with ir := { s.ir with idle := false } }) s).bind fun _ s =>
    (Res.when s.ir.act (fun s => svcActOp { s with ir := { s.ir with act := false } }) s).bind fun _ s =>
    (Res.when s.ir.sof (fun s => svcSofOp { s with ir := { s.ir with sof := false } }) s).bind fun _ s =>
    Res.when (s.tq ≠ []) svcTrnOp s

/-- `BUSY <- 0` at the end of a SERVICE, also of one that a fault ends (R242, R303). -/
def Res.endService : Res Unit → Res Unit
  | .ok _ s => .ok () { s with busy := false }
  | .raised s => .raised { s with busy := false }

/-- SERVICE (R242), refused while a SERVICE is in progress (R243). -/
def serviceOp (s : State) : Res Unit :=
  if s.busy then s.raise .reentry
  else if !s.usbEn || s.devState = .detached then .ok () s
  else (serviceArms { s with busy := true }).endService

/-- The command SERVICE (R242). -/
def execService (s : State) : Host.Outcome State Fault Refusal := (serviceOp s).toOutcome

/-- The servicing arm SVC_RST (R248). -/
def execSvcRst (s : State) : Host.Outcome State Fault Refusal := (svcRstOp s).toOutcome

/-- The servicing arm SVC_IDLE (R250). -/
def execSvcIdle (s : State) : Host.Outcome State Fault Refusal := (svcIdleOp s).toOutcome

/-- The servicing arm SVC_ACT (R251). -/
def execSvcAct (s : State) : Host.Outcome State Fault Refusal := (svcActOp s).toOutcome

/-- The servicing arm SVC_SOF (R252). -/
def execSvcSof (s : State) : Host.Outcome State Fault Refusal := (svcSofOp s).toOutcome

/-- The servicing arm SVC_TRN (R253). -/
def execSvcTrn (s : State) : Host.Outcome State Fault Refusal := (svcTrnOp s).toOutcome

end Sys2Proof.Machine
end

