-- ==== Sys2Proof/Machine/Dispatch.lean ====
section
/-! DEFINITION. The meaning of each instruction, one arm per constructor. -/

namespace Sys2Proof.Machine

def exec (i : Instr) (s : State) : Host.Outcome State Fault Refusal :=
  match i with
  | .init => Sys2Proof.Machine.execInit s
  | .service => Sys2Proof.Machine.execService s
  | .shutdown => Sys2Proof.Machine.execShutdown s
  | .getState => Sys2Proof.Machine.execGetState s
  | .getConfig => Sys2Proof.Machine.execGetConfig s
  | .setStage stage dst count => Sys2Proof.Machine.execSetStage stage dst count s
  | .armEp keep toi ep dir buf n => Sys2Proof.Machine.execArmEp keep toi ep dir buf n s
  | .armEp0In count => Sys2Proof.Machine.execArmEp0In count s
  | .armStatus dir => Sys2Proof.Machine.execArmStatus dir s
  | .stallEp ep dir => Sys2Proof.Machine.execStallEp ep dir s
  | .xferRom src avail req => Sys2Proof.Machine.execXferRom src avail req s
  | .xferRam src avail req => Sys2Proof.Machine.execXferRam src avail req s
  | .arm keep toi ep dir slot tgl buf cnt => Sys2Proof.Machine.execArm keep toi ep dir slot tgl buf cnt s
  | .armOut keep toi ep buf max => Sys2Proof.Machine.execArmOut keep toi ep buf max s
  | .armIn keep toi ep buf count => Sys2Proof.Machine.execArmIn keep toi ep buf count s
  | .clearStall ep dir => Sys2Proof.Machine.execClearStall ep dir s
  | .getStatus t v x l => Sys2Proof.Machine.execGetStatus t v x l s
  | .clearFeature t v x l => Sys2Proof.Machine.execClearFeature t v x l s
  | .setFeature t v x l => Sys2Proof.Machine.execSetFeature t v x l s
  | .setAddress t v x l => Sys2Proof.Machine.execSetAddress t v x l s
  | .getDescriptor t v x l => Sys2Proof.Machine.execGetDescriptor t v x l s
  | .setDescriptor t v x l => Sys2Proof.Machine.execSetDescriptor t v x l s
  | .getConfiguration t v x l => Sys2Proof.Machine.execGetConfiguration t v x l s
  | .setConfiguration t v x l => Sys2Proof.Machine.execSetConfiguration t v x l s
  | .getInterface t v x l => Sys2Proof.Machine.execGetInterface t v x l s
  | .setInterface t v x l => Sys2Proof.Machine.execSetInterface t v x l s
  | .synchFrame t v x l => Sys2Proof.Machine.execSynchFrame t v x l s
  | .svcRst => Sys2Proof.Machine.execSvcRst s
  | .svcIdle => Sys2Proof.Machine.execSvcIdle s
  | .svcAct => Sys2Proof.Machine.execSvcAct s
  | .svcSof => Sys2Proof.Machine.execSvcSof s
  | .svcTrn => Sys2Proof.Machine.execSvcTrn s
  | .tokOut addr ep tgl data => Sys2Proof.Machine.execTokOut addr ep tgl data s
  | .tokIn addr ep ack => Sys2Proof.Machine.execTokIn addr ep ack s
  | .tokSetup addr ep data => Sys2Proof.Machine.execTokSetup addr ep data s
  | .busReset => Sys2Proof.Machine.execBusReset s
  | .busIdle => Sys2Proof.Machine.execBusIdle s
  | .busActivity => Sys2Proof.Machine.execBusActivity s
  | .busSof => Sys2Proof.Machine.execBusSof s

end Sys2Proof.Machine
end

