-- ==== Sys2Proof/Machine/Run.lean ====
section
/-! DEFINITION. What one element of the schedule does (R355): a command word (R96), a bus-side event (R106), a
CLASS store to RAM or to the register block (R45, R47), the harness's interrupt enable (R308); and how the host's
words are placed where the next step runs them (logs 8, 9). -/

namespace Sys2Proof.Machine

/-- Execution of a command word (R96): `CMD` holds the word; the re-entry check comes before the decode
(R305); an operation that is performed starts with `RESP = 0`. -/
def runCommand (w : Word64) (s : State) : Host.Outcome State Fault Refusal :=
  let s := { s with cmd := w }
  if s.busy && reentrantOpcode w then .next (s.faulted .reentry)
  else
    match decodeCmd w with
    | .error _ => .next (s.faulted .badcmd)
    | .ok i => exec i { s with resp := 0x0000 }

/-- A bus-side event (R106); code 7 is reserved and "never generated" (log 14). -/
def runBus (r : BusRecord) (s : State) : Host.Outcome State Fault Refusal :=
  match decodeBus r with
  | .error _ => .refused .reservedBusCode
  | .ok i => exec i s

/-- Byte `k` of the command register replaced (R45, R62). -/
def setCmdByte (w : Word64) (k : Nat) (v : Byte) : Word64 :=
  (w &&& ~~~((0xFF : Word64) <<< (8 * k))) ||| (v.setWidth 64 <<< (8 * k))

/-- A CLASS store to REG (R45, R47, R60): a byte of `CMD` is written, and its top byte executes the word;
a store to a read-only register is ignored; no other address of REG exists (log 12). -/
def storeCsr (a : Half) (v : Byte) (s : State) : Host.Outcome State Fault Refusal :=
  if a.toNat < s.cfg.csrBase.toNat ∨ s.cfg.csrBase.toNat + 0x42 ≤ a.toNat then .fault .registerOutsideBlock
  else
    let off := a.toNat - s.cfg.csrBase.toNat
    if off < 0x18 ∨ 0x20 ≤ off then .next s
    else
      let w := setCmdByte s.cmd (off - 0x18) v
      if off = 0x1F then runCommand w s else .next { s with cmd := w }

/-- One element of the schedule (R355). -/
def runInput (x : Input) (s : State) : Host.Outcome State Fault Refusal :=
  match x with
  | .cmd w => runCommand w s
  | .bus r => runBus r s
  | .mem a v => .next { s with ram := s.ram.write a.toNat v }
  | .csr a v => storeCsr a v s
  | .setIe b => .next { s with usbie := b }

/-- The state in which the next element runs: it is off the schedule, and the outputs of the last step are
gone (R356). -/
def State.begin (s : State) (rest : List Input) : State :=
  { s with sched := rest, response := none, trace := [] }

/-- The SERVICE word (R274). -/
def serviceWord : Word64 := 0x0800000000000000

/-- The next element of the schedule. -/
def State.withInput (s : State) (x : Input) : State := { s with sched := x :: s.sched }

/-- A SERVICE that runs exactly one servicing arm: the block is enabled and no other flag is pending
(R105, R242; log 9). -/
def State.withArm (s : State) (ir : IrFlags) (tq : List Completion) : State :=
  { s.withInput (.cmd serviceWord) with
    usbEn := true
    devState := if s.devState = .detached then .powered else s.devState
    busy := false
    ir := ir
    tq := tq }

/-- The completion of a SETUP transaction on EP0 OUT, which was armed for a packet of any size (R188). -/
def setupRecord (c : Params) : Completion := ⟨0, .out, .even, true, c.ep0Buf, .ofNat 10 (mps0 c)⟩

/-- A SERVICE that dispatches the setup packet `sp`: ENG has received its 8 bytes in `EP0_BUF` with the
descriptor `BD[0][OUT][EVEN]` and reported them (R287, R174; log 9). -/
def State.withSetup (s : State) (sp : Word64) : State :=
  let ready : DevState → DevState := fun
    | .detached | .attached | .powered => .default
    | .default => .default
    | .address => .address
    | .configured => .configured
  let s := { s.withArm IrFlags.none [setupRecord s.cfg] with devState := ready s.devState, setupHold := true }
  { s with
    ram := s.ram.writeBytes s.cfg.ep0Buf.toNat ((List.range 8).map (byteOf sp)) }.writeBd 0 .out .even
      { own := false, dts := false, keep := false, toi := false, stall := false, cnt := 8,
        addr := s.cfg.ep0Buf }

/-- An encoded form placed so that the next step runs its instruction (log 9). -/
def State.place (s : State) : Code → State
  | .cmd w => { s.withInput (.cmd w) with busy := false }
  | .bus r => s.withInput (.bus r)
  | .req sp => s.withSetup sp
  | .evt ir =>
    s.withArm ⟨ir.getLsbD 0, ir.getLsbD 1, ir.getLsbD 2, ir.getLsbD 3⟩
      (if ir.getLsbD 4 then [setupRecord s.cfg] else [])

end Sys2Proof.Machine
end

