-- ==== Sys2Proof/Machine/Step.lean ====
section
/-! DEFINITION. One step of a model: one element of the schedule (R75, R355), and the host's placing of an
instruction where the next step runs it. -/

namespace Sys2Proof.Machine

/-- One step. A run ends when its schedule ends (R357): then nothing changes. -/
def step (s : State) : Host.Outcome State Fault Refusal :=
  match s.sched with
  | [] => .next s
  | x :: rest => runInput x (s.begin rest)

/-- The state whose next step runs the instruction of the word `w` of the opcode table's numbering (logs 8
to 10). -/
def State.withFetchWord (s : State) (nbits w : Nat) : State := s.place (tableCode nbits w)

end Sys2Proof.Machine
end

