-- ==== Sys2Proof/Safety.lean ====
section
/-! DEFINITION. What counts as an acceptable run (R303, R312, R341, R355, R357), the invariant of the machine, and
the vocabulary of the statements: what an operation makes of a state `s` to give a state `t`, with its frame. -/

namespace Sys2Proof.Machine

/-- A state with `FAULT = 0`; every claim about in-contract runs has it as a premise (R303). -/
def State.faultFree (s : State) : Prop := s.fault = FaultBits.none

/-- A quiescent state: a SERVICE changes nothing (R357). -/
def State.quiescent (s : State) : Prop := s.irByte = 0 ∧ s.tq = [] ∧ s.busy = false

/-- A buffer `addr .. addr+n-1` holds the address `a` (R65). -/
abbrev inBuffer (addr : Half) (n : BitVec 10) (a : Nat) : Prop := addr.toNat ≤ a ∧ a < addr.toNat + n.toNat

/-- A RAM address CLASS must not store to now (R312, R341): the descriptor table; the EP0 buffer while EP0 OUT
is armed or a data stage runs; the scratch bytes during a data stage; and the buffer of a descriptor from its arming, while
ENG owns it (R9, R21, R23), until its completion is observed, while the record waits in `TQ` with the buffer it was armed
with (log 26). -/
abbrev State.guarded (s : State) (a : Nat) : Prop :=
  (s.cfg.bdtBase.toNat ≤ a ∧ a < s.cfg.bdtBase.toNat + 16 * s.cfg.nep) ∨
  (s.cfg.ep0Buf.toNat ≤ a ∧ a < s.cfg.ep0Buf.toNat + mps0 s.cfg ∧
    ((∃ slot ∈ slots s.cfg 0 .out, (s.bd 0 .out slot).own = true) ∨
      s.ctx.stage = .dataIn ∨ s.ctx.stage = .dataOut)) ∨
  (s.cfg.scratch.toNat ≤ a ∧ a < s.cfg.scratch.toNat + 2 ∧ s.ctx.stage = .dataIn) ∨
  (∃ ep ∈ endpoints s.cfg, ∃ dir ∈ [Dir.out, Dir.inn], ∃ slot ∈ slots s.cfg ep dir,
    (s.bd ep dir slot).own = true ∧ inBuffer (s.bd ep dir slot).addr (s.bd ep dir slot).cnt a) ∨
  ∃ r ∈ s.tq, inBuffer r.addr r.armed a

/-- A word that is SERVICE is issued in contract: `BUSY = 0` and, with `DRIVE = INTERRUPT`, `USBIF = 1` and
`USBIE = 1` (R308, R355). -/
def State.mayService (s : State) (w : Word64) : Prop :=
  decodeCmd w = .ok .service →
    s.busy = false ∧ (s.cfg.drive = .interrupt → s.usbif = true ∧ s.usbie = true)

/-- A schedule element in contract at a state (R355): a CLASS store respects R312 and R341, a SERVICE respects
R308, and a bus-side event is one the HOST can cause (log 26). -/
def State.inContract (s : State) : Input → Prop
  | .cmd w => s.mayService w
  | .mem a _ => ¬ s.guarded a.toNat
  | .bus r => r.code ≠ 7
  | .csr a v => a.toNat = s.cfg.csrBase.toNat + 0x1F → s.mayService (setCmdByte s.cmd 7 v)
  | .setIe _ => True

/-! ### Runs (R355) -/

/-- One outcome after another. -/
def andThen (o : Host.Outcome State Fault Refusal) (f : State → Host.Outcome State Fault Refusal) :
    Host.Outcome State Fault Refusal :=
  match o with
  | .next t => f t
  | .fault r => .fault r
  | .refused r => .refused r

/-- The schedule of a run, finite or infinite (R355): its element at each place, none where it has ended. -/
abbrev Schedule := Nat → Option Input

/-- The hook oracle of a run (R262): its answers to the calls of each step, chosen from the state in which the step
begins; CTRL is deterministic, so that state decides every later one that a hook of the step can look at. -/
abbrev HookOracle := Nat → State → List HookAnswer

/-- The first `n` steps of a run from `s` (R355, R357): each runs one element of the schedule, with the oracle's answers. -/
def runSteps (sched : Schedule) (oracle : HookOracle) (s : State) : Nat → Host.Outcome State Fault Refusal
  | 0 => .next s
  | n + 1 => andThen (runSteps sched oracle s n) fun t =>
    match sched n with
    | none => .next t
    | some x => step { t with sched := [x], hookTape := oracle n t }

/-- A schedule in contract (R355): each element is, in the state in which its step begins. -/
def Schedule.inContract (sched : Schedule) (oracle : HookOracle) (s : State) : Prop :=
  ∀ n t x, runSteps sched oracle s n = .next t → sched n = some x → t.inContract x

/-! ### The invariant -/

/-- The states in which tokens and setup packets are served (R211, R284). -/
def DevState.active (d : DevState) : Prop := d = .default ∨ d = .address ∨ d = .configured

/-- The slot of the newest transaction reported on `(ep, dir)`: that of the last queued record, else
`EPS.last` (R42). -/
def State.newestSlot (s : State) (ep : BitVec 4) (dir : Dir) : Slot :=
  s.tq.foldl (fun last r => if r.ep = ep ∧ r.dir = dir then r.slot else last) (s.epsAt ep dir).last

/-- What holds in every state between steps, from whatever state of this kind a run starts. -/
structure State.Inv (s : State) : Prop where
  /-- The parameters are in range (R8, R63, R66, R67). -/
  params : s.cfg.wf
  /-- RAM is canonical. -/
  ram : s.ram.wf
  /-- ROM is canonical. -/
  rom : s.rom.wf
  /-- Between commands `BUSY` is 0 (R46). -/
  busy : s.busy = false
  /-- `TQ` never overflows (R41, R290). -/
  queue : s.tq.length ≤ s.cfg.tqDepth
  /-- Records name endpoints below `NEP`, and slot ODD only where it is in use (R21, R41, R285). -/
  records : ∀ r ∈ s.tq, r.ep.toNat < s.cfg.nep ∧ r.slot ∈ slots s.cfg r.ep r.dir
  /-- A completion was reported in an active state (R284). -/
  active : s.tq ≠ [] → s.devState.active
  /-- Bits `NEP` and above of `EPEN` are 0 (R33). -/
  enables : ∀ i, s.cfg.nep ≤ i → s.epen.getLsbD i = false
  /-- Attached is never observable between commands (R271). -/
  attached : s.devState ≠ .attached
  /-- The block is enabled exactly when it is not Detached (R240, R256). -/
  enabled : s.usbEn = true ↔ s.devState ≠ .detached
  /-- A configuration is active exactly in Configured (R31, R226). -/
  configured : s.config ≠ 0 ↔ s.devState = .configured
  /-- The bus address is not 0 exactly in Address and Configured (R182, R218, R226). -/
  address : s.devAddr ≠ 0 ↔ s.devState = .address ∨ s.devState = .configured
  /-- An address is pending only in Default or Address (R218). -/
  pending : s.addrPending = true → s.devState = .default ∨ s.devState = .address
  /-- ENG's slot pointer is the complement of the newest reported slot (R42). -/
  pointers : ∀ ep dir, pp s.cfg ep dir = true → s.engSlotBit ep dir = (s.newestSlot ep dir).other

/-- The moves of `DEVSTATE` that the table of R270 allows, INIT and SHUTDOWN among them. -/
def DevState.mayBecome (a b : DevState) : Prop :=
  b = a ∨ b = .powered ∨ b = .detached ∨ (b = .default ∧ a ≠ .detached) ∨
    (a = .default ∧ b = .address) ∨ (a = .address ∧ b = .configured) ∨ (a = .configured ∧ b = .address)

/-! ### The vocabulary of the statements -/

/-- Every byte outside `a .. a+n-1` reads as before. -/
def KeptOutside (s t : State) (a n : Nat) : Prop :=
  ∀ x, x < a ∨ a + n ≤ x → t.ram.read x = s.ram.read x

/-- Every endpoint record but that of `(ep, dir)` is as before. -/
def OtherEps (s t : State) (ep : BitVec 4) (dir : Dir) : Prop :=
  ∀ ep' dir', ¬ (ep' = ep ∧ dir' = dir) → t.epsAt ep' dir' = s.epsAt ep' dir'

/-- The operand checks of R130 and R65 find nothing wrong. -/
def OperandsOk (c : Params) (ep : BitVec 4) (dir : Dir) (slot : Slot) (buf n : Half) : Prop :=
  ep.toNat < c.nep ∧ (slot = .odd → pp c ep dir = true) ∧ n.toNat ≤ mps c ep dir ∧
    (n.toNat = 0 ∨ buf.toNat + n.toNat ≤ 0x10000)

/-- `t` is `s` with one descriptor armed (R131): its four bytes and the recorded toggle, nothing else. -/
def ArmedFrom (s t : State) (keep toi : Bool) (ep : BitVec 4) (dir : Dir) (slot : Slot) (tgl : Bool)
    (buf n : Half) : Prop :=
  t = { s with ram := t.ram, eps := t.eps } ∧
  t.bd ep dir slot =
    { own := true, dts := tgl, keep := keep, toi := toi, stall := false, cnt := n.setWidth 10, addr := buf } ∧
  t.epsAt ep dir = { s.epsAt ep dir with toggle := tgl } ∧
  OtherEps s t ep dir ∧ KeptOutside s t (bdAddr s.cfg ep dir slot) 4

/-- The three outcomes of an arming (R131): `BADPARAM` before `DARM` before the writes (R305); a fault
changes nothing but `FAULT` and `RESP`. -/
def ArmOutcome (s : State) (o : Host.Outcome State Fault Refusal) (keep toi : Bool) (ep : BitVec 4) (dir : Dir)
    (slot : Slot) (tgl : Bool) (buf n : Half) : Prop :=
  (¬ OperandsOk s.cfg ep dir slot buf n →
    o = .next { s with fault := { s.fault with badparam := true }, resp := 0xFFFF }) ∧
  (OperandsOk s.cfg ep dir slot buf n → (s.bd ep dir slot).own = true →
    o = .next { s with fault := { s.fault with darm := true }, resp := 0xFFFF }) ∧
  (OperandsOk s.cfg ep dir slot buf n → (s.bd ep dir slot).own = false →
    ∃ t, o = .next t ∧ ArmedFrom s t keep toi ep dir slot tgl buf n)

/-- The part of `t` that STALL_EP writes (R139). -/
def StalledFrom (s t : State) (ep : BitVec 4) (dir : Dir) : Prop :=
  t.epsAt ep dir = { s.epsAt ep dir with halt := true } ∧ OtherEps s t ep dir ∧
  (∀ slot ∈ slots s.cfg ep dir, t.bd ep dir slot =
    { s.bd ep dir slot with own := true, keep := false, toi := false, stall := true }) ∧
  ∀ x, (∀ slot ∈ slots s.cfg ep dir, x ≠ bdAddr s.cfg ep dir slot) → t.ram.read x = s.ram.read x

/-- `t` is `s` after a request error (R186, R302): EP0 IN stalled, the context destroyed, the label in the
trace, nothing else. -/
def RequestErrorFrom (s t : State) (cause : ErrorCause) : Prop :=
  t = { s with
    ram := t.ram, eps := t.eps, ctx := ⟨.idle, 0, 0, .rom, false, 0⟩
    trace := s.trace ++ [TraceItem.requestError cause] } ∧
  StalledFrom s t 0 .inn

/-- `t` is `s` after `Ep0OutRearm` (R188): nothing when EP0 OUT is armed, else armed for `MPS0` bytes. -/
def RearmedFrom (s t : State) (force : Bool) : Prop :=
  ((s.bd 0 .out (s.nextSlot 0 .out)).own = true → t = s) ∧
  ((s.bd 0 .out (s.nextSlot 0 .out)).own = false →
    ArmedFrom s t false false 0 .out (s.nextSlot 0 .out) (force || (s.epsAt 0 .out).toggle) s.cfg.ep0Buf
      (.ofNat 16 (mps0 s.cfg)))

/-- `t` is `s` with the status stage of a request without data armed (R175, R183): a zero-length DATA1 packet
on EP0 IN and stage STATUS_IN. -/
def StatusArmedFrom (s t : State) : Prop :=
  t = { s with ram := t.ram, eps := t.eps, ctx := { s.ctx with stage := .statusIn } } ∧
  t.bd 0 .inn (s.nextSlot 0 .inn) = ⟨true, true, false, false, false, 0, s.cfg.ep0Buf⟩ ∧
  t.epsAt 0 .inn = { s.epsAt 0 .inn with toggle := true } ∧
  OtherEps s t 0 .inn ∧ KeptOutside s t (bdAddr s.cfg 0 .inn (s.nextSlot 0 .inn)) 4

/-- The state in which `Dispatch` runs a handler (R174): stage SETUP, EP0 IN reclaimed. -/
def State.serving (s : State) : Prop :=
  s.cfg.wf ∧ s.ctx.stage = .setup ∧ (s.bd 0 .inn (s.nextSlot 0 .inn)).own = false

/-- The `k` bytes at `EP0_BUF` that one chunk stages from `src` (R178): each is the source byte, as the copy itself
has left it where the source runs into the bytes already staged (R67), and a free value past the top of memory (log 11). -/
def StagedFrom (s t : State) (kind : Kind) (src k : Nat) : Prop :=
  ∀ i < k, t.ram.read (s.cfg.ep0Buf.toNat + i) =
    if kind = .ram ∧ s.cfg.ep0Buf.toNat ≤ src + i ∧ src + i < s.cfg.ep0Buf.toNat + i
    then t.ram.read (src + i) else srcByte s.rom s.ram kind s.draws (src + i)

/-- `t` is `s` with one chunk of `k` bytes staged and armed on EP0 IN with toggle `tgl` (R178); the context
is said apart. `draws` moves only for a chunk that passes the top of memory (log 11). -/
def ChunkArmedFrom (s t : State) (kind : Kind) (src k : Nat) (tgl : Bool) : Prop :=
  t = { s with ram := t.ram, eps := t.eps, ctx := t.ctx, draws := s.drawsAfter src k } ∧
  StagedFrom s t kind src k ∧
  t.bd 0 .inn (s.nextSlot 0 .inn) = ⟨true, tgl, false, false, false, .ofNat 10 k, s.cfg.ep0Buf⟩ ∧
  t.epsAt 0 .inn = { s.epsAt 0 .inn with toggle := tgl } ∧ OtherEps s t 0 .inn ∧
  ∀ x, (x < s.cfg.ep0Buf.toNat ∨ s.cfg.ep0Buf.toNat + k ≤ x) →
    (x < bdAddr s.cfg 0 .inn (s.nextSlot 0 .inn) ∨ bdAddr s.cfg 0 .inn (s.nextSlot 0 .inn) + 4 ≤ x) →
    t.ram.read x = s.ram.read x

/-- The XFER command of a source space (R176, R177). -/
def xferInstr (kind : Kind) (src avail req : Half) : Instr :=
  match kind with
  | .rom => .xferRom src avail req
  | .ram => .xferRam src avail req

/-- The context of an XFER once its first packet is staged (R176, R178). -/
def xferCtx (s : State) (kind : Kind) (src avail req : Half) : Ctx :=
  let n := min avail.toNat req.toNat
  let k := min n (mps0 s.cfg)
  { stage := .dataIn, remaining := .ofNat 16 (n - k), src := .ofNat 16 (src.toNat + k), kind := kind
    zlp := (n = 0 || (n % mps0 s.cfg = 0 && n < req.toNat)) && k = mps0 s.cfg, dst := s.ctx.dst }

/-- `t` is `s` after an XFER that found nothing wrong (R176): the first packet armed with DATA1, the context set up
and moved past it. -/
def XferFrom (s t : State) (kind : Kind) (src avail req : Half) : Prop :=
  ChunkArmedFrom s t kind src.toNat (min (min avail.toNat req.toNat) (mps0 s.cfg)) true ∧
  t.ctx = xferCtx s kind src avail req ∧ t.draws = s.draws

/-- `t` is `s` after a request that answers with at most 2 bytes from `SCRATCH` (R212, R224, R228): they are written
there, and the first `min(len, L)` of them armed on EP0 IN as one DATA1 packet. -/
def ReplyFrom (s t : State) (bytes : List Byte) (l : Half) : Prop :=
  let n := min bytes.length l.toNat
  t = { s with
    ram := t.ram, eps := t.eps
    ctx := ⟨.dataIn, 0, s.cfg.scratch + .ofNat 16 n, .ram, false, s.ctx.dst⟩ } ∧
  (∀ i < n, t.ram.read (s.cfg.ep0Buf.toNat + i) = bytes.getD i 0) ∧
  (∀ i < bytes.length, t.ram.read (s.cfg.scratch.toNat + i) = bytes.getD i 0) ∧
  t.bd 0 .inn (s.nextSlot 0 .inn) = ⟨true, true, false, false, false, .ofNat 10 n, s.cfg.ep0Buf⟩ ∧
  t.epsAt 0 .inn = { s.epsAt 0 .inn with toggle := true } ∧ OtherEps s t 0 .inn ∧
  ∀ x, (x < s.cfg.ep0Buf.toNat ∨ s.cfg.ep0Buf.toNat + n ≤ x) →
    (x < s.cfg.scratch.toNat ∨ s.cfg.scratch.toNat + bytes.length ≤ x) →
    (x < bdAddr s.cfg 0 .inn (s.nextSlot 0 .inn) ∨ bdAddr s.cfg 0 .inn (s.nextSlot 0 .inn) + 4 ≤ x) →
    t.ram.read x = s.ram.read x

/-- The byte counts of the packets of a data stage that runs from `s` (R179): the packet armed now, then, while the
stage is DATA_IN, those that `CtInStep` arms after each IN completion. -/
def dataPackets : Nat → State → List Nat
  | 0, _ => []
  | fuel + 1, s =>
    if s.ctx.stage = .dataIn then
      (s.bd 0 .inn (s.nextSlot 0 .inn)).cnt.toNat ::
        (match ctInStep (s.overSlots 0 .inn Bd.disowned) with
        | .ok _ t => dataPackets fuel t
        | .raised _ => [])
    else []

/-- `t` is `s` with the elements that INIT, SHUTDOWN and bus-reset servicing share at their reset values
(R49); `USBEN`, `DEVSTATE`, `EPEN` and the table are said apart. -/
def RestartedFrom (s t : State) : Prop :=
  t = { s with
    ram := t.ram, eps := t.eps, engPp := t.engPp, usbEn := t.usbEn, devState := t.devState, epen := t.epen
    suspended := false, config := 0, devAddr := 0, newAddr := 0, addrPending := false, setup := 0
    ctx := ⟨.idle, 0, 0, .rom, false, 0⟩, ir := ⟨false, false, false, false⟩, tq := [], setupHold := false } ∧
  (∀ ep dir, t.epsAt ep dir = ⟨false, false, .odd⟩) ∧ (∀ ep dir, t.engSlotBit ep dir = .even)

/-- `t` is `s` after a packet was received into the descriptor `BD[ep][OUT][slot]` and reported (R286, R287): the bytes
in the buffer (those past the top of memory nowhere, log 11), the count, ownership and stall cleared, the pointer
flipped where double-buffered, the record pushed (with the armed buffer, the model's own part, log 26), ACK. -/
def ReceivedFrom (s t : State) (ep : BitVec 4) (slot : Slot) (setup : Bool) (data : List Byte) : Prop :=
  let b := s.bd ep .out slot
  t = { s with
    ram := t.ram, engPp := t.engPp, tq := s.tq ++ [⟨ep, .out, slot, setup, b.addr, b.cnt⟩]
    setupHold := s.setupHold || setup, response := some .ack } ∧
  (∀ i < data.length, b.addr.toNat + i < 0x10000 → t.ram.read (b.addr.toNat + i) = data.getD i 0) ∧
  t.bd ep .out slot = { b with own := false, stall := false, cnt := .ofNat 10 data.length } ∧
  (∀ x, (x < b.addr.toNat ∨ b.addr.toNat + data.length ≤ x) →
    (x < bdAddr s.cfg ep .out slot ∨ bdAddr s.cfg ep .out slot + 2 ≤ x) → t.ram.read x = s.ram.read x) ∧
  ∀ ep' dir', t.engSlotBit ep' dir' =
    if (ep' = ep ∧ dir' = .out) ∧ pp s.cfg ep .out = true then (s.engSlotBit ep .out).other
    else s.engSlotBit ep' dir'

/-- The bytes of RAM that a bus-side event may write in `s` (R283): for an accepted token that meets a hardware-owned
descriptor, the `STAT` byte of that descriptor, and for OUT and SETUP its count byte and its buffer `addr .. addr+cnt-1` as
far as the packet goes. -/
def State.engMayWrite (s : State) (i : Instr) (x : Nat) : Prop :=
  let onBd (addr : BitVec 7) (ep : BitVec 4) (dir : Dir) (len : Nat) : Prop :=
    let b := s.bd ep dir (s.engSlot ep dir)
    s.accepts addr ep = true ∧ b.own = true ∧
      (x = bdAddr s.cfg ep dir (s.engSlot ep dir) ∨ (dir = .out ∧ x = bdAddr s.cfg ep dir (s.engSlot ep dir) + 1) ∨
        (b.addr.toNat ≤ x ∧ x < b.addr.toNat + min len b.cnt.toNat))
  match i with
  | .tokOut addr ep _ data => onBd addr ep .out data.length
  | .tokSetup addr ep data => ep = 0 ∧ onBd addr ep .out data.length
  | .tokIn addr ep ack => ack = true ∧ onBd addr ep .inn 0
  | _ => False

end Sys2Proof.Machine
end

