-- ==== Sys2Proof/Certificates/Slice0/Obligations.lean ====
section
/-! DEFINITION. The statements for the provers. -/

open Sys2Proof Sys2Proof.Machine

/-! ### Encodings -/

/-- Every well-formed instruction, of all four formats, is read back from its encoding with every operand at every
value the encoding admits (R90 to R106). -/
def Obligations.DecodeEncode : Prop := ∀ i : Instr, i.wf = true → decode (encode i) = .ok i

/-- The other direction, for the three bit-packed formats: a word that decodes to `i` is the encoding of `i`, so no two
words mean the same instruction and no bit of a word is ignored (R93, R100, R105). -/
def Obligations.EncodeDecode : Prop :=
  (∀ w i, decodeCmd w = .ok i → i.wf = true ∧ encode i = .cmd w) ∧
  (∀ sp i, decodeReq sp = .ok i → i.wf = true ∧ encode i = .req sp) ∧
  (∀ ir i, decodeEvt ir = .ok i → i.wf = true ∧ encode i = .evt ir)

/-- A few words of every format, written out from the encodings of R91, R100, R105, R106. -/
def Obligations.DecodeSomeWords : Prop :=
  decodeCmd 0x401A028000080000 = .ok (.arm false false 1 .inn .even true 0x0280 0x0008) ∧
  decodeCmd 0x1800060000030007 = .ok (.setStage 3 0x0600 0x0007) ∧
  decodeCmd 0x4C10000000000000 = .ok (.clearStall 1 .out) ∧
  decodeReq 0x0040000001000680 = .ok (.getDescriptor 0x80 0x0100 0x0000 0x0040) ∧
  decodeReq 0x0000000000050500 = .ok (.setAddress 0x00 0x0005 0x0000 0x0000) ∧
  decodeEvt 0x10 = .ok .svcTrn ∧
  decodeBus ⟨1, 5, 0, false, [], true⟩ = .ok (.tokIn 5 0 true)

/-- R98: a reserved opcode, or a set bit outside the opcode's fields (bit 48 among them, R93), is illegal; an illegal
word sets `FAULT.BADCMD` and `RESP`, is held by `CMD`, and changes nothing else. -/
def Obligations.IllegalWords : Prop :=
  (∀ w : Word64, (w.extractLsb' 58 6).toNat ∉
      [0x01, 0x02, 0x03, 0x04, 0x05, 0x06, 0x07, 0x08, 0x09, 0x0A, 0x0B, 0x0C, 0x10, 0x11, 0x12, 0x13] →
    decodeCmd w = .error .reservedOpcode) ∧
  (∀ w : Word64, w.getLsbD 48 = true → ∃ e, decodeCmd w = .error e) ∧
  (∀ (w : Word64) (e : Reject) (s : State), s.busy = false → decodeCmd w = .error e →
    runCommand w s =
      .next { s with cmd := w, fault := { s.fault with badcmd := true }, resp := 0xFFFF })

/-! ### Buffer Model and Arming Primitive -/

/-- ARM (R131): its three outcomes and its frame. -/
def Obligations.ArmRule : Prop :=
  ∀ (keep toi : Bool) (ep : BitVec 4) (dir : Dir) (slot : Slot) (tgl : Bool) (buf cnt : Half) (s : State),
    s.cfg.wf →
    ArmOutcome s (exec (.arm keep toi ep dir slot tgl buf cnt) s) keep toi ep dir slot tgl buf cnt

/-- ARM_OUT, ARM_IN, ARM_EP, ARM_EP0_IN (R152, R154, R156, R158): each is an arming at `NextSlot` (R150) with the
endpoint's recorded toggle; ARM_EP selects by the direction, ARM_EP0_IN sends from the EP0 buffer. -/
def Obligations.AutomaticArming : Prop :=
  ∀ s : State, s.cfg.wf →
    (∀ keep toi ep buf n, ArmOutcome s (exec (.armOut keep toi ep buf n) s) keep toi ep .out
      (s.nextSlot ep .out) (s.epsAt ep .out).toggle buf n) ∧
    (∀ keep toi ep buf n, ArmOutcome s (exec (.armIn keep toi ep buf n) s) keep toi ep .inn
      (s.nextSlot ep .inn) (s.epsAt ep .inn).toggle buf n) ∧
    (∀ keep toi ep dir buf n, ArmOutcome s (exec (.armEp keep toi ep dir buf n) s) keep toi ep dir
      (s.nextSlot ep dir) (s.epsAt ep dir).toggle buf n) ∧
    (∀ n, ArmOutcome s (exec (.armEp0In n) s) false false 0 .inn
      (s.nextSlot 0 .inn) (s.epsAt 0 .inn).toggle s.cfg.ep0Buf n)

/-- `NextSlot` (R150): EVEN where single-buffered, else the complement of `last`; so EVEN first after a reset, the slot ENG
starts with. -/
def Obligations.NextSlotRule : Prop :=
  ∀ (s : State) (ep : BitVec 4) (dir : Dir),
    (pp s.cfg ep dir = false → s.nextSlot ep dir = .even) ∧
    (pp s.cfg ep dir = true → s.nextSlot ep dir ≠ (s.epsAt ep dir).last) ∧
    (∀ t, RestartedFrom s t → t.nextSlot ep dir = .even ∧ t.engSlot ep dir = .even)

/-- ARM_STATUS (R160): direction IN records DATA1 and arms a zero-length packet, or keeps the toggle write and faults with
`DARM`; direction OUT is `Ep0OutRearm(1)` and never faults. -/
def Obligations.ArmStatusRule : Prop :=
  ∀ s : State, s.cfg.wf →
    ((s.bd 0 .inn (s.nextSlot 0 .inn)).own = false →
      ∃ t, exec (.armStatus .inn) s = .next t ∧
        ArmedFrom s t false false 0 .inn (s.nextSlot 0 .inn) true s.cfg.ep0Buf 0) ∧
    ((s.bd 0 .inn (s.nextSlot 0 .inn)).own = true →
      exec (.armStatus .inn) s =
        .next { s.setEps 0 .inn { s.epsAt 0 .inn with toggle := true } with
          fault := { s.fault with darm := true }, resp := 0xFFFF }) ∧
    (∃ t, exec (.armStatus .out) s = .next t ∧ RearmedFrom s t true)

/-- STALL_EP (R139): its effect, its frame and its one fault. -/
def Obligations.StallEpRule : Prop :=
  ∀ (ep : BitVec 4) (dir : Dir) (s : State), s.cfg.wf →
    (ep.toNat < s.cfg.nep → ∃ t, exec (.stallEp ep dir) s = .next t ∧
      t = { s with ram := t.ram, eps := t.eps } ∧ StalledFrom s t ep dir) ∧
    (s.cfg.nep ≤ ep.toNat →
      exec (.stallEp ep dir) s = .next { s with fault := { s.fault with badparam := true }, resp := 0xFFFF })

/-- CLEAR_STALL (R141): every descriptor in use returned with DATA0, halt and toggle 0; an OUT endpoint other than 0
armed again at `NextSlot` for `MPS` bytes at the address its descriptor holds, or `BADPARAM` when that buffer passes the top
of memory; no other byte changes than the `STAT` bytes and the armed descriptor. -/
def Obligations.ClearStallRule : Prop :=
  ∀ (ep : BitVec 4) (dir : Dir) (s : State), s.cfg.wf →
    (s.cfg.nep ≤ ep.toNat →
      exec (.clearStall ep dir) s = .next { s with fault := { s.fault with badparam := true }, resp := 0xFFFF }) ∧
    (ep.toNat < s.cfg.nep →
      ∃ t, exec (.clearStall ep dir) s = .next t ∧
        t.epsAt ep dir = { s.epsAt ep dir with toggle := false, halt := false } ∧ OtherEps s t ep dir ∧
        (∀ x, (∀ slot ∈ slots s.cfg ep dir, x ≠ bdAddr s.cfg ep dir slot) →
          (x < bdAddr s.cfg ep dir (s.nextSlot ep dir) ∨ bdAddr s.cfg ep dir (s.nextSlot ep dir) + 4 ≤ x) →
          t.ram.read x = s.ram.read x) ∧
        (∀ slot ∈ slots s.cfg ep dir,
          let b := s.bd ep dir slot
          let returned : Bd := { b with own := false, dts := false, keep := false, toi := false, stall := false }
          let rearms : Prop := dir = .out ∧ ep ≠ 0 ∧ slot = s.nextSlot ep dir ∧
            b.addr.toNat + mps s.cfg ep dir ≤ 0x10000
          (rearms → t.bd ep dir slot = { returned with own := true, cnt := .ofNat 10 (mps s.cfg ep dir) }) ∧
          (¬ rearms → t.bd ep dir slot = returned)) ∧
        (dir = .out ∧ ep ≠ 0 ∧ 0x10000 < (s.bd ep dir (s.nextSlot ep dir)).addr.toNat + mps s.cfg ep dir →
          t = { s with ram := t.ram, eps := t.eps, fault := { s.fault with badparam := true }, resp := 0xFFFF }) ∧
        (¬ (dir = .out ∧ ep ≠ 0 ∧ 0x10000 < (s.bd ep dir (s.nextSlot ep dir)).addr.toNat + mps s.cfg ep dir) →
          t = { s with ram := t.ram, eps := t.eps }))

/-- R143: stalling then clearing an endpoint returns its toggle and its halt flag to 0, whatever the toggle was. -/
def Obligations.StallClearRoundTrip : Prop :=
  ∀ (ep : BitVec 4) (dir : Dir) (s : State), s.cfg.wf → ep.toNat < s.cfg.nep →
    ∃ t u, exec (.stallEp ep dir) s = .next t ∧ exec (.clearStall ep dir) t = .next u ∧
      (t.epsAt ep dir).halt = true ∧ (t.epsAt ep dir).toggle = (s.epsAt ep dir).toggle ∧
      (u.epsAt ep dir).toggle = false ∧ (u.epsAt ep dir).halt = false

/-! ### Control Transfer Engine -/

/-- XFER_ROM and XFER_RAM (R176, R177): both `BADPARAM` checks; the context, the first packet staged from the source and
armed with DATA1; when EP0 IN is hardware-owned, `DARM` after all of that but the arming. -/
def Obligations.XferRule : Prop :=
  ∀ (kind : Kind) (src avail req : Half) (s : State), s.cfg.wf →
    let run := exec (xferInstr kind src avail req) s
    let inRange : Prop := min avail.toNat req.toNat = 0 ∨ src.toNat + min avail.toNat req.toNat ≤ 0x10000
    (s.ctx.stage ≠ .setup ∨ ¬ inRange →
      run = .next { s with fault := { s.fault with badparam := true }, resp := 0xFFFF }) ∧
    (s.ctx.stage = .setup → inRange → (s.bd 0 .inn (s.nextSlot 0 .inn)).own = false →
      ∃ t, run = .next t ∧ XferFrom s t kind src avail req) ∧
    (s.ctx.stage = .setup → inRange → (s.bd 0 .inn (s.nextSlot 0 .inn)).own = true →
      let k := min (min avail.toNat req.toNat) (mps0 s.cfg)
      ∃ t, run = .next t ∧
        t = { s with
          ram := t.ram, eps := t.eps, ctx := xferCtx s kind src avail req
          fault := { s.fault with darm := true }, resp := 0xFFFF } ∧
        t.epsAt 0 .inn = { s.epsAt 0 .inn with toggle := true } ∧ OtherEps s t 0 .inn ∧
        StagedFrom s t kind src.toNat k ∧ KeptOutside s t s.cfg.ep0Buf.toNat k)

/-- R179: the number of packets of a device-to-host data stage. With `n = min(bytes_available, requested_length)`: one
zero-length packet when `n = 0`; `n / MPS0 + 1` when `n` is a positive multiple of `MPS0` and `n < requested_length`;
`ceil(n / MPS0)` otherwise. The packets carry `n` bytes together, none more than `MPS0`. -/
def Obligations.TransactionCount : Prop :=
  ∀ (kind : Kind) (src avail req : Half) (s t : State), s.serving →
    exec (xferInstr kind src avail req) s = .next t →
    t.fault = s.fault → s.fault.badparam = false →
    let n := min avail.toNat req.toNat
    ∀ fuel, n / mps0 s.cfg + 2 ≤ fuel →
      (dataPackets fuel t).length =
        (if n = 0 then 1
        else if n % mps0 s.cfg = 0 ∧ n < req.toNat then n / mps0 s.cfg + 1
        else (n + mps0 s.cfg - 1) / mps0 s.cfg) ∧
      (dataPackets fuel t).sum = n ∧ ∀ k ∈ dataPackets fuel t, k ≤ mps0 s.cfg

/-- SET_STAGE (R184). -/
def Obligations.SetStageRule : Prop :=
  ∀ (stage : BitVec 3) (dst count : Half) (s : State),
    let fails : Prop := 5 < stage.toNat ∨
      (stage.toNat = 3 ∧ (count.toNat = 0 ∨ 0x10000 < dst.toNat + count.toNat))
    (fails → exec (.setStage stage dst count) s =
      .next { s with fault := { s.fault with badparam := true }, resp := 0xFFFF }) ∧
    (¬ fails → ∃ st : Stage, st.bits = stage ∧ exec (.setStage stage dst count) s = .next { s with
      ctx := if st = .dataOut then { s.ctx with stage := st, dst := dst, remaining := count, zlp := false }
        else { s.ctx with stage := st } })

/-! ### INIT, SHUTDOWN, the public reads -/

/-- INIT and SHUTDOWN (R240, R256, R49): every element at its reset value, the whole table 0, `FAULT` and the rest of RAM
kept; while a SERVICE is in progress, `REENTRY` and nothing else (R243). -/
def Obligations.RestartRule : Prop :=
  ∀ s : State, s.cfg.wf →
    (s.busy = true →
      exec .init s = .next { s with fault := { s.fault with reentry := true }, resp := 0xFFFF } ∧
      exec .shutdown s = .next { s with fault := { s.fault with reentry := true }, resp := 0xFFFF }) ∧
    (s.busy = false →
      (∃ t, exec .init s = .next t ∧ RestartedFrom s t ∧ t.usbEn = true ∧ t.devState = .powered ∧
        t.epen = 0x0000 ∧ KeptOutside s t s.cfg.bdtBase.toNat (16 * s.cfg.nep) ∧
        ∀ x < 16 * s.cfg.nep, t.ram.read (s.cfg.bdtBase.toNat + x) = 0) ∧
      (∃ t, exec .shutdown s = .next t ∧ RestartedFrom s t ∧ t.usbEn = false ∧ t.devState = .detached ∧
        t.epen = 0x0000 ∧ KeptOutside s t s.cfg.bdtBase.toNat (16 * s.cfg.nep) ∧
        ∀ x < 16 * s.cfg.nep, t.ram.read (s.cfg.bdtBase.toNat + x) = 0))

/-- GET_STATE and GET_CONFIG (R258, R259): `RESP` and nothing else. -/
def Obligations.ReadsRule : Prop :=
  ∀ s : State,
    (∃ r : Half, exec .getState s = .next { s with resp := r } ∧
      r.toNat = (if s.suspended then 8 else 0) + s.devState.bits.toNat) ∧
    (∃ r : Half, exec .getConfig s = .next { s with resp := r } ∧ r.toNat = s.config.toNat)

/-! ### SERVICE -/

/-- A SERVICE with nothing to service changes nothing (R242): the block is off, or no flag is set and the queue is empty. A
SERVICE in a SERVICE is `REENTRY` (R243). -/
def Obligations.ServiceNothing : Prop :=
  ∀ s : State,
    (s.busy = false → s.usbEn = false ∨ s.devState = .detached ∨ s.irByte = 0 →
      exec .service s = .next s) ∧
    (s.busy = true →
      exec .service s = .next { s with fault := { s.fault with reentry := true }, resp := 0xFFFF })

/-- The arms of one SERVICE and their order (R242, R244, R246): RST first and alone; else IDLE, ACT, SOF, each with its flag
cleared before it runs, then at most one transaction; `BUSY` is 1 throughout and 0 at the end. -/
def Obligations.ServiceOrder : Prop :=
  ∀ s : State, s.busy = false → s.usbEn = true → s.devState ≠ .detached →
    (s.ir.rst = true → exec .service s =
      andThen (exec .svcRst { s with busy := true }) fun t => .next { t with busy := false }) ∧
    (s.ir.rst = false → exec .service s =
      andThen (if s.ir.idle then exec .svcIdle { s with busy := true, ir := { s.ir with idle := false } }
        else .next { s with busy := true }) fun s =>
      andThen (if s.ir.act then exec .svcAct { s with ir := { s.ir with act := false } } else .next s) fun s =>
      andThen (if s.ir.sof then exec .svcSof { s with ir := { s.ir with sof := false } } else .next s) fun s =>
      andThen (if s.tq ≠ [] then exec .svcTrn s else .next s) fun s => .next { s with busy := false })

/-- A SERVICE completes (R75, R242, R246): from every state, whatever is pending and whatever the hooks answer, it ends in a
next state with `BUSY` 0; with the block enabled no flag is left pending, and at most one queued record was served: none is
new and the oldest is gone. -/
def Obligations.ServiceCompletes : Prop :=
  ∀ s : State, s.busy = false →
    ∃ t, exec .service s = .next t ∧ t.busy = false ∧
      (s.usbEn = true → s.devState ≠ .detached →
        t.ir = ⟨false, false, false, false⟩ ∧ t.tq.Sublist s.tq.tail)

/-- SVC_RST (R248, R49): every element at its bus-reset value, the table 0 but for `BD[0][OUT][EVEN]`, which is armed for
the first setup packet; `FAULT`, `USBEN` and the rest of RAM kept; no hook is called. -/
def Obligations.BusResetRule : Prop :=
  ∀ s : State, s.cfg.wf →
    ∃ t, exec .svcRst s = .next t ∧ RestartedFrom s t ∧ t.usbEn = s.usbEn ∧ t.devState = .default ∧
      t.epen = 0x0001 ∧
      t.bd 0 .out .even = ⟨true, false, false, false, false, .ofNat 10 (mps0 s.cfg), s.cfg.ep0Buf⟩ ∧
      KeptOutside s t s.cfg.bdtBase.toNat (16 * s.cfg.nep) ∧
      ∀ x, 4 ≤ x → x < 16 * s.cfg.nep → t.ram.read (s.cfg.bdtBase.toNat + x) = 0

/-- SVC_IDLE, SVC_ACT, SVC_SOF (R250, R251, R252), for every hook answer: `SUSPENDED`, the hooks called and their order; and
exactly the next state when the hooks answer nothing. -/
def Obligations.NotificationArms : Prop :=
  ∀ s : State,
    let silent (t : State) : Prop := s.hookTape = [] → t = { s with suspended := t.suspended, trace := t.trace }
    (∃ t, exec .svcIdle s = .next t ∧ t.suspended = true ∧
      t.trace = s.trace ++ (if s.cfg.hooks.idle then [TraceItem.hookIdle] else []) ∧ silent t) ∧
    (∃ t, exec .svcAct s = .next t ∧ t.suspended = false ∧
      t.trace = s.trace ++ (if s.suspended && s.cfg.hooks.resume then [TraceItem.hookResume] else []) ++
        (if s.cfg.hooks.activity then [TraceItem.hookActivity] else []) ∧ silent t) ∧
    (∃ t, exec .svcSof s = .next t ∧ t.suspended = s.suspended ∧
      t.trace = s.trace ++ (if s.cfg.hooks.sof then [TraceItem.hookSof] else []) ∧ silent t)

/-- What a hook's words may do (R267, R313): all of them run to the end, faults included (R303), and they write RAM,
`EPS`, `CTX`, `FAULT`, `RESP` and `CMD` only: no hook changes the device state, the address, the configuration, the
enables, the flags, the queue or `SETUP`. -/
def Obligations.HookFrame : Prop :=
  ∀ (words : List Word64) (s : State), ∃ t, runHookWords words s = .ok () t ∧
    t = { s with
      ram := t.ram, eps := t.eps, ctx := t.ctx, fault := t.fault, resp := t.resp, cmd := t.cmd }

/-- A hook's word is a command word (R262, R96): it has the outcome of the same word written to `CMD`, except that INIT,
SERVICE and SHUTDOWN are the `REENTRY` fault (R243, R348). -/
def Obligations.HookWordIsCommand : Prop :=
  ∀ (w : Word64) (s : State),
    (reentrantOpcode w = false → (runHookWord w s).toOutcome = runCommand w s) ∧
    (reentrantOpcode w = true → runHookWord w s =
      .raised { s with cmd := w, fault := { s.fault with reentry := true }, resp := 0xFFFF })

/-! ### SVC_TRN -/

/-- ON_COMPLETE (R137) on any endpoint, 0 included: the count it reports, the toggle flipped unless `keep`, `last` set where
double-buffered; no other endpoint status and nothing else changes. -/
def Obligations.CompletionBookkeeping : Prop :=
  ∀ (ep : BitVec 4) (dir : Dir) (slot : Slot) (s : State),
    let b := s.bd ep dir slot
    let t := (onComplete ep dir slot s).2
    (onComplete ep dir slot s).1 = b.cnt ∧ t = { s with eps := t.eps } ∧ OtherEps s t ep dir ∧
    (t.epsAt ep dir).toggle = (if b.keep then (s.epsAt ep dir).toggle else !(s.epsAt ep dir).toggle) ∧
    (t.epsAt ep dir).halt = (s.epsAt ep dir).halt ∧
    (t.epsAt ep dir).last = if pp s.cfg ep dir then slot else (s.epsAt ep dir).last

/-- ON_COMPLETE (R137) as SVC_TRN runs it on a record of a class endpoint (R253): the record popped, the toggle flipped unless
`keep`, `last` set where double-buffered, HOOK_TRN called with the descriptor's count; exactly that when the hook answers
nothing. -/
def Obligations.ClassCompletion : Prop :=
  ∀ (r : Completion) (rest : List Completion) (s : State), s.tq = r :: rest → r.ep ≠ 0 →
    ∃ t, exec .svcTrn s = .next t ∧ t.tq = rest ∧
      t.trace = s.trace ++ (if s.cfg.hooks.trn
        then [TraceItem.hookTrn r.ep r.dir r.slot (s.bd r.ep r.dir r.slot).cnt] else []) ∧
      (s.hookTape = [] ∨ s.cfg.hooks.trn = false →
        t = { s with tq := rest, eps := t.eps, trace := t.trace } ∧ OtherEps s t r.ep r.dir ∧
        t.epsAt r.ep r.dir =
          { halt := (s.epsAt r.ep r.dir).halt
            toggle := if (s.bd r.ep r.dir r.slot).keep then (s.epsAt r.ep r.dir).toggle
              else !(s.epsAt r.ep r.dir).toggle
            last := if pp s.cfg r.ep r.dir then r.slot else (s.epsAt r.ep r.dir).last })

/-- An EP0 record other than a SETUP that is served while `SETUP_HOLD = 1` is ignored after its bookkeeping (R52, R172). -/
def Obligations.HeldEp0 : Prop :=
  ∀ (r : Completion) (rest : List Completion) (s : State), s.tq = r :: rest → r.ep = 0 →
    (r.dir = .inn ∨ r.setup = false) → s.setupHold = true →
    exec .svcTrn s = .next (onComplete 0 r.dir r.slot { s with tq := rest }).2

/-- The table of R172 but for its data entries: what an EP0 completion does in each stage. `u` is the state after the
record's bookkeeping. -/
def Obligations.StageTable : Prop :=
  ∀ (r : Completion) (rest : List Completion) (s : State), s.cfg.wf → s.tq = r :: rest → r.ep = 0 →
    (r.dir = .inn ∨ r.setup = false) → s.setupHold = false →
    let u := (onComplete 0 r.dir r.slot { s with tq := rest }).2
    (r.dir = .inn → s.ctx.stage = .idle ∨ s.ctx.stage = .setup ∨ s.ctx.stage = .dataOut ∨
      s.ctx.stage = .statusOut → exec .svcTrn s = .next u) ∧
    (r.dir = .out → s.ctx.stage = .idle ∨ s.ctx.stage = .setup ∨ s.ctx.stage = .statusIn →
      ∃ t, exec .svcTrn s = .next t ∧ RearmedFrom u t false) ∧
    (r.dir = .out → s.ctx.stage = .statusOut →
      ∃ t, exec .svcTrn s = .next t ∧
        RearmedFrom { u with ctx := ⟨.idle, 0, 0, .rom, false, 0⟩ } t false) ∧
    (r.dir = .out → s.ctx.stage = .dataIn →
      ∃ v t, exec .svcTrn s = .next t ∧ RearmedFrom v t false ∧
        v = { u with ram := v.ram, ctx := ⟨.idle, 0, 0, .rom, false, 0⟩ } ∧
        (∀ slot ∈ slots s.cfg 0 .inn, v.bd 0 .inn slot = { s.bd 0 .inn slot with own := false }) ∧
        ∀ x, (∀ slot ∈ slots s.cfg 0 .inn, x ≠ bdAddr s.cfg 0 .inn slot) → v.ram.read x = s.ram.read x)

/-- CtStatusDone (R182): the IN completion of STATUS_IN puts a pending address into effect and ends the transfer. -/
def Obligations.StatusDoneRule : Prop :=
  ∀ (r : Completion) (rest : List Completion) (s : State), s.tq = r :: rest → r.ep = 0 → r.dir = .inn →
    s.setupHold = false → s.ctx.stage = .statusIn →
    let u := (onComplete 0 .inn r.slot { s with tq := rest }).2
    exec .svcTrn s = .next { u with
      ctx := ⟨.idle, 0, 0, .rom, false, 0⟩
      devAddr := if s.addrPending then s.newAddr else s.devAddr
      devState := if s.addrPending then (if s.newAddr = 0 then .default else .address) else s.devState
      addrPending := false }

/-- CtInStep (R178) at an IN completion of DATA_IN: the move to STATUS_OUT when everything was sent; else the next chunk staged
and armed with the alternated toggle, `zlp` cleared by a short one; when EP0 IN is hardware-owned, `DARM` after the staging.
Source bytes past the top of memory are free values, and `draws` moves for them: the model's choice (R65 gives no such byte,
log 11). -/
def Obligations.DataInRule : Prop :=
  ∀ (r : Completion) (rest : List Completion) (s : State), s.cfg.wf → s.tq = r :: rest → r.ep = 0 →
    r.dir = .inn → s.setupHold = false → s.ctx.stage = .dataIn →
    let u := (onComplete 0 .inn r.slot { s with tq := rest }).2
    let k := min s.ctx.remaining.toNat (mps0 s.cfg)
    (s.ctx.remaining = 0 ∧ s.ctx.zlp = false →
      ∃ t, exec .svcTrn s = .next t ∧ RearmedFrom { u with ctx := { s.ctx with stage := .statusOut } } t true) ∧
    (¬ (s.ctx.remaining = 0 ∧ s.ctx.zlp = false) →
      ((u.bd 0 .inn (u.nextSlot 0 .inn)).own = false →
        ∃ t, exec .svcTrn s = .next t ∧
          ChunkArmedFrom u t s.ctx.kind s.ctx.src.toNat k (u.epsAt 0 .inn).toggle ∧
          t.ctx = { s.ctx with
            src := .ofNat 16 (s.ctx.src.toNat + k)
            remaining := .ofNat 16 (s.ctx.remaining.toNat - k)
            zlp := s.ctx.zlp && k = mps0 s.cfg }) ∧
      ((u.bd 0 .inn (u.nextSlot 0 .inn)).own = true →
        ∃ t, exec .svcTrn s = .next t ∧
          t = { u with
            ram := t.ram
            ctx := { s.ctx with
              src := .ofNat 16 (s.ctx.src.toNat + k)
              remaining := .ofNat 16 (s.ctx.remaining.toNat - k)
              zlp := s.ctx.zlp && k = mps0 s.cfg }
            draws := s.drawsAfter s.ctx.src.toNat k
            fault := { s.fault with darm := true }, resp := 0xFFFF } ∧
          StagedFrom u t s.ctx.kind s.ctx.src.toNat k ∧ KeptOutside u t s.cfg.ep0Buf.toNat k))

/-- CtOutData (R180) at an OUT completion of DATA_OUT: a chunk longer than what is declared is a request error; else it is
copied from the EP0 buffer, byte by byte, the pointer and the count move, and when the count is consumed the status is armed,
or `DARM` ends the servicing when EP0 IN is hardware-owned; else EP0 OUT is armed again. Past the top of memory bytes read are
free values, `draws` moves for them, and bytes stored go nowhere: the model's choice (R65 gives no such byte, log 11). -/
def Obligations.DataOutRule : Prop :=
  ∀ (r : Completion) (rest : List Completion) (s : State), s.cfg.wf → s.tq = r :: rest → r.ep = 0 →
    r.dir = .out → r.setup = false → s.setupHold = false → s.ctx.stage = .dataOut →
    let u := (onComplete 0 .out r.slot { s with tq := rest }).2
    let n := (s.bd 0 .out r.slot).cnt.toNat
    let src := s.cfg.ep0Buf.toNat
    let dst := s.ctx.dst.toNat
    (s.ctx.remaining.toNat < n →
      ∃ v t, exec .svcTrn s = .next t ∧ RequestErrorFrom u v .overrun ∧ RearmedFrom v t false) ∧
    (n ≤ s.ctx.remaining.toNat →
      ∃ v,
        v = { u with ram := v.ram, draws := s.drawsAfter src n, ctx := { s.ctx with
          dst := .ofNat 16 (dst + n), remaining := .ofNat 16 (s.ctx.remaining.toNat - n) } } ∧
        KeptOutside u v dst n ∧
        (∀ i < n, dst + i < 0x10000 → v.ram.read (dst + i) =
          if 0x10000 ≤ src + i then freeByte s.draws (src + i)
          else if dst ≤ src + i ∧ src + i < dst + i then v.ram.read (src + i) else u.ram.read (src + i)) ∧
        (n < s.ctx.remaining.toNat → ∃ t, exec .svcTrn s = .next t ∧ RearmedFrom v t false) ∧
        (n = s.ctx.remaining.toNat → (v.bd 0 .inn (v.nextSlot 0 .inn)).own = false →
          ∃ w t, exec .svcTrn s = .next t ∧ StatusArmedFrom v w ∧ RearmedFrom w t false) ∧
        (n = s.ctx.remaining.toNat → (v.bd 0 .inn (v.nextSlot 0 .inn)).own = true →
          exec .svcTrn s = .next { v.setEps 0 .inn { v.epsAt 0 .inn with toggle := true } with
            fault := { s.fault with darm := true }, resp := 0xFFFF }))

/-! ### SETUP -/

/-- The setup prologue (R173, R174): whatever was in progress is gone, no byte count carries over, a pending address is
dropped, EP0's descriptors are reclaimed with `dts` kept and its halt bits are 0; nothing else changes. -/
def Obligations.PrologueRule : Prop :=
  ∀ s : State, s.cfg.wf →
    let p := s.setupPrologue
    p = { s with
      ram := p.ram, eps := p.eps, addrPending := false, ctx := ⟨.setup, 0, 0, .rom, false, 0⟩ } ∧
    (∀ dir, p.epsAt 0 dir = { s.epsAt 0 dir with halt := false }) ∧
    (∀ ep dir, ep ≠ 0 → p.epsAt ep dir = s.epsAt ep dir) ∧
    (∀ dir, ∀ slot ∈ slots s.cfg 0 dir, p.bd 0 dir slot =
      { s.bd 0 dir slot with own := false, keep := false, toi := false, stall := false }) ∧
    ∀ x, (∀ dir, ∀ slot ∈ slots s.cfg 0 dir, x ≠ bdAddr s.cfg 0 dir slot) → p.ram.read x = s.ram.read x

/-- A SETUP record served (R172, R174, R175): the prologue, the 8 bytes at `EP0_BUF` latched, then exactly the standard request
they decode to, then EP0 OUT armed with DATA1 and `SETUP_HOLD` cleared. `p` is the state in which the request runs. -/
def Obligations.SetupDispatch : Prop :=
  ∀ (slot : Slot) (addr : Half) (armed : BitVec 10) (rest : List Completion) (s u : State) (i : Instr), s.cfg.wf →
    s.tq = ⟨0, .out, slot, true, addr, armed⟩ :: rest → (s.bd 0 .out slot).cnt = 8 → s.fault = FaultBits.none →
    let p := ((onComplete 0 .out slot { s with tq := rest }).2.setupPrologue).latchSetup
    decodeReq p.setup = .ok i → exec i p = .next u → u.fault = FaultBits.none →
    p.serving ∧ (∀ k < 8, p.setup.extractLsb' (8 * k) 8 = s.ram.read (s.cfg.ep0Buf.toNat + k)) ∧
    ∃ v, exec .svcTrn s = .next { v with setupHold := false } ∧ RearmedFrom u v true

/-- A SETUP transaction that did not carry 8 bytes (R174, R301): request error `E_SETUPLEN`, the latch kept. -/
def Obligations.SetupLength : Prop :=
  ∀ (slot : Slot) (addr : Half) (armed : BitVec 10) (rest : List Completion) (s : State), s.cfg.wf →
    s.tq = ⟨0, .out, slot, true, addr, armed⟩ :: rest → (s.bd 0 .out slot).cnt ≠ 8 →
    let p := (onComplete 0 .out slot { s with tq := rest }).2.setupPrologue
    ∃ u v, exec .svcTrn s = .next { v with setupHold := false } ∧ RequestErrorFrom p u .setupLen ∧
      RearmedFrom u v true ∧ v.setup = s.setup

/-- A request that is not standard (R104, R175, R263): without HOOK_REQ, or when the hook answers "unhandled" with no word, it
is the request error `E_UNHANDLED`; when the hook answers "handled" with no word the status is armed. -/
def Obligations.ClassRequestRule : Prop :=
  ∀ (s : State) (e : Reject), s.serving → decodeReq s.setup = .error e →
    (s.cfg.hooks.req = false → ∃ t, dispatch s = .ok () t ∧ RequestErrorFrom s t .unhandled) ∧
    (∀ (h : Bool) (tape : List HookAnswer), s.cfg.hooks.req = true → s.hookTape = ⟨h, []⟩ :: tape →
      let c := { s with hookTape := tape, trace := s.trace ++ [TraceItem.hookReq s.setup h] }
      ∃ t, dispatch s = .ok () t ∧
        (h = false → RequestErrorFrom c t .unhandled) ∧ (h = true → StatusArmedFrom c t))

/-! ### Standard requests -/

/-- GET_STATUS (R212): the status byte of the device, of a valid interface or of a valid endpoint, then 0x00, as a reply of at
most `L` bytes; every other form is rejected and changes nothing but what a request error changes. -/
def Obligations.GetStatusRule : Prop :=
  ∀ (t : Byte) (v i l : Half) (s : State), s.serving →
    let ok (n : Nat) : Prop := t.getLsbD 7 = true ∧ v = 0 ∧ (t.extractLsb' 0 5).toNat = n
    let reply (b : Byte) : Prop := ∃ u, exec (.getStatus t v i l) s = .next u ∧ ReplyFrom s u [b, 0x00] l
    (ok 0 → i = 0 → reply (if s.cfg.selfPowered then 0x01 else 0x00)) ∧
    (ok 1 → ifOk s i = true → reply 0x00) ∧
    (ok 2 → epOk s i = true → reply (if (s.epsAt (indexEp i) (indexDir i)).halt then 0x01 else 0x00)) ∧
    (¬ ((ok 0 ∧ i = 0) ∨ (ok 1 ∧ ifOk s i = true) ∨ (ok 2 ∧ epOk s i = true)) →
      ∃ u, exec (.getStatus t v i l) s = .next u ∧ RequestErrorFrom s u .rejected)

/-- `EpOk` and `IfOk` in the spec's words (R211). -/
def Obligations.RecipientChecks : Prop :=
  ∀ (s : State) (i : Half),
    (epOk s i = true ↔ (i.extractLsb' 8 8).toNat = 0 ∧ (i.extractLsb' 4 3).toNat = 0 ∧
      (i.extractLsb' 0 4).toNat < s.cfg.nep ∧
      ((i.extractLsb' 0 4).toNat = 0 ∨
        (s.devState = .configured ∧ s.epen.getLsbD (i.extractLsb' 0 4).toNat = true))) ∧
    (ifOk s i = true ↔ s.devState = .configured ∧ i.toNat < s.cfg.numIface) ∧
    (indexEp i).toNat = i.toNat % 16 ∧ (indexDir i = .inn ↔ i.getLsbD 7 = true)

/-- GET_CONFIGURATION and GET_INTERFACE (R224, R228): a one-byte reply, the configuration value or 0. -/
def Obligations.OneByteReplies : Prop :=
  ∀ (t : Byte) (v i l : Half) (s : State), s.serving →
    let ok (n : Nat) : Prop := t.getLsbD 7 = true ∧ (t.extractLsb' 0 5).toNat = n ∧ v = 0
    (ok 0 ∧ i = 0 → ∃ u, exec (.getConfiguration t v i l) s = .next u ∧ ReplyFrom s u [s.config] l) ∧
    (¬ (ok 0 ∧ i = 0) →
      ∃ u, exec (.getConfiguration t v i l) s = .next u ∧ RequestErrorFrom s u .rejected) ∧
    (ok 1 ∧ ifOk s i = true → ∃ u, exec (.getInterface t v i l) s = .next u ∧ ReplyFrom s u [0x00] l) ∧
    (¬ (ok 1 ∧ ifOk s i = true) →
      ∃ u, exec (.getInterface t v i l) s = .next u ∧ RequestErrorFrom s u .rejected)

/-- CLEAR_FEATURE (R214): ENDPOINT_HALT of a valid endpoint is CLEAR_STALL, or nothing for endpoint 0, then the status stage
armed; `BADPARAM` from CLEAR_STALL ends the request; every other form is rejected. -/
def Obligations.ClearFeatureRule : Prop :=
  ∀ (t : Byte) (v i l : Half) (s : State), s.serving →
    let ok : Prop := t.getLsbD 7 = false ∧ l = 0 ∧ (t.extractLsb' 0 5).toNat = 2 ∧ v = 0 ∧ epOk s i = true
    (ok → indexEp i = 0 → ∃ u, exec (.clearFeature t v i l) s = .next u ∧ StatusArmedFrom s u) ∧
    (ok → indexEp i ≠ 0 → ∃ c, exec (.clearStall (indexEp i) (indexDir i)) s = .next c ∧
      (c.fault = s.fault → s.fault.badparam = false →
        ∃ u, exec (.clearFeature t v i l) s = .next u ∧ StatusArmedFrom c u) ∧
      (c.fault ≠ s.fault → exec (.clearFeature t v i l) s = .next c)) ∧
    (¬ ok → ∃ u, exec (.clearFeature t v i l) s = .next u ∧ RequestErrorFrom s u .rejected)

/-- SET_FEATURE (R216): ENDPOINT_HALT of a valid endpoint other than 0 is STALL_EP, then the status stage armed; every other
form is rejected. -/
def Obligations.SetFeatureRule : Prop :=
  ∀ (t : Byte) (v i l : Half) (s : State), s.serving →
    let ok : Prop := t.getLsbD 7 = false ∧ l = 0 ∧ (t.extractLsb' 0 5).toNat = 2 ∧ v = 0 ∧
      epOk s i = true ∧ indexEp i ≠ 0
    (ok → ∃ c u, exec (.stallEp (indexEp i) (indexDir i)) s = .next c ∧
      exec (.setFeature t v i l) s = .next u ∧ StatusArmedFrom c u) ∧
    (¬ ok → ∃ u, exec (.setFeature t v i l) s = .next u ∧ RequestErrorFrom s u .rejected)

/-- SET_ADDRESS (R218): the address is recorded and pending; `DEVADDR` and `DEVSTATE` are not written. -/
def Obligations.SetAddressRule : Prop :=
  ∀ (t : Byte) (v i l : Half) (s : State), s.serving →
    let ok : Prop := t.getLsbD 7 = false ∧ (t.extractLsb' 0 5).toNat = 0 ∧ i = 0 ∧ l = 0 ∧ v.toNat ≤ 127 ∧
      s.devState ≠ .configured
    (ok → ∃ u, exec (.setAddress t v i l) s = .next u ∧
      StatusArmedFrom { s with newAddr := .ofNat 7 v.toNat, addrPending := true } u ∧
      u.devAddr = s.devAddr ∧ u.devState = s.devState) ∧
    (¬ ok → ∃ u, exec (.setAddress t v i l) s = .next u ∧ RequestErrorFrom s u .rejected)

/-- GET_DESCRIPTOR (R220): what the provider answers is transferred as XFER does it, its range fault included; a request the
provider has nothing for is rejected. -/
def Obligations.GetDescriptorRule : Prop :=
  ∀ (t : Byte) (v i l : Half) (s : State), s.serving →
    (∀ kind addr len, t.getLsbD 7 = true →
      descLookup s.cfg (v.extractLsb' 8 8) (v.extractLsb' 0 8) i = some (kind, addr, len) →
      (min len.toNat l.toNat = 0 ∨ addr.toNat + min len.toNat l.toNat ≤ 0x10000 →
        ∃ u, exec (.getDescriptor t v i l) s = .next u ∧ XferFrom s u kind addr len l) ∧
      (¬ (min len.toNat l.toNat = 0 ∨ addr.toNat + min len.toNat l.toNat ≤ 0x10000) →
        exec (.getDescriptor t v i l) s =
          .next { s with fault := { s.fault with badparam := true }, resp := 0xFFFF })) ∧
    (t.getLsbD 7 = false ∨ descLookup s.cfg (v.extractLsb' 8 8) (v.extractLsb' 0 8) i = none →
      ∃ u, exec (.getDescriptor t v i l) s = .next u ∧ RequestErrorFrom s u .rejected)

/-- SET_DESCRIPTOR and SYNCH_FRAME (R222, R232) are recognised and always rejected. -/
def Obligations.UnsupportedRequests : Prop :=
  ∀ (t : Byte) (v i l : Half) (s : State), s.cfg.wf →
    (∃ u, exec (.setDescriptor t v i l) s = .next u ∧ RequestErrorFrom s u .rejected) ∧
    (∃ u, exec (.synchFrame t v i l) s = .next u ∧ RequestErrorFrom s u .rejected)

/-- SET_CONFIGURATION (R226, R249): `c` is the state in which HOOK_CONFIG is called: every toggle and halt bit 0, every
descriptor of endpoints 1 and above reclaimed, their records gone, `CONFIG`, `DEVSTATE` and `EPEN` written. With a hook
that answers nothing the status is armed in that state. R249 loops over the endpoints below `NEP`; that the toggles and halt
bits of endpoints `NEP` and above are 0 too is the model's choice (log 15). -/
def Obligations.SetConfigurationRule : Prop :=
  ∀ (t : Byte) (v i l : Half) (s : State), s.serving →
    let n := v.extractLsb' 0 8
    let ok : Prop := t.getLsbD 7 = false ∧ (t.extractLsb' 0 5).toNat = 0 ∧ i = 0 ∧ l = 0 ∧
      v.toNat ≤ s.cfg.numConfig ∧ v.toNat < 256 ∧ (s.devState = .address ∨ s.devState = .configured)
    (ok → (s.hookTape = [] ∨ s.cfg.hooks.config = false) →
      ∃ c u, exec (.setConfiguration t v i l) s = .next u ∧ StatusArmedFrom c u ∧
        c = { s with
          ram := c.ram, eps := c.eps, tq := s.tq.filter (fun r => r.ep = 0), config := n
          devState := if v = 0 then .address else .configured
          epen := if v = 0 then 0x0001 else 0x0001 ||| cfgEps s.cfg n
          trace := s.trace ++ (if s.cfg.hooks.config then [TraceItem.hookConfig n] else []) } ∧
        (∀ ep dir, (c.epsAt ep dir).toggle = false ∧ (c.epsAt ep dir).halt = false ∧
          (c.epsAt ep dir).last =
            if ep ≠ 0 ∧ pp s.cfg ep dir = true then s.newestSlot ep dir else (s.epsAt ep dir).last) ∧
        (∀ ep dir, ep ≠ 0 → ep.toNat < s.cfg.nep → ∀ slot ∈ slots s.cfg ep dir, c.bd ep dir slot =
          { s.bd ep dir slot with own := false, dts := false, keep := false, toi := false, stall := false }) ∧
        ∀ x, (∀ ep dir, ep ≠ 0 → ep.toNat < s.cfg.nep → ∀ slot ∈ slots s.cfg ep dir,
          x ≠ bdAddr s.cfg ep dir slot) → c.ram.read x = s.ram.read x) ∧
    (¬ ok → ∃ u, exec (.setConfiguration t v i l) s = .next u ∧ RequestErrorFrom s u .rejected)

/-- SET_INTERFACE (R230): alternate setting 0 of a valid interface, nothing changed but the status armed. -/
def Obligations.SetInterfaceRule : Prop :=
  ∀ (t : Byte) (v i l : Half) (s : State), s.serving →
    let ok : Prop := t.getLsbD 7 = false ∧ (t.extractLsb' 0 5).toNat = 1 ∧ l = 0 ∧ ifOk s i = true ∧ v = 0
    (ok → ∃ u, exec (.setInterface t v i l) s = .next u ∧ StatusArmedFrom s u) ∧
    (¬ ok → ∃ u, exec (.setInterface t v i l) s = .next u ∧ RequestErrorFrom s u .rejected)

/-! ### The hardware engine -/

/-- Acceptance (R281, R284): a token outside `Accept`, or a SETUP to another endpoint than 0, is answered NONE and changes
nothing. -/
def Obligations.TokenNotAccepted : Prop :=
  ∀ (addr : BitVec 7) (ep : BitVec 4) (s : State),
    let accepted : Prop := s.usbEn = true ∧ s.ir.rst = false ∧ s.devState.active ∧ addr = s.devAddr ∧
      ep.toNat < s.cfg.nep ∧ s.epen.getLsbD ep.toNat = true
    (s.accepts addr ep = true ↔ accepted) ∧
    (¬ accepted →
      (∀ tgl data, exec (.tokOut addr ep tgl data) s = .next { s with response := some .silent }) ∧
      (∀ ack, exec (.tokIn addr ep ack) s = .next { s with response := some .silent })) ∧
    (¬ accepted ∨ ep ≠ 0 → ∀ data,
      exec (.tokSetup addr ep data) s = .next { s with response := some .silent })

/-- TOK_OUT (R286) when accepted, for every packet no longer than the descriptor was armed for (the spec lets no claim rest on
what a longer one does): NAK, STALL, the discarded retransmission, and the reception with its frame. The premise of the last
clause keeps the buffer off the descriptor table (R67); bytes that would lie past the top of memory go nowhere, the model's
choice (log 11). -/
def Obligations.TokOutRule : Prop :=
  ∀ (addr : BitVec 7) (ep : BitVec 4) (tgl : Bool) (data : List Byte) (s : State), s.cfg.wf →
    s.accepts addr ep = true →
    let slot := s.engSlot ep .out
    let b := s.bd ep .out slot
    let held : Prop := ep = 0 ∧ s.setupHold = true
    let run := exec (.tokOut addr ep tgl data) s
    (held ∨ b.own = false → run = .next { s with response := some .nak }) ∧
    (¬ held → b.own = true → b.stall = true → run = .next { s with response := some .stall }) ∧
    (¬ held → b.own = true → b.stall = false →
      (s.cfg.tqDepth ≤ s.tq.length → run = .next { s with response := some .nak }) ∧
      (s.tq.length < s.cfg.tqDepth →
        (tgl ≠ b.dts → run = .next { s with response := some .ack }) ∧
        (tgl = b.dts → data.length ≤ b.cnt.toNat →
          disjointRanges b.addr.toNat data.length s.cfg.bdtBase.toNat (16 * s.cfg.nep) →
          ∃ t, run = .next t ∧ ReceivedFrom s t ep slot false data)))

/-- TOK_SETUP (R287) when accepted on endpoint 0, for every packet no longer than the descriptor was armed for: silence while EP0
is held, not armed or the queue full; else the reception, whatever the toggle and also on a stalled descriptor, with
`SETUP_HOLD` set. Bytes that would lie past the top of memory go nowhere, the model's choice (log 11). -/
def Obligations.TokSetupRule : Prop :=
  ∀ (addr : BitVec 7) (data : List Byte) (s : State), s.cfg.wf → s.accepts addr 0 = true →
    let slot := s.engSlot 0 .out
    let b := s.bd 0 .out slot
    let run := exec (.tokSetup addr 0 data) s
    (s.setupHold = true ∨ b.own = false ∨ s.cfg.tqDepth ≤ s.tq.length →
      run = .next { s with response := some .silent }) ∧
    (s.setupHold = false → b.own = true → s.tq.length < s.cfg.tqDepth →
      data.length ≤ b.cnt.toNat →
      disjointRanges b.addr.toNat data.length s.cfg.bdtBase.toNat (16 * s.cfg.nep) →
      ∃ t, run = .next t ∧ t.setupHold = true ∧ ReceivedFrom s t 0 slot true data)

/-- TOK_IN (R288) when accepted: NAK, STALL, and the data packet, which completes the descriptor only when acknowledged. Its
bytes past the top of memory are free values, and `draws` moves once they were acknowledged: the model's choice (R65 gives no
such byte, log 11). The record also holds the armed buffer, the model's own part (log 26). -/
def Obligations.TokInRule : Prop :=
  ∀ (addr : BitVec 7) (ep : BitVec 4) (ack : Bool) (s : State), s.cfg.wf → s.accepts addr ep = true →
    let slot := s.engSlot ep .inn
    let b := s.bd ep .inn slot
    let held : Prop := ep = 0 ∧ s.setupHold = true
    let run := exec (.tokIn addr ep ack) s
    (held ∨ b.own = false → run = .next { s with response := some .nak }) ∧
    (¬ held → b.own = true → b.stall = true → run = .next { s with response := some .stall }) ∧
    (¬ held → b.own = true → b.stall = false →
      (s.cfg.tqDepth ≤ s.tq.length → run = .next { s with response := some .nak }) ∧
      (s.tq.length < s.cfg.tqDepth →
        ∃ bytes : List Byte, bytes.length = b.cnt.toNat ∧
          (∀ j < b.cnt.toNat, bytes.getD j 0 =
            if b.addr.toNat + j < 0x10000 then s.ram.read (b.addr.toNat + j)
            else freeByte s.draws (b.addr.toNat + j)) ∧
          (ack = false → run = .next { s with response := some (.data b.dts bytes) }) ∧
          (ack = true → ∃ t, run = .next t ∧
            t = { s with
              ram := t.ram, engPp := t.engPp, tq := s.tq ++ [⟨ep, .inn, slot, false, b.addr, b.cnt⟩]
              draws := s.drawsAfter b.addr.toNat b.cnt.toNat
              response := some (.data b.dts bytes) } ∧
            t.bd ep .inn slot = { b with own := false, stall := false } ∧
            (∀ x, x ≠ bdAddr s.cfg ep .inn slot → t.ram.read x = s.ram.read x) ∧
            ∀ ep' dir', t.engSlotBit ep' dir' =
              if (ep' = ep ∧ dir' = .inn) ∧ pp s.cfg ep .inn = true then (s.engSlotBit ep .inn).other
              else s.engSlotBit ep' dir')))

/-- BUS_RESET, BUS_IDLE, BUS_ACTIVITY, BUS_SOF (R292): one flag while `USBEN = 1`, nothing while it is 0 (R281). -/
def Obligations.BusConditions : Prop :=
  ∀ s : State,
    (s.usbEn = true →
      exec .busReset s = .next { s with ir := { s.ir with rst := true } } ∧
      exec .busIdle s = .next { s with ir := { s.ir with idle := true } } ∧
      exec .busActivity s = .next { s with ir := { s.ir with act := true } } ∧
      exec .busSof s = .next { s with ir := { s.ir with sof := true } }) ∧
    (s.usbEn = false →
      exec .busReset s = .next s ∧ exec .busIdle s = .next s ∧ exec .busActivity s = .next s ∧
      exec .busSof s = .next s)

/-- What ENG may touch (R283): a bus-side event writes `ENG_PP`, `TQ`, `IR` (sets only) and `SETUP_HOLD` (sets only), its
response, and in RAM only the bytes of `State.engMayWrite`: `STAT` and count of the hardware-owned descriptor the token meets
and, for a received packet, its buffer; in particular no endpoint status, no context, no device state, no configuration, no
`FAULT`, no `RESP`. `draws` is the model's own counter (log 11). -/
def Obligations.EngineFrame : Prop :=
  ∀ (r : BusRecord) (i : Instr) (s t : State), decodeBus r = .ok i → exec i s = .next t →
    t = { s with
      ram := t.ram, engPp := t.engPp, tq := t.tq, ir := t.ir, setupHold := t.setupHold, response := t.response
      draws := t.draws } ∧
    (∀ x, ¬ s.engMayWrite i x → t.ram.read x = s.ram.read x) ∧
    (s.setupHold = true → t.setupHold = true) ∧
    (s.ir.rst = true → t.ir.rst = true) ∧ (s.ir.idle = true → t.ir.idle = true) ∧
    (s.ir.act = true → t.ir.act = true) ∧ (s.ir.sof = true → t.ir.sof = true) ∧
    (t.tq = s.tq ∨ ∃ c, t.tq = s.tq ++ [c])

/-- What a command word other than INIT, SERVICE and SHUTDOWN may write (R48, R155, R313): RAM, `EPS`, `CTX`, `FAULT` and `RESP`; it
completes or faults and never stops (R96). -/
def Obligations.CommandFrame : Prop :=
  ∀ (w : Word64) (i : Instr) (s : State), decodeCmd w = .ok i → reentrantOpcode w = false →
    ∃ t, exec i s = .next t ∧
      t = { s with ram := t.ram, eps := t.eps, ctx := t.ctx, fault := t.fault, resp := t.resp }

/-! ### The step -/

/-- A step takes the next element of the schedule (R75, R96, R355): a command word runs exactly the instruction it decodes
to, with `CMD` holding the word and `RESP` 0; a bus-side event runs exactly the event its record names; a CLASS store writes one
byte; that a step with an empty schedule changes nothing is the model's choice (log 8: R357 says only that a run ends). -/
def Obligations.StepRunsDecoded : Prop :=
  ∀ (s : State) (rest : List Input),
    let o := { s with sched := rest, response := none, trace := [] }
    (∀ w i, s.sched = .cmd w :: rest → s.busy = false → decodeCmd w = .ok i →
      step s = exec i { o with cmd := w, resp := 0x0000 }) ∧
    (∀ r i, s.sched = .bus r :: rest → decodeBus r = .ok i → step s = exec i o) ∧
    (∀ a v, s.sched = .mem a v :: rest → ∃ t, step s = .next t ∧ t = { o with ram := t.ram } ∧
      t.ram.read a.toNat = v ∧ ∀ x, x ≠ a.toNat → t.ram.read x = s.ram.read x) ∧
    (s.sched = [] → step s = .next s)

/-- There is no stuck state (R357, R96): every command word, every event the host can cause, every CLASS store and every
harness step is defined in every state, so every run, of a finite or an infinite schedule and with every hook oracle, goes on
as long as its schedule does, and keeps the invariant. The elements left out are no `CMD`, `BUS` or `MEM` step that can occur:
the reserved bus code (log 14) and a store to an address of REG that does not exist (log 12). -/
def Obligations.EveryStepDefined : Prop :=
  let canOccur (c : Params) (x : Input) : Prop :=
    (∀ r, x = .bus r → r.code ≠ 7) ∧
    (∀ a v, x = .csr a v → c.csrBase.toNat ≤ a.toNat ∧ a.toNat < c.csrBase.toNat + 0x42)
  (∀ (s : State) (x : Input), canOccur s.cfg x → ∃ t, runInput x s = .next t) ∧
  ∀ (sched : Schedule) (oracle : HookOracle) (s : State), (∀ n x, sched n = some x → canOccur s.cfg x) →
    ∀ n, ∃ t, runSteps sched oracle s n = .next t ∧ (s.Inv → t.Inv)

/-- The command register (R45, R47): eight byte stores at offsets 0x18 to 0x1F, low byte first, have the outcome of the command
word they make, whatever `CMD` held; a store to a read-only register is ignored. -/
def Obligations.CommandRegister : Prop :=
  ∀ (w : Word64) (s : State), s.cfg.wf →
    let put (k : Nat) (s : State) := runInput (.csr (s.cfg.csrBase + .ofNat 16 (0x18 + k)) (byteOf w k)) s
    (andThen (put 0 s) fun s => andThen (put 1 s) fun s => andThen (put 2 s) fun s => andThen (put 3 s) fun s =>
      andThen (put 4 s) fun s => andThen (put 5 s) fun s => andThen (put 6 s) fun s => put 7 s) = runCommand w s ∧
    (∀ (k : Nat) (v : Byte), k < 0x18 ∨ (0x20 ≤ k ∧ k < 0x42) →
      runInput (.csr (s.cfg.csrBase + .ofNat 16 k) v) s = .next s)

/-- The register block as CLASS reads it (R47, with R27, R39, R41, R43, R52): where every flag, status and special register
stands, bit by bit or byte by byte, low byte first; nothing past offset 0x41. -/
def Obligations.RegisterBlock : Prop :=
  ∀ s : State,
    (∃ b, s.csrRead 0x00 = some b ∧ b.toNat < 32 ∧ b.getLsbD 0 = s.ir.rst ∧ b.getLsbD 1 = s.ir.idle ∧
      b.getLsbD 2 = s.ir.act ∧ b.getLsbD 3 = s.ir.sof ∧ (b.getLsbD 4 = true ↔ s.tq ≠ [])) ∧
    (s.tq = [] → s.csrRead 0x01 = some 0x00) ∧
    (∀ r rest, s.tq = r :: rest → ∃ b, s.csrRead 0x01 = some b ∧ b.getLsbD 7 = false ∧ b.extractLsb' 3 4 = r.ep ∧
      (b.getLsbD 2 = true ↔ r.dir = .inn) ∧ (b.getLsbD 1 = true ↔ r.slot = .odd) ∧ b.getLsbD 0 = r.setup) ∧
    (∃ b, s.csrRead 0x02 = some b ∧ b.toNat < 64 ∧ b.extractLsb' 0 3 = s.devState.bits ∧ b.getLsbD 3 = s.suspended ∧
      b.getLsbD 4 = s.usbEn ∧ b.getLsbD 5 = s.setupHold) ∧
    s.csrRead 0x03 = some s.config ∧
    (∃ b, s.csrRead 0x04 = some b ∧ b.toNat = s.devAddr.toNat) ∧
    (∃ b, s.csrRead 0x05 = some b ∧ b.extractLsb' 0 7 = s.newAddr ∧ b.getLsbD 7 = s.addrPending) ∧
    (∃ b, s.csrRead 0x06 = some b ∧ b.toNat < 32 ∧ b.extractLsb' 0 3 = s.ctx.stage.bits ∧
      (b.getLsbD 3 = true ↔ s.ctx.kind = .ram) ∧ b.getLsbD 4 = s.ctx.zlp) ∧
    (∃ b, s.csrRead 0x07 = some b ∧ b.toNat < 16 ∧ b.getLsbD 0 = s.fault.darm ∧ b.getLsbD 1 = s.fault.badparam ∧
      b.getLsbD 2 = s.fault.badcmd ∧ b.getLsbD 3 = s.fault.reentry) ∧
    (∀ k < 2, s.csrRead (0x08 + k) = some (s.ctx.remaining.extractLsb' (8 * k) 8) ∧
      s.csrRead (0x0A + k) = some (s.ctx.src.extractLsb' (8 * k) 8) ∧
      s.csrRead (0x0C + k) = some (s.ctx.dst.extractLsb' (8 * k) 8) ∧
      s.csrRead (0x0E + k) = some (s.resp.extractLsb' (8 * k) 8) ∧
      s.csrRead (0x40 + k) = some (s.epen.extractLsb' (8 * k) 8)) ∧
    (∀ k < 8, s.csrRead (0x10 + k) = some (s.setup.extractLsb' (8 * k) 8) ∧
      s.csrRead (0x18 + k) = some (s.cmd.extractLsb' (8 * k) 8)) ∧
    (∀ ep dir, ∃ b, s.csrRead (0x20 + (2 * ep.toNat + if dir = Dir.inn then 1 else 0)) = some b ∧ b.toNat < 8 ∧
      b.getLsbD 0 = (s.epsAt ep dir).toggle ∧ b.getLsbD 1 = (s.epsAt ep dir).halt ∧
      (b.getLsbD 2 = true ↔ (s.epsAt ep dir).last = .odd)) ∧
    ∀ off, 0x42 ≤ off → s.csrRead off = none

/-- What no step changes (R43, R80, R332): the parameters, ROM, and a fault bit once it is set. -/
def Obligations.StepKeepsFaults : Prop :=
  ∀ s t : State, step s = .next t →
    t.cfg = s.cfg ∧ t.rom = s.rom ∧
    (s.fault.darm = true → t.fault.darm = true) ∧ (s.fault.badparam = true → t.fault.badparam = true) ∧
    (s.fault.badcmd = true → t.fault.badcmd = true) ∧ (s.fault.reentry = true → t.fault.reentry = true)

/-- The reset state meets the invariant. -/
def Obligations.ResetInvariant : Prop := State.reset.Inv

/-- Every step keeps the invariant: canonical memory, `BUSY` 0, the queue within its depth, enables only below `NEP`, the
device state consistent with `USBEN`, `CONFIG`, `DEVADDR` and the pending address, and ENG's slot pointers the complement of the
newest reported slot (R42). -/
def Obligations.StepKeepsInvariant : Prop := ∀ s t : State, s.Inv → step s = .next t → t.Inv

/-- The transitions of `DEVSTATE` (R270): from a state that meets the invariant one step moves it only as the table allows, and
only a command word moves it. -/
def Obligations.DeviceTransitions : Prop :=
  ∀ s t : State, s.Inv → step s = .next t →
    s.devState.mayBecome t.devState ∧
    (∀ r rest, s.sched = .bus r :: rest → t.devState = s.devState) ∧
    (∀ a v rest, s.sched = .mem a v :: rest → t.devState = s.devState)

/-- The values R331 gives at power-on. -/
def Obligations.PowerOnValues : Prop :=
  State.reset.devState = .detached ∧ State.reset.usbEn = false ∧ State.reset.suspended = false ∧
  State.reset.config = 0 ∧ State.reset.devAddr = 0 ∧ State.reset.newAddr = 0 ∧
  State.reset.addrPending = false ∧ State.reset.epen = 0x0000 ∧
  (∀ ep dir, (State.reset.epsAt ep dir).byte = 0x04) ∧ (∀ ep dir, State.reset.engSlotBit ep dir = .even) ∧
  State.reset.setupHold = false ∧ State.reset.irByte = 0x00 ∧ State.reset.tq = [] ∧
  State.reset.fault.byte = 0x00 ∧ State.reset.resp = 0x0000 ∧ State.reset.cmd = 0 ∧
  State.reset.busy = false ∧ State.reset.ctx.stage = .idle ∧ State.reset.usbif = false
end

