-- ==== Sys2Proof/Laws/Memory.lean ====
section
/-! SUPPORT. The laws of memory: a read after a write, the canonical form kept by every operation, equal reads of
canonical memories are equal memories. -/

namespace Sys2Proof.Machine

theorem Memory.read_filter_ne (m : Memory) (a b : Nat) :
    Memory.read (m.filter (fun c => c.1 ≠ a)) b = if b = a then 0 else m.read b := by
  induction m with
  | nil => simp [Memory.read]
  | cons c m ih =>
    obtain ⟨k, v⟩ := c
    by_cases hk : k = a
    · subst hk
      simp only [ne_eq, not_true_eq_false, decide_false, Bool.false_eq_true, not_false_eq_true,
        List.filter_cons_of_neg]
      rw [ih]
      by_cases hb : b = k
      · simp [hb]
      · simp [hb, Memory.read, Ne.symm hb]
    · rw [List.filter_cons_of_pos (by simpa using hk)]
      by_cases hb : k = b
      · subst hb; simp [Memory.read, hk]
      · simp [Memory.read, hb]
        simpa using ih

theorem Memory.read_insert (m : Memory) (a : Nat) (v : Byte) (b : Nat) (h : ∀ c ∈ m, c.1 ≠ a) :
    Memory.read (Memory.insert m a v) b = if b = a then v else Memory.read m b := by
  induction m with
  | nil => simp [Memory.insert, Memory.read, eq_comm]
  | cons c m ih =>
    obtain ⟨k, u⟩ := c
    have hk : k ≠ a := h (k, u) (by simp)
    have ih := ih fun c hc => h c (List.mem_cons_of_mem _ hc)
    simp only [Memory.insert]
    split
    · simp [Memory.read, eq_comm]
    · simp only [Memory.read, ih]
      by_cases hb : b = a
      · subst hb; simp [hk]
      · simp [hb]

/-- Reading after a write, anywhere (R60, R73). -/
theorem Memory.read_write (m : Memory) (a : Nat) (v : Byte) (b : Nat) :
    (m.write a v).read b = if b = a ∧ a < spaceSize then v else m.read b := by
  unfold Memory.write
  by_cases ha : a < spaceSize
  · simp only [ha, and_true, if_true]
    by_cases hv : v = 0
    · subst hv; simp only [if_true]; exact Memory.read_filter_ne m a b
    · simp only [hv, if_false]
      rw [Memory.read_insert]
      · rw [Memory.read_filter_ne]
        by_cases hb : b = a <;> simp [hb]
      · intro c hc; simpa using (List.mem_filter.mp hc).2
  · simp [ha]

theorem Memory.read_write_same (m : Memory) (a : Nat) (v : Byte) (h : a < spaceSize) :
    (m.write a v).read a = v := by simp [Memory.read_write, h]

theorem Memory.read_write_other (m : Memory) (a : Nat) (v : Byte) (b : Nat) (h : b ≠ a) :
    (m.write a v).read b = m.read b := by simp [Memory.read_write, h]

/-! ### The canonical form -/

theorem Memory.wf_nil : Memory.wf [] := by simp [Memory.wf]

theorem Memory.wf_filter {m : Memory} (h : m.wf) (a : Nat) : Memory.wf (m.filter (fun c => c.1 ≠ a)) :=
  ⟨h.1.filter _, fun c hc => h.2 c (List.mem_filter.mp hc).1⟩

theorem Memory.mem_insert {m : Memory} {a : Nat} {v : Byte} {c : Host.Cell} :
    c ∈ m.insert a v ↔ c = (a, v) ∨ c ∈ m := by
  induction m with
  | nil => simp [Memory.insert]
  | cons d m ih =>
    obtain ⟨k, u⟩ := d
    simp only [Memory.insert]
    split
    · simp
    · simp only [List.mem_cons, ih]; tauto

theorem Memory.wf_insert {m : Memory} (h : m.wf) {a : Nat} {v : Byte} (ha : a < spaceSize) (hv : v ≠ 0)
    (hm : ∀ c ∈ m, c.1 ≠ a) : Memory.wf (m.insert a v) := by
  refine ⟨?_, fun c hc => ?_⟩
  · have hp := h.1
    clear h
    induction m with
    | nil => simp [Memory.insert]
    | cons d m ih =>
      obtain ⟨k, u⟩ := d
      have hk : k ≠ a := hm (k, u) (by simp)
      have hm' : ∀ c ∈ m, c.1 ≠ a := fun c hc => hm c (List.mem_cons_of_mem _ hc)
      rw [List.pairwise_cons] at hp
      simp only [Memory.insert]
      split
      · rename_i hlt
        refine List.pairwise_cons.mpr ⟨fun c hc => ?_, List.pairwise_cons.mpr hp⟩
        rcases List.mem_cons.mp hc with rfl | hc
        · exact hlt
        · exact Nat.lt_trans hlt (hp.1 c hc)
      · rename_i hlt
        refine List.pairwise_cons.mpr ⟨fun c hc => ?_, ih hm' hp.2⟩
        rcases Memory.mem_insert.mp hc with rfl | hc
        · show k < a; omega
        · exact hp.1 c hc
  · rcases Memory.mem_insert.mp hc with rfl | hc
    · exact ⟨ha, hv⟩
    · exact h.2 c hc

/-- A write keeps the canonical form. -/
theorem Memory.wf_write {m : Memory} (h : m.wf) (a : Nat) (v : Byte) : (m.write a v).wf := by
  unfold Memory.write
  split
  · rename_i ha
    split
    · exact Memory.wf_filter h a
    · rename_i hv
      exact Memory.wf_insert (Memory.wf_filter h a) ha hv
        (by intro c hc; simpa using (List.mem_filter.mp hc).2)
  · exact h

theorem Memory.wf_writeBytes {m : Memory} (h : m.wf) (a : Nat) (bs : List Byte) : (m.writeBytes a bs).wf := by
  induction bs generalizing m a with
  | nil => exact h
  | cons b bs ih => exact ih (Memory.wf_write h a b) (a + 1)

theorem Memory.wf_fillZero {m : Memory} (h : m.wf) (a n : Nat) : (m.fillZero a n).wf :=
  Memory.wf_writeBytes h a _

theorem Memory.wf_copyBytes {ram : Memory} (h : ram.wf) (rom : Memory) (kind : Kind) (draw n src dst : Nat) :
    (copyBytes rom kind draw n src dst ram).wf := by
  induction n generalizing ram src dst with
  | zero => exact h
  | succ n ih => exact ih (Memory.wf_write h _ _) _ _

theorem Memory.read_eq_zero_of_not_mem {m : Memory} {a : Nat} (h : ∀ c ∈ m, c.1 ≠ a) : m.read a = 0 := by
  induction m with
  | nil => rfl
  | cons c m ih =>
    have hc := h c (by simp)
    simp only [Memory.read, hc, if_false]
    exact ih fun d hd => h d (List.mem_cons_of_mem _ hd)

/-- A canonical memory is its reads. -/
theorem Memory.ext_read {m n : Memory} (hm : m.wf) (hn : n.wf) (h : ∀ a, m.read a = n.read a) : m = n := by
  induction m generalizing n with
  | nil =>
    cases n with
    | nil => rfl
    | cons c n =>
      have := h c.1
      simp only [Memory.read, if_true] at this
      exact absurd this.symm (hn.2 c (by simp)).2
  | cons c m ih =>
    have hc := (hm.2 c (by simp)).2
    cases n with
    | nil =>
      have := h c.1
      simp only [Memory.read, if_true] at this
      exact absurd this hc
    | cons d n =>
      have hd := (hn.2 d (by simp)).2
      have hmp := List.pairwise_cons.mp hm.1
      have hnp := List.pairwise_cons.mp hn.1
      have key : c.1 = d.1 := by
        rcases Nat.lt_trichotomy c.1 d.1 with hlt | heq | hgt
        · have h0 : Memory.read (d :: n) c.1 = 0 := Memory.read_eq_zero_of_not_mem (by
            intro e he
            rcases List.mem_cons.mp he with rfl | he
            · omega
            · have := hnp.1 e he; omega)
          have := h c.1
          rw [h0] at this
          simp only [Memory.read, if_true] at this
          exact absurd this hc
        · exact heq
        · have h0 : Memory.read (c :: m) d.1 = 0 := Memory.read_eq_zero_of_not_mem (by
            intro e he
            rcases List.mem_cons.mp he with rfl | he
            · omega
            · have := hmp.1 e he; omega)
          have := h d.1
          rw [h0] at this
          simp only [Memory.read, if_true] at this
          exact absurd this.symm hd
      have hv : c.2 = d.2 := by
        have := h c.1
        simpa [Memory.read, key] using this
      have hcd : c = d := Prod.ext key hv
      subst hcd
      congr 1
      refine ih ⟨hmp.2, fun e he => hm.2 e (List.mem_cons_of_mem _ he)⟩
        ⟨hnp.2, fun e he => hn.2 e (List.mem_cons_of_mem _ he)⟩ fun a => ?_
      by_cases ha : c.1 = a
      · rw [Memory.read_eq_zero_of_not_mem, Memory.read_eq_zero_of_not_mem]
        · intro e he; have := hnp.1 e he; omega
        · intro e he; have := hmp.1 e he; omega
      · have := h a
        simpa [Memory.read, ha] using this

/-! ### Runs of bytes -/

/-- Reading after a run of writes (R64). -/
theorem Memory.read_writeBytes (m : Memory) (a : Nat) (bs : List Byte) (b : Nat) :
    (m.writeBytes a bs).read b =
      if a ≤ b ∧ b < a + bs.length ∧ b < spaceSize then bs.getD (b - a) 0 else m.read b := by
  induction bs generalizing m a with
  | nil => simp [Memory.writeBytes]; omega
  | cons v bs ih =>
    simp only [Memory.writeBytes, ih, Memory.read_write, List.length_cons]
    by_cases h1 : a + 1 ≤ b ∧ b < a + 1 + bs.length ∧ b < spaceSize
    · have h2 : a ≤ b ∧ b < a + (bs.length + 1) ∧ b < spaceSize := by omega
      simp only [h1, h2, and_self, if_true]
      obtain ⟨k, hk⟩ : ∃ k, b - a = k + 1 := ⟨b - a - 1, by omega⟩
      rw [hk, List.getD_cons_succ]
      congr 1
      omega
    · rw [if_neg h1]
      by_cases h3 : b = a ∧ a < spaceSize
      · obtain ⟨rfl, h4⟩ := h3
        simp [h4]
      · rw [if_neg h3, if_neg (by omega)]

theorem Memory.read_fillZero (m : Memory) (a n b : Nat) :
    (m.fillZero a n).read b = if a ≤ b ∧ b < a + n ∧ b < spaceSize then 0 else m.read b := by
  simp only [Memory.fillZero, Memory.read_writeBytes, List.length_replicate]
  split
  · rename_i h; simp [show b - a < n by omega]
  · rfl

/-- Inside memory a fetch is a read. -/
@[simp] theorem Memory.fetch_of_lt {m : Memory} {a : Nat} (h : a < spaceSize) (draw : Nat) : m.fetch draw a = m.read a := if_pos h

/-- Past the top of memory a fetch is the free value, whatever memory holds. -/
@[simp] theorem Memory.fetch_of_le {m : Memory} {a : Nat} (h : spaceSize ≤ a) (draw : Nat) : m.fetch draw a = freeByte draw a :=
  if_neg (by omega)

/-- A fetch after a write of one byte. -/
theorem Memory.fetch_write (m : Memory) (a : Nat) (v : Byte) (draw b : Nat) :
    (m.write a v).fetch draw b = if b = a ∧ a < spaceSize then v else m.fetch draw b := by
  unfold Memory.fetch
  rw [Memory.read_write]
  split
  · rfl
  · rw [if_neg (by omega)]

/-- A copy changes no byte outside its destination. -/
theorem read_copyBytes_outside (rom : Memory) (kind : Kind) (draw n src dst : Nat) (ram : Memory) (b : Nat)
    (h : b < dst ∨ dst + n ≤ b) : (copyBytes rom kind draw n src dst ram).read b = ram.read b := by
  induction n generalizing src dst ram with
  | zero => rfl
  | succ n ih =>
    simp only [copyBytes]
    rw [ih _ _ _ (by omega), Memory.read_write_other _ _ _ _ (by omega)]

/-- Byte `i` of a copy's destination is the source byte as it stood when the copy reached it (R67, R178): a
source byte that the copy itself has overwritten is read with its new value. -/
theorem read_copyBytes (rom : Memory) (kind : Kind) (draw n src dst : Nat) (ram : Memory) (i : Nat) (hi : i < n)
    (hd : dst + i < spaceSize) :
    (copyBytes rom kind draw n src dst ram).read (dst + i) =
      if kind = .ram ∧ dst ≤ src + i ∧ src + i < dst + i
      then (copyBytes rom kind draw n src dst ram).read (src + i)
      else srcByte rom ram kind draw (src + i) := by
  induction n generalizing src dst ram i with
  | zero => omega
  | succ n ih =>
    simp only [copyBytes]
    cases i with
    | zero =>
      rw [if_neg (by omega)]
      simp only [Nat.add_zero]
      rw [read_copyBytes_outside _ _ _ _ _ _ _ _ (by omega),
        Memory.read_write_same _ _ _ (by omega)]
    | succ i =>
      have e1 : dst + (i + 1) = dst + 1 + i := by omega
      have e2 : src + (i + 1) = src + 1 + i := by omega
      rw [e1, e2, ih (src + 1) (dst + 1) _ i (by omega) (by omega)]
      cases kind with
      | rom => simp [srcByte]
      | ram =>
        simp only [true_and, srcByte, Memory.fetch_write]
        by_cases h1 : dst + 1 ≤ src + 1 + i ∧ src + 1 + i < dst + 1 + i
        · rw [if_pos h1, if_pos (by omega)]
        · rw [if_neg h1]
          by_cases h2 : src + 1 + i = dst
          · rw [if_pos ⟨h2, by omega⟩, if_pos (by omega), h2,
              read_copyBytes_outside _ _ _ _ _ _ _ _ (by omega), Memory.read_write_same _ _ _ (by omega)]
          · rw [if_neg (by omega), if_neg (by omega)]

end Sys2Proof.Machine
end

