-- ==== Sys2Proof/Laws/State.lean ====
section
/-! SUPPORT. What each update of State leaves as it was, field by field, and what the plain ones write. -/

namespace Sys2Proof.Machine

@[simp] theorem State.faulted_frame (s : State) (c : FaultCause) :
    (s.faulted c).cfg = s.cfg ∧ (s.faulted c).ram = s.ram ∧
    (s.faulted c).rom = s.rom ∧ (s.faulted c).eps = s.eps ∧
    (s.faulted c).engPp = s.engPp ∧ (s.faulted c).devState = s.devState ∧
    (s.faulted c).suspended = s.suspended ∧ (s.faulted c).config = s.config ∧
    (s.faulted c).devAddr = s.devAddr ∧ (s.faulted c).newAddr = s.newAddr ∧
    (s.faulted c).addrPending = s.addrPending ∧ (s.faulted c).epen = s.epen ∧
    (s.faulted c).usbEn = s.usbEn ∧ (s.faulted c).setup = s.setup ∧
    (s.faulted c).ctx = s.ctx ∧ (s.faulted c).ir = s.ir ∧
    (s.faulted c).tq = s.tq ∧ (s.faulted c).setupHold = s.setupHold ∧
    (s.faulted c).cmd = s.cmd ∧ (s.faulted c).busy = s.busy ∧
    (s.faulted c).usbie = s.usbie ∧ (s.faulted c).sched = s.sched ∧
    (s.faulted c).hookTape = s.hookTape ∧ (s.faulted c).response = s.response ∧
    (s.faulted c).trace = s.trace ∧
    (s.faulted c).draws = s.draws := by
  refine ⟨rfl, rfl, rfl, rfl, rfl, rfl, rfl, rfl, rfl, rfl, rfl, rfl, rfl, rfl, rfl, rfl, rfl, rfl, rfl, rfl, rfl, rfl, rfl, rfl, rfl, rfl⟩

@[simp] theorem State.writeStat_frame (s : State) (ep : BitVec 4) (dir : Dir) (slot : Slot) (b : Bd) :
    (s.writeStat ep dir slot b).cfg = s.cfg ∧ (s.writeStat ep dir slot b).rom = s.rom ∧
    (s.writeStat ep dir slot b).eps = s.eps ∧ (s.writeStat ep dir slot b).engPp = s.engPp ∧
    (s.writeStat ep dir slot b).devState = s.devState ∧ (s.writeStat ep dir slot b).suspended = s.suspended ∧
    (s.writeStat ep dir slot b).config = s.config ∧ (s.writeStat ep dir slot b).devAddr = s.devAddr ∧
    (s.writeStat ep dir slot b).newAddr = s.newAddr ∧ (s.writeStat ep dir slot b).addrPending = s.addrPending ∧
    (s.writeStat ep dir slot b).epen = s.epen ∧ (s.writeStat ep dir slot b).usbEn = s.usbEn ∧
    (s.writeStat ep dir slot b).setup = s.setup ∧ (s.writeStat ep dir slot b).ctx = s.ctx ∧
    (s.writeStat ep dir slot b).ir = s.ir ∧ (s.writeStat ep dir slot b).tq = s.tq ∧
    (s.writeStat ep dir slot b).setupHold = s.setupHold ∧ (s.writeStat ep dir slot b).fault = s.fault ∧
    (s.writeStat ep dir slot b).resp = s.resp ∧ (s.writeStat ep dir slot b).cmd = s.cmd ∧
    (s.writeStat ep dir slot b).busy = s.busy ∧ (s.writeStat ep dir slot b).usbie = s.usbie ∧
    (s.writeStat ep dir slot b).sched = s.sched ∧ (s.writeStat ep dir slot b).hookTape = s.hookTape ∧
    (s.writeStat ep dir slot b).response = s.response ∧ (s.writeStat ep dir slot b).trace = s.trace ∧
    (s.writeStat ep dir slot b).draws = s.draws := by
  refine ⟨rfl, rfl, rfl, rfl, rfl, rfl, rfl, rfl, rfl, rfl, rfl, rfl, rfl, rfl, rfl, rfl, rfl, rfl, rfl, rfl, rfl, rfl, rfl, rfl, rfl, rfl, rfl⟩

@[simp] theorem State.writeCntStat_frame (s : State) (ep : BitVec 4) (dir : Dir) (slot : Slot) (b : Bd) :
    (s.writeCntStat ep dir slot b).cfg = s.cfg ∧ (s.writeCntStat ep dir slot b).rom = s.rom ∧
    (s.writeCntStat ep dir slot b).eps = s.eps ∧ (s.writeCntStat ep dir slot b).engPp = s.engPp ∧
    (s.writeCntStat ep dir slot b).devState = s.devState ∧ (s.writeCntStat ep dir slot b).suspended = s.suspended ∧
    (s.writeCntStat ep dir slot b).config = s.config ∧ (s.writeCntStat ep dir slot b).devAddr = s.devAddr ∧
    (s.writeCntStat ep dir slot b).newAddr = s.newAddr ∧ (s.writeCntStat ep dir slot b).addrPending = s.addrPending ∧
    (s.writeCntStat ep dir slot b).epen = s.epen ∧ (s.writeCntStat ep dir slot b).usbEn = s.usbEn ∧
    (s.writeCntStat ep dir slot b).setup = s.setup ∧ (s.writeCntStat ep dir slot b).ctx = s.ctx ∧
    (s.writeCntStat ep dir slot b).ir = s.ir ∧ (s.writeCntStat ep dir slot b).tq = s.tq ∧
    (s.writeCntStat ep dir slot b).setupHold = s.setupHold ∧ (s.writeCntStat ep dir slot b).fault = s.fault ∧
    (s.writeCntStat ep dir slot b).resp = s.resp ∧ (s.writeCntStat ep dir slot b).cmd = s.cmd ∧
    (s.writeCntStat ep dir slot b).busy = s.busy ∧ (s.writeCntStat ep dir slot b).usbie = s.usbie ∧
    (s.writeCntStat ep dir slot b).sched = s.sched ∧ (s.writeCntStat ep dir slot b).hookTape = s.hookTape ∧
    (s.writeCntStat ep dir slot b).response = s.response ∧ (s.writeCntStat ep dir slot b).trace = s.trace ∧
    (s.writeCntStat ep dir slot b).draws = s.draws := by
  refine ⟨rfl, rfl, rfl, rfl, rfl, rfl, rfl, rfl, rfl, rfl, rfl, rfl, rfl, rfl, rfl, rfl, rfl, rfl, rfl, rfl, rfl, rfl, rfl, rfl, rfl, rfl, rfl⟩

@[simp] theorem State.writeBd_frame (s : State) (ep : BitVec 4) (dir : Dir) (slot : Slot) (b : Bd) :
    (s.writeBd ep dir slot b).cfg = s.cfg ∧ (s.writeBd ep dir slot b).rom = s.rom ∧
    (s.writeBd ep dir slot b).eps = s.eps ∧ (s.writeBd ep dir slot b).engPp = s.engPp ∧
    (s.writeBd ep dir slot b).devState = s.devState ∧ (s.writeBd ep dir slot b).suspended = s.suspended ∧
    (s.writeBd ep dir slot b).config = s.config ∧ (s.writeBd ep dir slot b).devAddr = s.devAddr ∧
    (s.writeBd ep dir slot b).newAddr = s.newAddr ∧ (s.writeBd ep dir slot b).addrPending = s.addrPending ∧
    (s.writeBd ep dir slot b).epen = s.epen ∧ (s.writeBd ep dir slot b).usbEn = s.usbEn ∧
    (s.writeBd ep dir slot b).setup = s.setup ∧ (s.writeBd ep dir slot b).ctx = s.ctx ∧
    (s.writeBd ep dir slot b).ir = s.ir ∧ (s.writeBd ep dir slot b).tq = s.tq ∧
    (s.writeBd ep dir slot b).setupHold = s.setupHold ∧ (s.writeBd ep dir slot b).fault = s.fault ∧
    (s.writeBd ep dir slot b).resp = s.resp ∧ (s.writeBd ep dir slot b).cmd = s.cmd ∧
    (s.writeBd ep dir slot b).busy = s.busy ∧ (s.writeBd ep dir slot b).usbie = s.usbie ∧
    (s.writeBd ep dir slot b).sched = s.sched ∧ (s.writeBd ep dir slot b).hookTape = s.hookTape ∧
    (s.writeBd ep dir slot b).response = s.response ∧ (s.writeBd ep dir slot b).trace = s.trace ∧
    (s.writeBd ep dir slot b).draws = s.draws := by
  refine ⟨rfl, rfl, rfl, rfl, rfl, rfl, rfl, rfl, rfl, rfl, rfl, rfl, rfl, rfl, rfl, rfl, rfl, rfl, rfl, rfl, rfl, rfl, rfl, rfl, rfl, rfl, rfl⟩

@[simp] theorem State.setEps_frame (s : State) (ep : BitVec 4) (dir : Dir) (e : Eps) :
    (s.setEps ep dir e).cfg = s.cfg ∧ (s.setEps ep dir e).ram = s.ram ∧
    (s.setEps ep dir e).rom = s.rom ∧ (s.setEps ep dir e).engPp = s.engPp ∧
    (s.setEps ep dir e).devState = s.devState ∧ (s.setEps ep dir e).suspended = s.suspended ∧
    (s.setEps ep dir e).config = s.config ∧ (s.setEps ep dir e).devAddr = s.devAddr ∧
    (s.setEps ep dir e).newAddr = s.newAddr ∧ (s.setEps ep dir e).addrPending = s.addrPending ∧
    (s.setEps ep dir e).epen = s.epen ∧ (s.setEps ep dir e).usbEn = s.usbEn ∧
    (s.setEps ep dir e).setup = s.setup ∧ (s.setEps ep dir e).ctx = s.ctx ∧
    (s.setEps ep dir e).ir = s.ir ∧ (s.setEps ep dir e).tq = s.tq ∧
    (s.setEps ep dir e).setupHold = s.setupHold ∧ (s.setEps ep dir e).fault = s.fault ∧
    (s.setEps ep dir e).resp = s.resp ∧ (s.setEps ep dir e).cmd = s.cmd ∧
    (s.setEps ep dir e).busy = s.busy ∧ (s.setEps ep dir e).usbie = s.usbie ∧
    (s.setEps ep dir e).sched = s.sched ∧ (s.setEps ep dir e).hookTape = s.hookTape ∧
    (s.setEps ep dir e).response = s.response ∧ (s.setEps ep dir e).trace = s.trace ∧
    (s.setEps ep dir e).draws = s.draws := by
  refine ⟨rfl, rfl, rfl, rfl, rfl, rfl, rfl, rfl, rfl, rfl, rfl, rfl, rfl, rfl, rfl, rfl, rfl, rfl, rfl, rfl, rfl, rfl, rfl, rfl, rfl, rfl, rfl⟩

@[simp] theorem State.setToggle_frame (s : State) (ep : BitVec 4) (dir : Dir) (x : Bool) :
    (s.setToggle ep dir x).cfg = s.cfg ∧ (s.setToggle ep dir x).ram = s.ram ∧
    (s.setToggle ep dir x).rom = s.rom ∧ (s.setToggle ep dir x).engPp = s.engPp ∧
    (s.setToggle ep dir x).devState = s.devState ∧ (s.setToggle ep dir x).suspended = s.suspended ∧
    (s.setToggle ep dir x).config = s.config ∧ (s.setToggle ep dir x).devAddr = s.devAddr ∧
    (s.setToggle ep dir x).newAddr = s.newAddr ∧ (s.setToggle ep dir x).addrPending = s.addrPending ∧
    (s.setToggle ep dir x).epen = s.epen ∧ (s.setToggle ep dir x).usbEn = s.usbEn ∧
    (s.setToggle ep dir x).setup = s.setup ∧ (s.setToggle ep dir x).ctx = s.ctx ∧
    (s.setToggle ep dir x).ir = s.ir ∧ (s.setToggle ep dir x).tq = s.tq ∧
    (s.setToggle ep dir x).setupHold = s.setupHold ∧ (s.setToggle ep dir x).fault = s.fault ∧
    (s.setToggle ep dir x).resp = s.resp ∧ (s.setToggle ep dir x).cmd = s.cmd ∧
    (s.setToggle ep dir x).busy = s.busy ∧ (s.setToggle ep dir x).usbie = s.usbie ∧
    (s.setToggle ep dir x).sched = s.sched ∧ (s.setToggle ep dir x).hookTape = s.hookTape ∧
    (s.setToggle ep dir x).response = s.response ∧ (s.setToggle ep dir x).trace = s.trace ∧
    (s.setToggle ep dir x).draws = s.draws := by
  refine ⟨rfl, rfl, rfl, rfl, rfl, rfl, rfl, rfl, rfl, rfl, rfl, rfl, rfl, rfl, rfl, rfl, rfl, rfl, rfl, rfl, rfl, rfl, rfl, rfl, rfl, rfl, rfl⟩

@[simp] theorem State.setHalt_frame (s : State) (ep : BitVec 4) (dir : Dir) (x : Bool) :
    (s.setHalt ep dir x).cfg = s.cfg ∧ (s.setHalt ep dir x).ram = s.ram ∧
    (s.setHalt ep dir x).rom = s.rom ∧ (s.setHalt ep dir x).engPp = s.engPp ∧
    (s.setHalt ep dir x).devState = s.devState ∧ (s.setHalt ep dir x).suspended = s.suspended ∧
    (s.setHalt ep dir x).config = s.config ∧ (s.setHalt ep dir x).devAddr = s.devAddr ∧
    (s.setHalt ep dir x).newAddr = s.newAddr ∧ (s.setHalt ep dir x).addrPending = s.addrPending ∧
    (s.setHalt ep dir x).epen = s.epen ∧ (s.setHalt ep dir x).usbEn = s.usbEn ∧
    (s.setHalt ep dir x).setup = s.setup ∧ (s.setHalt ep dir x).ctx = s.ctx ∧
    (s.setHalt ep dir x).ir = s.ir ∧ (s.setHalt ep dir x).tq = s.tq ∧
    (s.setHalt ep dir x).setupHold = s.setupHold ∧ (s.setHalt ep dir x).fault = s.fault ∧
    (s.setHalt ep dir x).resp = s.resp ∧ (s.setHalt ep dir x).cmd = s.cmd ∧
    (s.setHalt ep dir x).busy = s.busy ∧ (s.setHalt ep dir x).usbie = s.usbie ∧
    (s.setHalt ep dir x).sched = s.sched ∧ (s.setHalt ep dir x).hookTape = s.hookTape ∧
    (s.setHalt ep dir x).response = s.response ∧ (s.setHalt ep dir x).trace = s.trace ∧
    (s.setHalt ep dir x).draws = s.draws := by
  refine ⟨rfl, rfl, rfl, rfl, rfl, rfl, rfl, rfl, rfl, rfl, rfl, rfl, rfl, rfl, rfl, rfl, rfl, rfl, rfl, rfl, rfl, rfl, rfl, rfl, rfl, rfl, rfl⟩

@[simp] theorem State.destroyCtx_frame (s : State) :
    (s.destroyCtx).cfg = s.cfg ∧ (s.destroyCtx).ram = s.ram ∧
    (s.destroyCtx).rom = s.rom ∧ (s.destroyCtx).eps = s.eps ∧
    (s.destroyCtx).engPp = s.engPp ∧ (s.destroyCtx).devState = s.devState ∧
    (s.destroyCtx).suspended = s.suspended ∧ (s.destroyCtx).config = s.config ∧
    (s.destroyCtx).devAddr = s.devAddr ∧ (s.destroyCtx).newAddr = s.newAddr ∧
    (s.destroyCtx).addrPending = s.addrPending ∧ (s.destroyCtx).epen = s.epen ∧
    (s.destroyCtx).usbEn = s.usbEn ∧ (s.destroyCtx).setup = s.setup ∧
    (s.destroyCtx).ir = s.ir ∧ (s.destroyCtx).tq = s.tq ∧
    (s.destroyCtx).setupHold = s.setupHold ∧ (s.destroyCtx).fault = s.fault ∧
    (s.destroyCtx).resp = s.resp ∧ (s.destroyCtx).cmd = s.cmd ∧
    (s.destroyCtx).busy = s.busy ∧ (s.destroyCtx).usbie = s.usbie ∧
    (s.destroyCtx).sched = s.sched ∧ (s.destroyCtx).hookTape = s.hookTape ∧
    (s.destroyCtx).response = s.response ∧ (s.destroyCtx).trace = s.trace ∧
    (s.destroyCtx).draws = s.draws := by
  refine ⟨rfl, rfl, rfl, rfl, rfl, rfl, rfl, rfl, rfl, rfl, rfl, rfl, rfl, rfl, rfl, rfl, rfl, rfl, rfl, rfl, rfl, rfl, rfl, rfl, rfl, rfl, rfl⟩

@[simp] theorem State.clearEndpoints_frame (s : State) :
    (s.clearEndpoints).cfg = s.cfg ∧ (s.clearEndpoints).rom = s.rom ∧
    (s.clearEndpoints).devState = s.devState ∧ (s.clearEndpoints).suspended = s.suspended ∧
    (s.clearEndpoints).config = s.config ∧ (s.clearEndpoints).devAddr = s.devAddr ∧
    (s.clearEndpoints).newAddr = s.newAddr ∧ (s.clearEndpoints).addrPending = s.addrPending ∧
    (s.clearEndpoints).epen = s.epen ∧ (s.clearEndpoints).usbEn = s.usbEn ∧
    (s.clearEndpoints).setup = s.setup ∧ (s.clearEndpoints).ctx = s.ctx ∧
    (s.clearEndpoints).ir = s.ir ∧ (s.clearEndpoints).tq = s.tq ∧
    (s.clearEndpoints).setupHold = s.setupHold ∧ (s.clearEndpoints).fault = s.fault ∧
    (s.clearEndpoints).resp = s.resp ∧ (s.clearEndpoints).cmd = s.cmd ∧
    (s.clearEndpoints).busy = s.busy ∧ (s.clearEndpoints).usbie = s.usbie ∧
    (s.clearEndpoints).sched = s.sched ∧ (s.clearEndpoints).hookTape = s.hookTape ∧
    (s.clearEndpoints).response = s.response ∧ (s.clearEndpoints).trace = s.trace ∧
    (s.clearEndpoints).draws = s.draws := by
  refine ⟨rfl, rfl, rfl, rfl, rfl, rfl, rfl, rfl, rfl, rfl, rfl, rfl, rfl, rfl, rfl, rfl, rfl, rfl, rfl, rfl, rfl, rfl, rfl, rfl, rfl⟩

@[simp] theorem State.respond_frame (s : State) (r : Response) :
    (s.respond r).cfg = s.cfg ∧ (s.respond r).ram = s.ram ∧
    (s.respond r).rom = s.rom ∧ (s.respond r).eps = s.eps ∧
    (s.respond r).engPp = s.engPp ∧ (s.respond r).devState = s.devState ∧
    (s.respond r).suspended = s.suspended ∧ (s.respond r).config = s.config ∧
    (s.respond r).devAddr = s.devAddr ∧ (s.respond r).newAddr = s.newAddr ∧
    (s.respond r).addrPending = s.addrPending ∧ (s.respond r).epen = s.epen ∧
    (s.respond r).usbEn = s.usbEn ∧ (s.respond r).setup = s.setup ∧
    (s.respond r).ctx = s.ctx ∧ (s.respond r).ir = s.ir ∧
    (s.respond r).tq = s.tq ∧ (s.respond r).setupHold = s.setupHold ∧
    (s.respond r).fault = s.fault ∧ (s.respond r).resp = s.resp ∧
    (s.respond r).cmd = s.cmd ∧ (s.respond r).busy = s.busy ∧
    (s.respond r).usbie = s.usbie ∧ (s.respond r).sched = s.sched ∧
    (s.respond r).hookTape = s.hookTape ∧ (s.respond r).trace = s.trace ∧
    (s.respond r).draws = s.draws := by
  refine ⟨rfl, rfl, rfl, rfl, rfl, rfl, rfl, rfl, rfl, rfl, rfl, rfl, rfl, rfl, rfl, rfl, rfl, rfl, rfl, rfl, rfl, rfl, rfl, rfl, rfl, rfl, rfl⟩

@[simp] theorem State.begin_frame (s : State) (rest : List Input) :
    (s.begin rest).cfg = s.cfg ∧ (s.begin rest).ram = s.ram ∧
    (s.begin rest).rom = s.rom ∧ (s.begin rest).eps = s.eps ∧
    (s.begin rest).engPp = s.engPp ∧ (s.begin rest).devState = s.devState ∧
    (s.begin rest).suspended = s.suspended ∧ (s.begin rest).config = s.config ∧
    (s.begin rest).devAddr = s.devAddr ∧ (s.begin rest).newAddr = s.newAddr ∧
    (s.begin rest).addrPending = s.addrPending ∧ (s.begin rest).epen = s.epen ∧
    (s.begin rest).usbEn = s.usbEn ∧ (s.begin rest).setup = s.setup ∧
    (s.begin rest).ctx = s.ctx ∧ (s.begin rest).ir = s.ir ∧
    (s.begin rest).tq = s.tq ∧ (s.begin rest).setupHold = s.setupHold ∧
    (s.begin rest).fault = s.fault ∧ (s.begin rest).resp = s.resp ∧
    (s.begin rest).cmd = s.cmd ∧ (s.begin rest).busy = s.busy ∧
    (s.begin rest).usbie = s.usbie ∧ (s.begin rest).hookTape = s.hookTape := by
  refine ⟨rfl, rfl, rfl, rfl, rfl, rfl, rfl, rfl, rfl, rfl, rfl, rfl, rfl, rfl, rfl, rfl, rfl, rfl, rfl, rfl, rfl, rfl, rfl, rfl⟩

@[simp] theorem State.flipEngPp_frame (s : State) (ep : BitVec 4) (dir : Dir) :
    (s.flipEngPp ep dir).cfg = s.cfg ∧ (s.flipEngPp ep dir).ram = s.ram ∧
    (s.flipEngPp ep dir).rom = s.rom ∧ (s.flipEngPp ep dir).eps = s.eps ∧
    (s.flipEngPp ep dir).devState = s.devState ∧ (s.flipEngPp ep dir).suspended = s.suspended ∧
    (s.flipEngPp ep dir).config = s.config ∧ (s.flipEngPp ep dir).devAddr = s.devAddr ∧
    (s.flipEngPp ep dir).newAddr = s.newAddr ∧ (s.flipEngPp ep dir).addrPending = s.addrPending ∧
    (s.flipEngPp ep dir).epen = s.epen ∧ (s.flipEngPp ep dir).usbEn = s.usbEn ∧
    (s.flipEngPp ep dir).setup = s.setup ∧ (s.flipEngPp ep dir).ctx = s.ctx ∧
    (s.flipEngPp ep dir).ir = s.ir ∧ (s.flipEngPp ep dir).tq = s.tq ∧
    (s.flipEngPp ep dir).setupHold = s.setupHold ∧ (s.flipEngPp ep dir).fault = s.fault ∧
    (s.flipEngPp ep dir).resp = s.resp ∧ (s.flipEngPp ep dir).cmd = s.cmd ∧
    (s.flipEngPp ep dir).busy = s.busy ∧ (s.flipEngPp ep dir).usbie = s.usbie ∧
    (s.flipEngPp ep dir).sched = s.sched ∧ (s.flipEngPp ep dir).hookTape = s.hookTape ∧
    (s.flipEngPp ep dir).response = s.response ∧ (s.flipEngPp ep dir).trace = s.trace ∧
    (s.flipEngPp ep dir).draws = s.draws := by
  unfold State.flipEngPp; split <;> exact ⟨rfl, rfl, rfl, rfl, rfl, rfl, rfl, rfl, rfl, rfl, rfl, rfl, rfl, rfl, rfl, rfl, rfl, rfl, rfl, rfl, rfl, rfl, rfl, rfl, rfl, rfl, rfl⟩

@[simp] theorem State.overSlots_frame (s : State) (ep : BitVec 4) (dir : Dir) (f : Bd → Bd) :
    (s.overSlots ep dir f).cfg = s.cfg ∧ (s.overSlots ep dir f).rom = s.rom ∧
    (s.overSlots ep dir f).eps = s.eps ∧ (s.overSlots ep dir f).engPp = s.engPp ∧
    (s.overSlots ep dir f).devState = s.devState ∧ (s.overSlots ep dir f).suspended = s.suspended ∧
    (s.overSlots ep dir f).config = s.config ∧ (s.overSlots ep dir f).devAddr = s.devAddr ∧
    (s.overSlots ep dir f).newAddr = s.newAddr ∧ (s.overSlots ep dir f).addrPending = s.addrPending ∧
    (s.overSlots ep dir f).epen = s.epen ∧ (s.overSlots ep dir f).usbEn = s.usbEn ∧
    (s.overSlots ep dir f).setup = s.setup ∧ (s.overSlots ep dir f).ctx = s.ctx ∧
    (s.overSlots ep dir f).ir = s.ir ∧ (s.overSlots ep dir f).tq = s.tq ∧
    (s.overSlots ep dir f).setupHold = s.setupHold ∧ (s.overSlots ep dir f).fault = s.fault ∧
    (s.overSlots ep dir f).resp = s.resp ∧ (s.overSlots ep dir f).cmd = s.cmd ∧
    (s.overSlots ep dir f).busy = s.busy ∧ (s.overSlots ep dir f).usbie = s.usbie ∧
    (s.overSlots ep dir f).sched = s.sched ∧ (s.overSlots ep dir f).hookTape = s.hookTape ∧
    (s.overSlots ep dir f).response = s.response ∧ (s.overSlots ep dir f).trace = s.trace ∧
    (s.overSlots ep dir f).draws = s.draws := by
  unfold State.overSlots slots; split <;> exact ⟨rfl, rfl, rfl, rfl, rfl, rfl, rfl, rfl, rfl, rfl, rfl, rfl, rfl, rfl, rfl, rfl, rfl, rfl, rfl, rfl, rfl, rfl, rfl, rfl, rfl, rfl, rfl⟩

@[simp] theorem State.stallEndpoint_frame (s : State) (ep : BitVec 4) (dir : Dir) :
    (s.stallEndpoint ep dir).cfg = s.cfg ∧ (s.stallEndpoint ep dir).rom = s.rom ∧
    (s.stallEndpoint ep dir).engPp = s.engPp ∧ (s.stallEndpoint ep dir).devState = s.devState ∧
    (s.stallEndpoint ep dir).suspended = s.suspended ∧ (s.stallEndpoint ep dir).config = s.config ∧
    (s.stallEndpoint ep dir).devAddr = s.devAddr ∧ (s.stallEndpoint ep dir).newAddr = s.newAddr ∧
    (s.stallEndpoint ep dir).addrPending = s.addrPending ∧ (s.stallEndpoint ep dir).epen = s.epen ∧
    (s.stallEndpoint ep dir).usbEn = s.usbEn ∧ (s.stallEndpoint ep dir).setup = s.setup ∧
    (s.stallEndpoint ep dir).ctx = s.ctx ∧ (s.stallEndpoint ep dir).ir = s.ir ∧
    (s.stallEndpoint ep dir).tq = s.tq ∧ (s.stallEndpoint ep dir).setupHold = s.setupHold ∧
    (s.stallEndpoint ep dir).fault = s.fault ∧ (s.stallEndpoint ep dir).resp = s.resp ∧
    (s.stallEndpoint ep dir).cmd = s.cmd ∧ (s.stallEndpoint ep dir).busy = s.busy ∧
    (s.stallEndpoint ep dir).usbie = s.usbie ∧ (s.stallEndpoint ep dir).sched = s.sched ∧
    (s.stallEndpoint ep dir).hookTape = s.hookTape ∧ (s.stallEndpoint ep dir).response = s.response ∧
    (s.stallEndpoint ep dir).trace = s.trace ∧
    (s.stallEndpoint ep dir).draws = s.draws := by
  simp [State.stallEndpoint]

@[simp] theorem State.clearHalt_frame (s : State) (ep : BitVec 4) (dir : Dir) :
    (s.clearHalt ep dir).cfg = s.cfg ∧ (s.clearHalt ep dir).rom = s.rom ∧
    (s.clearHalt ep dir).engPp = s.engPp ∧ (s.clearHalt ep dir).devState = s.devState ∧
    (s.clearHalt ep dir).suspended = s.suspended ∧ (s.clearHalt ep dir).config = s.config ∧
    (s.clearHalt ep dir).devAddr = s.devAddr ∧ (s.clearHalt ep dir).newAddr = s.newAddr ∧
    (s.clearHalt ep dir).addrPending = s.addrPending ∧ (s.clearHalt ep dir).epen = s.epen ∧
    (s.clearHalt ep dir).usbEn = s.usbEn ∧ (s.clearHalt ep dir).setup = s.setup ∧
    (s.clearHalt ep dir).ctx = s.ctx ∧ (s.clearHalt ep dir).ir = s.ir ∧
    (s.clearHalt ep dir).tq = s.tq ∧ (s.clearHalt ep dir).setupHold = s.setupHold ∧
    (s.clearHalt ep dir).fault = s.fault ∧ (s.clearHalt ep dir).resp = s.resp ∧
    (s.clearHalt ep dir).cmd = s.cmd ∧ (s.clearHalt ep dir).busy = s.busy ∧
    (s.clearHalt ep dir).usbie = s.usbie ∧ (s.clearHalt ep dir).sched = s.sched ∧
    (s.clearHalt ep dir).hookTape = s.hookTape ∧ (s.clearHalt ep dir).response = s.response ∧
    (s.clearHalt ep dir).trace = s.trace ∧
    (s.clearHalt ep dir).draws = s.draws := by
  simp [State.clearHalt]

@[simp] theorem State.requestError_frame (s : State) (c : ErrorCause) :
    (s.requestError c).cfg = s.cfg ∧ (s.requestError c).rom = s.rom ∧
    (s.requestError c).engPp = s.engPp ∧ (s.requestError c).devState = s.devState ∧
    (s.requestError c).suspended = s.suspended ∧ (s.requestError c).config = s.config ∧
    (s.requestError c).devAddr = s.devAddr ∧ (s.requestError c).newAddr = s.newAddr ∧
    (s.requestError c).addrPending = s.addrPending ∧ (s.requestError c).epen = s.epen ∧
    (s.requestError c).usbEn = s.usbEn ∧ (s.requestError c).setup = s.setup ∧
    (s.requestError c).ir = s.ir ∧ (s.requestError c).tq = s.tq ∧
    (s.requestError c).setupHold = s.setupHold ∧ (s.requestError c).fault = s.fault ∧
    (s.requestError c).resp = s.resp ∧ (s.requestError c).cmd = s.cmd ∧
    (s.requestError c).busy = s.busy ∧ (s.requestError c).usbie = s.usbie ∧
    (s.requestError c).sched = s.sched ∧ (s.requestError c).hookTape = s.hookTape ∧
    (s.requestError c).response = s.response ∧
    (s.requestError c).draws = s.draws := by
  simp [State.requestError]

@[simp] theorem State.setupPrologue_frame (s : State) :
    (s.setupPrologue).cfg = s.cfg ∧ (s.setupPrologue).rom = s.rom ∧
    (s.setupPrologue).engPp = s.engPp ∧ (s.setupPrologue).devState = s.devState ∧
    (s.setupPrologue).suspended = s.suspended ∧ (s.setupPrologue).config = s.config ∧
    (s.setupPrologue).devAddr = s.devAddr ∧ (s.setupPrologue).newAddr = s.newAddr ∧
    (s.setupPrologue).epen = s.epen ∧ (s.setupPrologue).usbEn = s.usbEn ∧
    (s.setupPrologue).setup = s.setup ∧ (s.setupPrologue).ir = s.ir ∧
    (s.setupPrologue).tq = s.tq ∧ (s.setupPrologue).setupHold = s.setupHold ∧
    (s.setupPrologue).fault = s.fault ∧ (s.setupPrologue).resp = s.resp ∧
    (s.setupPrologue).cmd = s.cmd ∧ (s.setupPrologue).busy = s.busy ∧
    (s.setupPrologue).usbie = s.usbie ∧ (s.setupPrologue).sched = s.sched ∧
    (s.setupPrologue).hookTape = s.hookTape ∧ (s.setupPrologue).response = s.response ∧
    (s.setupPrologue).trace = s.trace ∧
    (s.setupPrologue).draws = s.draws := by
  simp [State.setupPrologue]

@[simp] theorem State.armed_frame (s : State) (keep toi : Bool) (ep : BitVec 4) (dir : Dir) (slot : Slot) (tgl : Bool) (buf cnt : Half) :
    (s.armed keep toi ep dir slot tgl buf cnt).cfg = s.cfg ∧ (s.armed keep toi ep dir slot tgl buf cnt).rom = s.rom ∧
    (s.armed keep toi ep dir slot tgl buf cnt).engPp = s.engPp ∧ (s.armed keep toi ep dir slot tgl buf cnt).devState = s.devState ∧
    (s.armed keep toi ep dir slot tgl buf cnt).suspended = s.suspended ∧ (s.armed keep toi ep dir slot tgl buf cnt).config = s.config ∧
    (s.armed keep toi ep dir slot tgl buf cnt).devAddr = s.devAddr ∧ (s.armed keep toi ep dir slot tgl buf cnt).newAddr = s.newAddr ∧
    (s.armed keep toi ep dir slot tgl buf cnt).addrPending = s.addrPending ∧ (s.armed keep toi ep dir slot tgl buf cnt).epen = s.epen ∧
    (s.armed keep toi ep dir slot tgl buf cnt).usbEn = s.usbEn ∧ (s.armed keep toi ep dir slot tgl buf cnt).setup = s.setup ∧
    (s.armed keep toi ep dir slot tgl buf cnt).ctx = s.ctx ∧ (s.armed keep toi ep dir slot tgl buf cnt).ir = s.ir ∧
    (s.armed keep toi ep dir slot tgl buf cnt).tq = s.tq ∧ (s.armed keep toi ep dir slot tgl buf cnt).setupHold = s.setupHold ∧
    (s.armed keep toi ep dir slot tgl buf cnt).fault = s.fault ∧ (s.armed keep toi ep dir slot tgl buf cnt).resp = s.resp ∧
    (s.armed keep toi ep dir slot tgl buf cnt).cmd = s.cmd ∧ (s.armed keep toi ep dir slot tgl buf cnt).busy = s.busy ∧
    (s.armed keep toi ep dir slot tgl buf cnt).usbie = s.usbie ∧ (s.armed keep toi ep dir slot tgl buf cnt).sched = s.sched ∧
    (s.armed keep toi ep dir slot tgl buf cnt).hookTape = s.hookTape ∧ (s.armed keep toi ep dir slot tgl buf cnt).response = s.response ∧
    (s.armed keep toi ep dir slot tgl buf cnt).trace = s.trace ∧
    (s.armed keep toi ep dir slot tgl buf cnt).draws = s.draws := by
  refine ⟨rfl, rfl, rfl, rfl, rfl, rfl, rfl, rfl, rfl, rfl, rfl, rfl, rfl, rfl, rfl, rfl, rfl, rfl, rfl, rfl, rfl, rfl, rfl, rfl, rfl, rfl⟩

@[simp] theorem State.staged_frame (s : State) (k : Nat) :
    (s.staged k).cfg = s.cfg ∧ (s.staged k).rom = s.rom ∧
    (s.staged k).eps = s.eps ∧ (s.staged k).engPp = s.engPp ∧
    (s.staged k).devState = s.devState ∧ (s.staged k).suspended = s.suspended ∧
    (s.staged k).config = s.config ∧ (s.staged k).devAddr = s.devAddr ∧
    (s.staged k).newAddr = s.newAddr ∧ (s.staged k).addrPending = s.addrPending ∧
    (s.staged k).epen = s.epen ∧ (s.staged k).usbEn = s.usbEn ∧
    (s.staged k).setup = s.setup ∧ (s.staged k).ir = s.ir ∧
    (s.staged k).tq = s.tq ∧ (s.staged k).setupHold = s.setupHold ∧
    (s.staged k).fault = s.fault ∧ (s.staged k).resp = s.resp ∧
    (s.staged k).cmd = s.cmd ∧ (s.staged k).busy = s.busy ∧
    (s.staged k).usbie = s.usbie ∧ (s.staged k).sched = s.sched ∧
    (s.staged k).hookTape = s.hookTape ∧ (s.staged k).response = s.response ∧
    (s.staged k).trace = s.trace := by
  refine ⟨rfl, rfl, rfl, rfl, rfl, rfl, rfl, rfl, rfl, rfl, rfl, rfl, rfl, rfl, rfl, rfl, rfl, rfl, rfl, rfl, rfl, rfl, rfl, rfl, rfl⟩

@[simp] theorem State.consumed_frame (s : State) (count : BitVec 10) :
    (s.consumed count).cfg = s.cfg ∧ (s.consumed count).rom = s.rom ∧
    (s.consumed count).eps = s.eps ∧ (s.consumed count).engPp = s.engPp ∧
    (s.consumed count).devState = s.devState ∧ (s.consumed count).suspended = s.suspended ∧
    (s.consumed count).config = s.config ∧ (s.consumed count).devAddr = s.devAddr ∧
    (s.consumed count).newAddr = s.newAddr ∧ (s.consumed count).addrPending = s.addrPending ∧
    (s.consumed count).epen = s.epen ∧ (s.consumed count).usbEn = s.usbEn ∧
    (s.consumed count).setup = s.setup ∧ (s.consumed count).ir = s.ir ∧
    (s.consumed count).tq = s.tq ∧ (s.consumed count).setupHold = s.setupHold ∧
    (s.consumed count).fault = s.fault ∧ (s.consumed count).resp = s.resp ∧
    (s.consumed count).cmd = s.cmd ∧ (s.consumed count).busy = s.busy ∧
    (s.consumed count).usbie = s.usbie ∧ (s.consumed count).sched = s.sched ∧
    (s.consumed count).hookTape = s.hookTape ∧ (s.consumed count).response = s.response ∧
    (s.consumed count).trace = s.trace := by
  refine ⟨rfl, rfl, rfl, rfl, rfl, rfl, rfl, rfl, rfl, rfl, rfl, rfl, rfl, rfl, rfl, rfl, rfl, rfl, rfl, rfl, rfl, rfl, rfl, rfl, rfl⟩

@[simp] theorem State.xferContext_frame (s : State) (kind : Kind) (src avail req : Half) :
    (s.xferContext kind src avail req).cfg = s.cfg ∧ (s.xferContext kind src avail req).ram = s.ram ∧
    (s.xferContext kind src avail req).rom = s.rom ∧ (s.xferContext kind src avail req).eps = s.eps ∧
    (s.xferContext kind src avail req).engPp = s.engPp ∧ (s.xferContext kind src avail req).devState = s.devState ∧
    (s.xferContext kind src avail req).suspended = s.suspended ∧ (s.xferContext kind src avail req).config = s.config ∧
    (s.xferContext kind src avail req).devAddr = s.devAddr ∧ (s.xferContext kind src avail req).newAddr = s.newAddr ∧
    (s.xferContext kind src avail req).addrPending = s.addrPending ∧ (s.xferContext kind src avail req).epen = s.epen ∧
    (s.xferContext kind src avail req).usbEn = s.usbEn ∧ (s.xferContext kind src avail req).setup = s.setup ∧
    (s.xferContext kind src avail req).ir = s.ir ∧ (s.xferContext kind src avail req).tq = s.tq ∧
    (s.xferContext kind src avail req).setupHold = s.setupHold ∧ (s.xferContext kind src avail req).fault = s.fault ∧
    (s.xferContext kind src avail req).resp = s.resp ∧ (s.xferContext kind src avail req).cmd = s.cmd ∧
    (s.xferContext kind src avail req).busy = s.busy ∧ (s.xferContext kind src avail req).usbie = s.usbie ∧
    (s.xferContext kind src avail req).sched = s.sched ∧ (s.xferContext kind src avail req).hookTape = s.hookTape ∧
    (s.xferContext kind src avail req).response = s.response ∧ (s.xferContext kind src avail req).trace = s.trace ∧
    (s.xferContext kind src avail req).draws = s.draws := by
  refine ⟨rfl, rfl, rfl, rfl, rfl, rfl, rfl, rfl, rfl, rfl, rfl, rfl, rfl, rfl, rfl, rfl, rfl, rfl, rfl, rfl, rfl, rfl, rfl, rfl, rfl, rfl, rfl⟩

@[simp] theorem State.received_frame (s : State) (ep : BitVec 4) (slot : Slot) (data : List Byte) :
    (s.received ep slot data).cfg = s.cfg ∧ (s.received ep slot data).rom = s.rom ∧
    (s.received ep slot data).eps = s.eps ∧ (s.received ep slot data).engPp = s.engPp ∧
    (s.received ep slot data).devState = s.devState ∧ (s.received ep slot data).suspended = s.suspended ∧
    (s.received ep slot data).config = s.config ∧ (s.received ep slot data).devAddr = s.devAddr ∧
    (s.received ep slot data).newAddr = s.newAddr ∧ (s.received ep slot data).addrPending = s.addrPending ∧
    (s.received ep slot data).epen = s.epen ∧ (s.received ep slot data).usbEn = s.usbEn ∧
    (s.received ep slot data).setup = s.setup ∧ (s.received ep slot data).ctx = s.ctx ∧
    (s.received ep slot data).ir = s.ir ∧ (s.received ep slot data).tq = s.tq ∧
    (s.received ep slot data).setupHold = s.setupHold ∧ (s.received ep slot data).fault = s.fault ∧
    (s.received ep slot data).resp = s.resp ∧ (s.received ep slot data).cmd = s.cmd ∧
    (s.received ep slot data).busy = s.busy ∧ (s.received ep slot data).usbie = s.usbie ∧
    (s.received ep slot data).sched = s.sched ∧ (s.received ep slot data).hookTape = s.hookTape ∧
    (s.received ep slot data).response = s.response ∧ (s.received ep slot data).trace = s.trace ∧
    (s.received ep slot data).draws = s.draws := by
  refine ⟨rfl, rfl, rfl, rfl, rfl, rfl, rfl, rfl, rfl, rfl, rfl, rfl, rfl, rfl, rfl, rfl, rfl, rfl, rfl, rfl, rfl, rfl, rfl, rfl, rfl, rfl, rfl⟩

@[simp] theorem State.report_frame (s : State) (r : Completion) :
    (s.report r).cfg = s.cfg ∧ (s.report r).ram = s.ram ∧
    (s.report r).rom = s.rom ∧ (s.report r).eps = s.eps ∧
    (s.report r).devState = s.devState ∧ (s.report r).suspended = s.suspended ∧
    (s.report r).config = s.config ∧ (s.report r).devAddr = s.devAddr ∧
    (s.report r).newAddr = s.newAddr ∧ (s.report r).addrPending = s.addrPending ∧
    (s.report r).epen = s.epen ∧ (s.report r).usbEn = s.usbEn ∧
    (s.report r).setup = s.setup ∧ (s.report r).ctx = s.ctx ∧
    (s.report r).ir = s.ir ∧ (s.report r).setupHold = s.setupHold ∧
    (s.report r).fault = s.fault ∧ (s.report r).resp = s.resp ∧
    (s.report r).cmd = s.cmd ∧ (s.report r).busy = s.busy ∧
    (s.report r).usbie = s.usbie ∧ (s.report r).sched = s.sched ∧
    (s.report r).hookTape = s.hookTape ∧ (s.report r).response = s.response ∧
    (s.report r).trace = s.trace ∧
    (s.report r).draws = s.draws := by
  simp [State.report]

/-! ### What the plain updates write -/

@[simp] theorem State.faulted_fault (s : State) (c : FaultCause) : (s.faulted c).fault = s.fault.set c := rfl
@[simp] theorem State.faulted_resp (s : State) (c : FaultCause) : (s.faulted c).resp = 0xFFFF := rfl
@[simp] theorem State.destroyCtx_ctx (s : State) : s.destroyCtx.ctx = Ctx.destroyed := rfl
@[simp] theorem State.requestError_ctx (s : State) (c : ErrorCause) : (s.requestError c).ctx = Ctx.destroyed := rfl
@[simp] theorem State.requestError_trace (s : State) (c : ErrorCause) :
    (s.requestError c).trace = s.trace ++ [TraceItem.requestError c] := by simp [State.requestError]
@[simp] theorem State.respond_response (s : State) (r : Response) : (s.respond r).response = some r := rfl
@[simp] theorem State.report_tq (s : State) (r : Completion) : (s.report r).tq = s.tq ++ [r] := by
  simp [State.report]
@[simp] theorem State.begin_sched (s : State) (rest : List Input) : (s.begin rest).sched = rest := rfl
@[simp] theorem State.begin_response (s : State) (rest : List Input) : (s.begin rest).response = none := rfl
@[simp] theorem State.begin_trace (s : State) (rest : List Input) : (s.begin rest).trace = [] := rfl
@[simp] theorem State.setupPrologue_ctx (s : State) :
    s.setupPrologue.ctx = { Ctx.destroyed with stage := .setup } := by simp [State.setupPrologue]
@[simp] theorem State.setupPrologue_addrPending (s : State) : s.setupPrologue.addrPending = false := by
  simp [State.setupPrologue]

/-! ### Endpoint records -/

theorem epIx_inj {ep ep' : BitVec 4} {dir dir' : Dir} : epIx ep dir = epIx ep' dir' ↔ ep = ep' ∧ dir = dir' := by
  constructor
  · intro h
    have h := congrArg Fin.val h
    simp only [epIx] at h
    cases dir <;> cases dir' <;> simp only [Dir.toNat] at h <;>
      first
      | omega
      | exact ⟨BitVec.eq_of_toNat_eq (by omega), rfl⟩
  · rintro ⟨rfl, rfl⟩; rfl

/-- A record after a write of one record (R26). -/
theorem State.epsAt_setEps (s : State) (ep ep' : BitVec 4) (dir dir' : Dir) (e : Eps) :
    (s.setEps ep dir e).epsAt ep' dir' = if ep' = ep ∧ dir' = dir then e else s.epsAt ep' dir' := by
  simp only [State.epsAt, State.setEps, Fin.getElem_fin, Vector.getElem_set]
  by_cases h : ep' = ep ∧ dir' = dir
  · obtain ⟨rfl, rfl⟩ := h; simp
  · rw [if_neg h, if_neg]
    intro hc
    have := (epIx_inj (ep := ep) (ep' := ep') (dir := dir) (dir' := dir')).mp (Fin.ext hc)
    exact h ⟨this.1.symm, this.2.symm⟩

@[simp] theorem State.epsAt_setToggle (s : State) (ep ep' : BitVec 4) (dir dir' : Dir) (x : Bool) :
    (s.setToggle ep dir x).epsAt ep' dir' =
      if ep' = ep ∧ dir' = dir then { s.epsAt ep dir with toggle := x } else s.epsAt ep' dir' :=
  State.epsAt_setEps _ _ _ _ _ _

@[simp] theorem State.epsAt_setHalt (s : State) (ep ep' : BitVec 4) (dir dir' : Dir) (x : Bool) :
    (s.setHalt ep dir x).epsAt ep' dir' =
      if ep' = ep ∧ dir' = dir then { s.epsAt ep dir with halt := x } else s.epsAt ep' dir' :=
  State.epsAt_setEps _ _ _ _ _ _

/-- ENG's pointers after a completion (R289). -/
theorem State.engSlotBit_flipEngPp (s : State) (ep ep' : BitVec 4) (dir dir' : Dir) :
    (s.flipEngPp ep dir).engSlotBit ep' dir' =
      if (ep' = ep ∧ dir' = dir) ∧ pp s.cfg ep dir then (s.engSlotBit ep dir).other
      else s.engSlotBit ep' dir' := by
  unfold State.flipEngPp
  by_cases hp : pp s.cfg ep dir
  · simp only [hp, if_true, and_true]
    simp only [State.engSlotBit, Fin.getElem_fin, Vector.getElem_set]
    by_cases h : ep' = ep ∧ dir' = dir
    · obtain ⟨rfl, rfl⟩ := h; simp
    · rw [if_neg h, if_neg]
      intro hc
      have := (epIx_inj (ep := ep) (ep' := ep') (dir := dir) (dir' := dir')).mp (Fin.ext hc)
      exact h ⟨this.1.symm, this.2.symm⟩
  · simp [hp]

/-- A read of a record depends on the table of records only. -/
theorem State.epsAt_congr {s t : State} (h : t.eps = s.eps) (ep : BitVec 4) (dir : Dir) :
    t.epsAt ep dir = s.epsAt ep dir := by simp [State.epsAt, h]

/-- The next slot depends on the policy and the record only. -/
theorem State.nextSlot_congr {s t : State} (hc : t.cfg = s.cfg) (h : t.eps = s.eps) (ep : BitVec 4) (dir : Dir) :
    t.nextSlot ep dir = s.nextSlot ep dir := by simp [State.nextSlot, State.epsAt, hc, h]

end Sys2Proof.Machine
end

