-- ==== Sys2Proof/Laws/Descriptor.lean ====
section
/-! SUPPORT. The laws of descriptors: where they lie, the round trip of their bytes, a read after each kind of
write. -/

namespace Sys2Proof.Machine

/-! ### Places -/

theorem bdAddr_eq (c : Params) (ep : BitVec 4) (dir : Dir) (slot : Slot) :
    bdAddr c ep dir slot = c.bdtBase.toNat + (16 * ep.toNat + 8 * dir.toNat + 4 * slot.toNat) := by
  unfold bdAddr; omega

/-- A descriptor of an endpoint below `NEP` lies in the table (R22). -/
theorem bdAddr_bounds (c : Params) (ep : BitVec 4) (dir : Dir) (slot : Slot) (h : ep.toNat < c.nep) :
    c.bdtBase.toNat ≤ bdAddr c ep dir slot ∧ bdAddr c ep dir slot + 4 ≤ c.bdtBase.toNat + 16 * c.nep := by
  rw [bdAddr_eq]
  cases dir <;> cases slot <;> simp only [Dir.toNat, Slot.toNat] <;> omega

/-- With well-formed parameters the table lies in RAM (R63, R66). -/
theorem bdAddr_lt (c : Params) (hc : c.wf) (ep : BitVec 4) (dir : Dir) (slot : Slot) (h : ep.toNat < c.nep) :
    bdAddr c ep dir slot + 4 ≤ spaceSize := by
  have := bdAddr_bounds c ep dir slot h
  have := hc.2.2.2.2.2.1
  omega

/-- Different descriptors share no byte (R22). -/
theorem bdAddr_apart (c : Params) {ep ep' : BitVec 4} {dir dir' : Dir} {slot slot' : Slot}
    (h : ¬ (ep' = ep ∧ dir' = dir ∧ slot' = slot)) :
    bdAddr c ep dir slot + 4 ≤ bdAddr c ep' dir' slot' ∨ bdAddr c ep' dir' slot' + 4 ≤ bdAddr c ep dir slot := by
  rw [bdAddr_eq, bdAddr_eq]
  have he : ep' = ep ↔ ep'.toNat = ep.toNat := BitVec.toNat_inj.symm
  rw [he] at h
  cases dir <;> cases dir' <;> cases slot <;> cases slot' <;>
    simp only [Dir.toNat, Slot.toNat, reduceCtorEq, and_true, and_false, not_false_eq_true] at h ⊢ <;>
    omega

/-! ### Bytes -/

theorem Bd.ofBytes_stat (b : Bd) (c lo hi : Byte) :
    Bd.ofBytes b.stat c lo hi = { b with cnt := b.cnt.extractLsb' 8 2 ++ c, addr := hi ++ lo } := by
  obtain ⟨own, dts, keep, toi, stall, cnt, addr⟩ := b
  have e : (Bd.stat ⟨own, dts, keep, toi, stall, cnt, addr⟩).extractLsb' 0 2 = cnt.extractLsb' 8 2 := by
    apply BitVec.eq_of_getLsbD_eq
    intro i hi
    simp only [Bd.stat, BitVec.getLsbD_extractLsb', BitVec.getLsbD_append]
    have : i < 2 := hi
    simp [this]
  simp only [Bd.ofBytes, e, Bd.mk.injEq, and_true]
  simp only [Bd.stat, BitVec.getLsbD_append, BitVec.getLsbD_ofBool]
  simp

theorem cnt_bytes (v : BitVec 10) : v.extractLsb' 8 2 ++ byteOf v 0 = v := by
  apply BitVec.eq_of_getLsbD_eq
  intro i hi
  simp only [byteOf, BitVec.getLsbD_append, BitVec.getLsbD_extractLsb']
  by_cases h : i < 8
  · simp [h]
  · simp [h, show i - 8 < 2 by omega, show 8 + (i - 8) = i by omega]

theorem half_bytes (v : Half) : byteOf v 1 ++ byteOf v 0 = v := by
  apply BitVec.eq_of_getLsbD_eq
  intro i hi
  simp only [byteOf, BitVec.getLsbD_append, BitVec.getLsbD_extractLsb']
  by_cases h : i < 8
  · simp [h]
  · simp [h, show i - 8 < 8 by omega, show 8 + (i - 8) = i by omega]

/-- The four bytes of a descriptor hold all its fields (R21). -/
theorem Bd.ofBytes_bytes (b : Bd) : Bd.ofBytes b.stat (byteOf b.cnt 0) (byteOf b.addr 0) (byteOf b.addr 1) = b := by
  rw [Bd.ofBytes_stat, cnt_bytes, half_bytes]

/-! ### Reads of a descriptor -/

/-- A descriptor's fields depend on its four bytes. -/
theorem State.bd_congr {s t : State} (hc : t.cfg = s.cfg) (ep : BitVec 4) (dir : Dir) (slot : Slot)
    (h : ∀ i < 4, t.ram.read (bdAddr s.cfg ep dir slot + i) = s.ram.read (bdAddr s.cfg ep dir slot + i)) :
    t.bd ep dir slot = s.bd ep dir slot := by
  have h0 := h 0 (by omega)
  have h1 := h 1 (by omega)
  have h2 := h 2 (by omega)
  have h3 := h 3 (by omega)
  simp only [Nat.add_zero] at h0
  simp only [State.bd, hc, h0, h1, h2, h3]

theorem State.bd_of_ram_eq {s t : State} (hc : t.cfg = s.cfg) (hr : t.ram = s.ram) (ep : BitVec 4) (dir : Dir)
    (slot : Slot) : t.bd ep dir slot = s.bd ep dir slot := by simp only [State.bd, hc, hr]

@[simp] theorem State.bd_setEps (s : State) (ep : BitVec 4) (dir : Dir) (e : Eps) (ep' : BitVec 4) (dir' : Dir)
    (slot : Slot) : (s.setEps ep dir e).bd ep' dir' slot = s.bd ep' dir' slot := rfl
@[simp] theorem State.bd_setToggle (s : State) (ep : BitVec 4) (dir : Dir) (x : Bool) (ep' : BitVec 4)
    (dir' : Dir) (slot : Slot) : (s.setToggle ep dir x).bd ep' dir' slot = s.bd ep' dir' slot := rfl
@[simp] theorem State.bd_setHalt (s : State) (ep : BitVec 4) (dir : Dir) (x : Bool) (ep' : BitVec 4)
    (dir' : Dir) (slot : Slot) : (s.setHalt ep dir x).bd ep' dir' slot = s.bd ep' dir' slot := rfl
@[simp] theorem State.bd_destroyCtx (s : State) (ep' : BitVec 4) (dir' : Dir) (slot : Slot) :
    s.destroyCtx.bd ep' dir' slot = s.bd ep' dir' slot := rfl

/-- The arming write (R70): its descriptor. -/
theorem State.bd_writeBd (s : State) (hc : s.cfg.wf) (ep : BitVec 4) (dir : Dir) (slot : Slot) (b : Bd)
    (he : ep.toNat < s.cfg.nep) : (s.writeBd ep dir slot b).bd ep dir slot = b := by
  have hb := bdAddr_lt s.cfg hc ep dir slot he
  conv_rhs => rw [← Bd.ofBytes_bytes b]
  simp only [State.bd, State.writeBd, Memory.read_write, true_and]
  congr 1
  · rw [if_pos (by omega)]
  · rw [if_neg (by omega), if_neg (by omega), if_neg (by omega), if_pos (by omega)]
  · rw [if_neg (by omega), if_neg (by omega), if_pos (by omega)]
  · rw [if_neg (by omega), if_pos (by omega)]

/-- The arming write: every other byte. -/
theorem State.read_writeBd (s : State) (ep : BitVec 4) (dir : Dir) (slot : Slot) (b : Bd) (a : Nat)
    (h : a < bdAddr s.cfg ep dir slot ∨ bdAddr s.cfg ep dir slot + 4 ≤ a) :
    (s.writeBd ep dir slot b).ram.read a = s.ram.read a := by
  simp only [State.writeBd, Memory.read_write]
  rw [if_neg (by omega), if_neg (by omega), if_neg (by omega), if_neg (by omega)]

/-- ENG's completion write of an OUT transaction: its descriptor; the address stays (R71, R286). -/
theorem State.bd_writeCntStat (s : State) (hc : s.cfg.wf) (ep : BitVec 4) (dir : Dir) (slot : Slot) (b : Bd)
    (he : ep.toNat < s.cfg.nep) :
    (s.writeCntStat ep dir slot b).bd ep dir slot = { b with addr := (s.bd ep dir slot).addr } := by
  have hb := bdAddr_lt s.cfg hc ep dir slot he
  simp only [State.bd, State.writeCntStat, Memory.read_write, true_and]
  rw [if_pos (by omega), if_neg (by omega), if_pos (by omega), if_neg (by omega), if_neg (by omega),
    if_neg (by omega), if_neg (by omega), Bd.ofBytes_stat, cnt_bytes]
  rfl

theorem State.read_writeCntStat (s : State) (ep : BitVec 4) (dir : Dir) (slot : Slot) (b : Bd) (a : Nat)
    (h : a < bdAddr s.cfg ep dir slot ∨ bdAddr s.cfg ep dir slot + 2 ≤ a) :
    (s.writeCntStat ep dir slot b).ram.read a = s.ram.read a := by
  simp only [State.writeCntStat, Memory.read_write]
  rw [if_neg (by omega), if_neg (by omega)]

/-- One write of `STAT`: its descriptor, when the new fields keep count and address (R64). -/
theorem State.bd_writeStat (s : State) (hc : s.cfg.wf) (ep : BitVec 4) (dir : Dir) (slot : Slot) (b : Bd)
    (he : ep.toNat < s.cfg.nep) (hn : b.cnt = (s.bd ep dir slot).cnt) (ha : b.addr = (s.bd ep dir slot).addr) :
    (s.writeStat ep dir slot b).bd ep dir slot = b := by
  have hb := bdAddr_lt s.cfg hc ep dir slot he
  have key : (s.writeStat ep dir slot b).bd ep dir slot =
      Bd.ofBytes b.stat (s.ram.read (bdAddr s.cfg ep dir slot + 1)) (s.ram.read (bdAddr s.cfg ep dir slot + 2))
        (s.ram.read (bdAddr s.cfg ep dir slot + 3)) := by
    simp only [State.bd, State.writeStat, Memory.read_write, true_and]
    rw [if_pos (by omega), if_neg (by omega), if_neg (by omega), if_neg (by omega)]
  rw [key, Bd.ofBytes_stat]
  obtain ⟨own, dts, keep, toi, stall, cnt, addr⟩ := b
  simp only at hn ha
  subst ha
  simp only [Bd.mk.injEq, true_and]
  refine ⟨?_, rfl⟩
  rw [hn]
  apply BitVec.eq_of_getLsbD_eq
  intro i hi
  simp only [State.bd, Bd.ofBytes, BitVec.getLsbD_append, BitVec.getLsbD_extractLsb']
  by_cases h : i < 8
  · simp [h]
  · have h2 : i - 8 < 2 := by omega
    simp [h, h2]

theorem State.read_writeStat (s : State) (ep : BitVec 4) (dir : Dir) (slot : Slot) (b : Bd) (a : Nat)
    (h : a ≠ bdAddr s.cfg ep dir slot) : (s.writeStat ep dir slot b).ram.read a = s.ram.read a := by
  simp only [State.writeStat, Memory.read_write]
  rw [if_neg (by omega)]

theorem State.bd_writeStat_other (s : State) {ep ep' : BitVec 4} {dir dir' : Dir} {slot slot' : Slot} (b : Bd)
    (h : ¬ (ep' = ep ∧ dir' = dir ∧ slot' = slot)) :
    (s.writeStat ep dir slot b).bd ep' dir' slot' = s.bd ep' dir' slot' := by
  refine State.bd_congr (by simp) _ _ _ fun i hi => State.read_writeStat _ _ _ _ _ _ ?_
  have := bdAddr_apart s.cfg h
  omega

theorem State.bd_writeBd_other (s : State) {ep ep' : BitVec 4} {dir dir' : Dir} {slot slot' : Slot} (b : Bd)
    (h : ¬ (ep' = ep ∧ dir' = dir ∧ slot' = slot)) :
    (s.writeBd ep dir slot b).bd ep' dir' slot' = s.bd ep' dir' slot' := by
  refine State.bd_congr (by simp) _ _ _ fun i hi => State.read_writeBd _ _ _ _ _ _ ?_
  have := bdAddr_apart s.cfg h
  omega

/-! ### One `STAT` write for every slot -/

/-- A change of `STAT` only. -/
def KeepsBuffer (f : Bd → Bd) : Prop := ∀ b, (f b).cnt = b.cnt ∧ (f b).addr = b.addr

theorem keepsBuffer_stalled : KeepsBuffer Bd.stalled := fun _ => ⟨rfl, rfl⟩
theorem keepsBuffer_reclaimed : KeepsBuffer Bd.reclaimed := fun _ => ⟨rfl, rfl⟩
theorem keepsBuffer_returned : KeepsBuffer Bd.returned := fun _ => ⟨rfl, rfl⟩
theorem keepsBuffer_disowned : KeepsBuffer Bd.disowned := fun _ => ⟨rfl, rfl⟩
theorem keepsBuffer_completed : KeepsBuffer Bd.completed := fun _ => ⟨rfl, rfl⟩

/-- What a loop over the slots of an endpoint direction does to every descriptor (R9). -/
theorem State.bd_overSlots (s : State) (hc : s.cfg.wf) (ep : BitVec 4) (dir : Dir) (f : Bd → Bd)
    (hf : KeepsBuffer f) (he : ep.toNat < s.cfg.nep) (ep' : BitVec 4) (dir' : Dir) (slot : Slot) :
    (s.overSlots ep dir f).bd ep' dir' slot =
      if ep' = ep ∧ dir' = dir ∧ slot ∈ slots s.cfg ep dir then f (s.bd ep' dir' slot) else s.bd ep' dir' slot := by
  have own : ∀ (u : State) (sl : Slot), u.cfg = s.cfg →
      (u.writeStat ep dir sl (f (u.bd ep dir sl))).bd ep dir sl = f (u.bd ep dir sl) := fun u sl hu =>
    State.bd_writeStat u (hu ▸ hc) ep dir sl _ (hu ▸ he) (hf _).1 (hf _).2
  by_cases h : ep' = ep ∧ dir' = dir
  · obtain ⟨rfl, rfl⟩ := h
    by_cases hp : pp s.cfg ep' dir'
    · simp only [State.overSlots, slots, hp, if_true, List.foldl_cons, List.foldl_nil, true_and]
      cases slot with
      | even =>
        rw [State.bd_writeStat_other _ _ (by simp), own _ _ rfl]
        simp
      | odd =>
        rw [own _ _ (by simp), State.bd_writeStat_other _ _ (by simp)]
        simp
    · simp only [State.overSlots, slots, hp, if_false, List.foldl_cons, List.foldl_nil, true_and,
        Bool.false_eq_true]
      cases slot with
      | even => rw [own _ _ rfl]; simp
      | odd => rw [State.bd_writeStat_other _ _ (by simp)]; simp
  · rw [if_neg (by tauto)]
    have hne : ∀ sl, ¬ (ep' = ep ∧ dir' = dir ∧ slot = sl) := fun sl hh => h ⟨hh.1, hh.2.1⟩
    unfold State.overSlots slots
    split
    · simp only [List.foldl_cons, List.foldl_nil]
      rw [State.bd_writeStat_other _ _ (hne _), State.bd_writeStat_other _ _ (hne _)]
    · simp only [List.foldl_cons, List.foldl_nil]
      rw [State.bd_writeStat_other _ _ (hne _)]

/-- The bytes that such a loop leaves alone. -/
theorem State.read_overSlots (s : State) (ep : BitVec 4) (dir : Dir) (f : Bd → Bd) (a : Nat)
    (h : ∀ slot ∈ slots s.cfg ep dir, a ≠ bdAddr s.cfg ep dir slot) :
    (s.overSlots ep dir f).ram.read a = s.ram.read a := by
  unfold State.overSlots
  unfold slots at h ⊢
  split
  · rename_i hp
    simp only [hp, if_true, List.mem_cons, List.not_mem_nil, or_false, forall_eq_or_imp, forall_eq] at h
    simp only [List.foldl_cons, List.foldl_nil]
    rw [State.read_writeStat _ _ _ _ _ _ (by simpa using h.2), State.read_writeStat _ _ _ _ _ _ h.1]
  · rename_i hp
    simp only [hp, if_false, List.mem_cons, List.not_mem_nil, or_false, forall_eq, Bool.false_eq_true] at h
    simp only [List.foldl_cons, List.foldl_nil]
    rw [State.read_writeStat _ _ _ _ _ _ h]

/-! ### The canonical form -/

theorem State.wf_writeStat {s : State} (h : s.ram.wf) (ep : BitVec 4) (dir : Dir) (slot : Slot) (b : Bd) :
    (s.writeStat ep dir slot b).ram.wf := Memory.wf_write h _ _

theorem State.wf_writeCntStat {s : State} (h : s.ram.wf) (ep : BitVec 4) (dir : Dir) (slot : Slot) (b : Bd) :
    (s.writeCntStat ep dir slot b).ram.wf := Memory.wf_write (Memory.wf_write h _ _) _ _

theorem State.wf_writeBd {s : State} (h : s.ram.wf) (ep : BitVec 4) (dir : Dir) (slot : Slot) (b : Bd) :
    (s.writeBd ep dir slot b).ram.wf :=
  Memory.wf_write (Memory.wf_write (Memory.wf_write (Memory.wf_write h _ _) _ _) _ _) _ _

theorem State.wf_overSlots {s : State} (h : s.ram.wf) (ep : BitVec 4) (dir : Dir) (f : Bd → Bd) :
    (s.overSlots ep dir f).ram.wf := by
  unfold State.overSlots slots
  split
  · exact State.wf_writeStat (State.wf_writeStat h _ _ _ _) _ _ _ _
  · exact State.wf_writeStat h _ _ _ _

theorem State.wf_clearEndpoints {s : State} (h : s.ram.wf) : s.clearEndpoints.ram.wf :=
  Memory.wf_fillZero h _ _

end Sys2Proof.Machine
end

