-- ==== Sys2Proof/Laws/Encoding.lean ====
section
/-! SUPPORT. The bit positions of the encodings, read and written: each direction undoes the other. -/

namespace Sys2Proof

theorem CmdFields.unpack_pack (f : CmdFields) : CmdFields.unpack f.pack = f := by
  cases f
  simp only [CmdFields.unpack, CmdFields.pack, CmdFields.mk.injEq]
  refine ⟨?_, ?_, ?_, ?_, ?_, ?_, ?_, ?_, ?_, ?_, ?_⟩ <;>
  · apply BitVec.eq_of_getLsbD_eq
    intro i hi
    simp only [BitVec.getLsbD_extractLsb', BitVec.getLsbD_append]
    interval_cases i <;> simp

theorem CmdFields.pack_unpack (w : Word64) : (CmdFields.unpack w).pack = w := by
  simp only [CmdFields.unpack, CmdFields.pack]
  apply BitVec.eq_of_getLsbD_eq
  intro i hi
  simp only [BitVec.getLsbD_extractLsb', BitVec.getLsbD_append]
  interval_cases i <;> simp

theorem SetupFields.unpack_pack (f : SetupFields) : SetupFields.unpack f.pack = f := by
  cases f
  simp only [SetupFields.unpack, SetupFields.pack, SetupFields.mk.injEq]
  refine ⟨?_, ?_, ?_, ?_, ?_⟩ <;>
  · apply BitVec.eq_of_getLsbD_eq
    intro i hi
    simp only [BitVec.getLsbD_extractLsb', BitVec.getLsbD_append]
    interval_cases i <;> simp

theorem SetupFields.pack_unpack (sp : Word64) : (SetupFields.unpack sp).pack = sp := by
  simp only [SetupFields.unpack, SetupFields.pack]
  apply BitVec.eq_of_getLsbD_eq
  intro i hi
  simp only [BitVec.getLsbD_extractLsb', BitVec.getLsbD_append]
  interval_cases i <;> simp

theorem flag_ofBool (b : Bool) : flag (.ofBool b) = b := by cases b <;> rfl
theorem ofBool_flag (b : BitVec 1) : BitVec.ofBool (flag b) = b := by revert b; decide
theorem Dir.ofBit_bit (d : Dir) : Dir.ofBit d.bit = d := by cases d <;> rfl
theorem Dir.bit_ofBit (b : BitVec 1) : (Dir.ofBit b).bit = b := by revert b; decide
theorem Slot.ofBit_bit (d : Slot) : Slot.ofBit d.bit = d := by cases d <;> rfl
theorem Slot.bit_ofBit (b : BitVec 1) : (Slot.ofBit b).bit = b := by revert b; decide

/-- A checked word has no bit outside its kept fields (R93). -/
theorem CmdFields.checked_ok {f k : CmdFields} {i j : Instr} (h : f.checked k i = .ok j) : f = k ∧ i = j := by
  unfold CmdFields.checked at h
  split at h
  · injection h with h; exact ⟨‹_›, h⟩
  · cases h

namespace Machine

/-- A command word decodes to INIT, SERVICE, SHUTDOWN or an operation that a hook performs as it is (R267). -/
theorem hookCommand_exec {w : Word64} {i : Instr} (h : decodeCmd w = .ok i) :
    i = .init ∨ i = .service ∨ i = .shutdown ∨ ∀ s, (hookCommand i s).toOutcome = exec i s := by
  unfold decodeCmd decodeFields at h
  split at h
  all_goals first
    | cases h
    | (obtain ⟨-, rfl⟩ := CmdFields.checked_ok h
       first
       | exact .inl rfl
       | exact .inr (.inl rfl)
       | exact .inr (.inr (.inl rfl))
       | exact .inr (.inr (.inr fun s => rfl)))

/-- The opcodes that R96 checks first are those of INIT, SERVICE and SHUTDOWN. -/
theorem reentrantOpcode_false {w : Word64} {i : Instr} (h : decodeCmd w = .ok i) (hr : reentrantOpcode w = false) :
    i ≠ .init ∧ i ≠ .service ∧ i ≠ .shutdown := by
  have key : ∀ n : Nat, (CmdFields.unpack w).opc.toNat = n → n ≠ 1 ∧ n ≠ 2 ∧ n ≠ 3 := by
    rintro n rfl
    simp only [reentrantOpcode, Bool.or_eq_false_iff, decide_eq_false_iff_not] at hr
    exact ⟨fun h => hr.1.1 (BitVec.eq_of_toNat_eq h), fun h => hr.1.2 (BitVec.eq_of_toNat_eq h),
      fun h => hr.2 (BitVec.eq_of_toNat_eq h)⟩
  unfold decodeCmd decodeFields at h
  split at h
  all_goals first
    | cases h
    | (rename_i ho
       have hk := key _ ho
       obtain ⟨-, rfl⟩ := CmdFields.checked_ok h
       first
       | exact absurd rfl hk.1
       | exact absurd rfl hk.2.1
       | exact absurd rfl hk.2.2
       | exact ⟨Instr.noConfusion, Instr.noConfusion, Instr.noConfusion⟩)

end Machine
end Sys2Proof
end

