-- ==== Sys2Proof/Laws/Ops.lean ====
section
/-! SUPPORT. One lemma per shared operation: what it answers and what its answer holds. -/

namespace Sys2Proof.Machine

/-! ### Outcomes -/

@[simp] theorem Res.bind_ok {α β : Type} (a : α) (s : State) (f : α → State → Res β) :
    (Res.ok a s).bind f = f a s := rfl
@[simp] theorem Res.bind_raised {α β : Type} (s : State) (f : α → State → Res β) :
    (Res.raised s : Res α).bind f = .raised s := rfl
@[simp] theorem Res.toOutcome_ok {α : Type} (a : α) (s : State) : (Res.ok a s).toOutcome = .next s := rfl
@[simp] theorem Res.toOutcome_raised {α : Type} (s : State) : (Res.raised s : Res α).toOutcome = .next s := rfl
@[simp] theorem State.raise_eq {α : Type} (s : State) (c : FaultCause) :
    (s.raise c : Res α) = .raised (s.faulted c) := rfl

theorem Res.bind_eq_ok {α β : Type} {x : Res α} {f : α → State → Res β} {b : β} {t : State}
    (h : x.bind f = .ok b t) : ∃ a s, x = .ok a s ∧ f a s = .ok b t := by
  cases x with
  | ok a s => exact ⟨a, s, rfl, h⟩
  | raised s => cases h

theorem Res.toOutcome_eq_next {α : Type} {x : Res α} {t : State} (h : x.toOutcome = .next t) :
    (∃ a, x = .ok a t) ∨ x = .raised t := by
  cases x with
  | ok a s => injection h with h; exact .inl ⟨a, by rw [h]⟩
  | raised s => injection h with h; exact .inr (by rw [h])

/-- Every end of an operation satisfies `P`, and a raise leaves a fault bit set (R303). -/
def Res.All {α : Type} (P : State → Prop) : Res α → Prop
  | .ok _ s => P s
  | .raised s => P s ∧ s.fault ≠ FaultBits.none

theorem Res.All.bind {α β : Type} {P Q : State → Prop} {x : Res α} {f : α → State → Res β} (hx : x.All P)
    (hf : ∀ a s, P s → (f a s).All Q) (hr : ∀ s, P s → Q s) : (x.bind f).All Q := by
  cases x with
  | ok a s => exact hf a s hx
  | raised s => exact ⟨hr s hx.1, hx.2⟩

theorem Res.All.mono {α : Type} {P Q : State → Prop} {x : Res α} (hx : x.All P) (h : ∀ s, P s → Q s) :
    x.All Q := by
  cases x with
  | ok a s => exact h s hx
  | raised s => exact ⟨h s hx.1, hx.2⟩

theorem Res.All.next {α : Type} {P : State → Prop} {x : Res α} {t : State} (hx : x.All P)
    (h : x.toOutcome = .next t) : P t := by
  rcases Res.toOutcome_eq_next h with ⟨a, rfl⟩ | rfl
  · exact hx
  · exact hx.1

/-- Every operation ends in a next state (R96, R357). -/
theorem Res.All.exists_next {α : Type} {P : State → Prop} {x : Res α} (hx : x.All P) : ∃ t, x.toOutcome = .next t ∧ P t := by
  cases x with
  | ok a s => exact ⟨s, rfl, hx⟩
  | raised s => exact ⟨s, rfl, hx.1⟩

/-- An operation that ends in a state without faults was not abandoned. -/
theorem Res.All.ok_of_faultFree {α : Type} {P : State → Prop} {x : Res α} {t : State} (hx : x.All P)
    (h : x.toOutcome = .next t) (hf : t.fault = FaultBits.none) : ∃ a, x = .ok a t := by
  rcases Res.toOutcome_eq_next h with ha | rfl
  · exact ha
  · exact absurd hf hx.2

theorem State.faulted_ne (s : State) (c : FaultCause) : (s.faulted c).fault ≠ FaultBits.none := by
  intro h
  rw [State.faulted_fault] at h
  cases c <;> injection h <;> contradiction

/-! ### Parameters -/

theorem Params.wf_nep_pos {c : Params} (h : c.wf) : 0 < c.nep := by have := h.1; omega

theorem Params.wf_mps_le {c : Params} (h : c.wf) (ep : BitVec 4) (dir : Dir) :
    1 ≤ mps c ep dir ∧ mps c ep dir ≤ 64 := h.2.1 (epIx ep dir)

theorem Params.wf_mps0_inn {c : Params} (h : c.wf) : mps c 0 .inn = mps0 c := h.2.2.1.symm

theorem Params.wf_mps0_cases {c : Params} (h : c.wf) :
    mps0 c = 8 ∨ mps0 c = 16 ∨ mps0 c = 32 ∨ mps0 c = 64 := h.2.2.2.1

theorem Params.wf_table {c : Params} (h : c.wf) : c.bdtBase.toNat + 16 * c.nep ≤ spaceSize := h.2.2.2.2.2.1

theorem Params.wf_ep0 {c : Params} (h : c.wf) : c.ep0Buf.toNat + mps0 c ≤ spaceSize := h.2.2.2.2.2.2.1

theorem Params.wf_scratch_fits {c : Params} (h : c.wf) : c.scratch.toNat + 2 ≤ spaceSize := h.2.2.2.2.2.2.2.1

theorem Params.wf_table_ep0 {c : Params} (h : c.wf) :
    disjointRanges c.bdtBase.toNat (16 * c.nep) c.ep0Buf.toNat (mps0 c) := h.2.2.2.2.2.2.2.2.1

theorem Params.wf_table_scratch {c : Params} (h : c.wf) :
    disjointRanges c.bdtBase.toNat (16 * c.nep) c.scratch.toNat 2 := h.2.2.2.2.2.2.2.2.2.1

theorem Params.wf_ep0_scratch {c : Params} (h : c.wf) :
    disjointRanges c.ep0Buf.toNat (mps0 c) c.scratch.toNat 2 := h.2.2.2.2.2.2.2.2.2.2.1

theorem Params.wf_csr {c : Params} (h : c.wf) : c.csrBase.toNat + 0x42 ≤ spaceSize := h.2.2.2.2.2.2.2.2.2.2.2.1

theorem fits_iff (a n : Nat) : fits a n = true ↔ n = 0 ∨ a + n ≤ 0x10000 := by
  unfold fits; rw [Bool.or_eq_true, decide_eq_true_iff, decide_eq_true_iff]; exact Iff.rfl

theorem checkEp_iff (c : Params) (ep : BitVec 4) (dir : Dir) (slot : Slot) (n : Nat) :
    checkEp c ep dir slot n = true ↔
      ep.toNat < c.nep ∧ (slot = .odd → pp c ep dir = true) ∧ n ≤ mps c ep dir := by
  cases slot <;> simp [checkEp, and_assoc]

theorem operandsOk_iff (c : Params) (ep : BitVec 4) (dir : Dir) (slot : Slot) (buf n : Half) :
    OperandsOk c ep dir slot buf n ↔
      checkEp c ep dir slot n.toNat = true ∧ fits buf.toNat n.toNat = true := by
  rw [checkEp_iff, fits_iff]; unfold OperandsOk; tauto

/-- The slot an automatic arming selects is one in use (R150). -/
theorem State.nextSlot_odd (s : State) (ep : BitVec 4) (dir : Dir) (h : s.nextSlot ep dir = .odd) :
    pp s.cfg ep dir = true := by
  unfold State.nextSlot at h
  split at h
  · assumption
  · cases h

theorem mem_slots_iff (c : Params) (ep : BitVec 4) (dir : Dir) (slot : Slot) :
    slot ∈ slots c ep dir ↔ (slot = .odd → pp c ep dir = true) := by
  unfold slots; split <;> cases slot <;> simp_all

theorem State.nextSlot_mem (s : State) (ep : BitVec 4) (dir : Dir) : s.nextSlot ep dir ∈ slots s.cfg ep dir :=
  (mem_slots_iff _ _ _ _).mpr (s.nextSlot_odd ep dir)

/-! ### Arming -/

/-- The writes of an arming (R131), whole. -/
theorem State.armed_armedFrom (s : State) (hc : s.cfg.wf) (keep toi : Bool) (ep : BitVec 4) (dir : Dir)
    (slot : Slot) (tgl : Bool) (buf n : Half) (he : ep.toNat < s.cfg.nep) :
    ArmedFrom s (s.armed keep toi ep dir slot tgl buf n) keep toi ep dir slot tgl buf n := by
  refine ⟨rfl, ?_, ?_, ?_, ?_⟩
  · simp only [State.armed, State.bd_setToggle]
    exact State.bd_writeBd s hc ep dir slot _ he
  · simp only [State.armed, State.epsAt_setToggle, and_self, if_true]
    rw [State.epsAt_congr (s := s) (by simp)]
  · intro ep' dir' h
    simp only [State.armed, State.epsAt_setToggle, h, if_false]
    exact State.epsAt_congr (by simp) _ _
  · intro x hx
    simp only [State.armed, State.setToggle_frame]
    exact State.read_writeBd s ep dir slot _ x hx

/-- ARM answers one of three things (R131, R305). -/
theorem armOp_cases (keep toi : Bool) (ep : BitVec 4) (dir : Dir) (slot : Slot) (tgl : Bool) (buf n : Half)
    (s : State) :
    (¬ OperandsOk s.cfg ep dir slot buf n ∧
      armOp keep toi ep dir slot tgl buf n s = .raised (s.faulted .badparam)) ∨
    (OperandsOk s.cfg ep dir slot buf n ∧ (s.bd ep dir slot).own = true ∧
      armOp keep toi ep dir slot tgl buf n s = .raised (s.faulted .darm)) ∨
    (OperandsOk s.cfg ep dir slot buf n ∧ (s.bd ep dir slot).own = false ∧
      armOp keep toi ep dir slot tgl buf n s = .ok () (s.armed keep toi ep dir slot tgl buf n)) := by
  rw [operandsOk_iff]
  unfold armOp
  by_cases h1 : checkEp s.cfg ep dir slot n.toNat = true
  · by_cases h2 : fits buf.toNat n.toNat = true
    · by_cases h3 : (s.bd ep dir slot).own = true
      · simp [h1, h2, h3]
      · simp [h1, h2, h3]
    · simp [h1, h2]
  · simp [h1]

/-- The outcome of an arming, in the words of R131. -/
theorem armOp_outcome (s : State) (hc : s.cfg.wf) (keep toi : Bool) (ep : BitVec 4) (dir : Dir) (slot : Slot)
    (tgl : Bool) (buf n : Half) :
    ArmOutcome s (armOp keep toi ep dir slot tgl buf n s).toOutcome keep toi ep dir slot tgl buf n := by
  rcases armOp_cases keep toi ep dir slot tgl buf n s with ⟨h, e⟩ | ⟨h, ho, e⟩ | ⟨h, ho, e⟩
  · rw [e]; exact ⟨fun _ => rfl, fun h' => absurd h' h, fun h' => absurd h' h⟩
  · rw [e]
    refine ⟨fun h' => absurd h h', fun _ _ => rfl, fun _ h' => ?_⟩
    rw [ho] at h'; cases h'
  · rw [e]
    refine ⟨fun h' => absurd h h', fun _ h' => ?_, fun _ _ => ⟨_, rfl, ?_⟩⟩
    · rw [ho] at h'; cases h'
    exact State.armed_armedFrom s hc keep toi ep dir slot tgl buf n h.1

/-- ARM_OUT, ARM_IN and ARM_EP are one arming at `NextSlot` (R152, R154, R156). -/
theorem armEpOp_eq (keep toi : Bool) (ep : BitVec 4) (dir : Dir) (buf n : Half) (s : State) :
    armEpOp keep toi ep dir buf n s =
      armOp keep toi ep dir (s.nextSlot ep dir) (s.epsAt ep dir).toggle buf n s := by
  have key : ∀ (slot : Slot) (tgl : Bool), s.cfg.nep ≤ ep.toNat →
      armOp keep toi ep dir slot tgl buf n s = s.raise .badparam := by
    intro slot tgl h
    unfold armOp
    rw [if_pos]
    have : checkEp s.cfg ep dir slot n.toNat ≠ true := fun hh => by
      have := ((checkEp_iff _ _ _ _ _).mp hh).1; omega
    simpa using this
  cases dir <;> simp only [armEpOp, armOutOp, armInOp] <;> split
  · exact (key _ _ ‹_›).symm
  · rfl
  · exact (key _ _ ‹_›).symm
  · rfl

theorem armOutOp_eq (keep toi : Bool) (ep : BitVec 4) (buf n : Half) (s : State) :
    armOutOp keep toi ep buf n s =
      armOp keep toi ep .out (s.nextSlot ep .out) (s.epsAt ep .out).toggle buf n s :=
  armEpOp_eq keep toi ep .out buf n s

theorem armInOp_eq (keep toi : Bool) (ep : BitVec 4) (buf n : Half) (s : State) :
    armInOp keep toi ep buf n s =
      armOp keep toi ep .inn (s.nextSlot ep .inn) (s.epsAt ep .inn).toggle buf n s :=
  armEpOp_eq keep toi ep .inn buf n s

/-- What an arming of the EP0 buffer for at most `MPS0` bytes answers: the ownership check is the only one that can
fail. -/
theorem armOp_ep0 (s : State) (hc : s.cfg.wf) (dir : Dir) (tgl : Bool) (n : Half) (hn : n.toNat ≤ mps0 s.cfg) :
    armOp false false 0 dir (s.nextSlot 0 dir) tgl s.cfg.ep0Buf n s =
      if (s.bd 0 dir (s.nextSlot 0 dir)).own then .raised (s.faulted .darm)
      else .ok () (s.armed false false 0 dir (s.nextSlot 0 dir) tgl s.cfg.ep0Buf n) := by
  have hok : OperandsOk s.cfg 0 dir (s.nextSlot 0 dir) s.cfg.ep0Buf n := by
    refine ⟨?_, s.nextSlot_odd 0 dir, ?_, ?_⟩
    · have := Params.wf_nep_pos hc; simpa using this
    · cases dir
      · exact hn
      · rw [Params.wf_mps0_inn hc]; exact hn
    · have := Params.wf_ep0 hc; simp only [spaceSize] at this; omega
  rcases armOp_cases false false 0 dir (s.nextSlot 0 dir) tgl s.cfg.ep0Buf n s with
    ⟨h, _⟩ | ⟨_, ho, e⟩ | ⟨_, ho, e⟩
  · exact absurd hok h
  · rw [e, ho]; rfl
  · rw [e, ho]; rfl

theorem Params.wf_mps0_half {c : Params} (h : c.wf) : (BitVec.ofNat 16 (mps0 c)).toNat = mps0 c := by
  rcases Params.wf_mps0_cases h with e | e | e | e <;> rw [e] <;> rfl

/-- `Ep0OutRearm` never faults (R188, R304). -/
theorem ep0OutRearm_ok (force : Bool) (s : State) (hc : s.cfg.wf) :
    ∃ t, ep0OutRearm force s = .ok () t ∧ RearmedFrom s t force := by
  unfold ep0OutRearm
  by_cases ho : (s.bd 0 .out (s.nextSlot 0 .out)).own = true
  · refine ⟨s, if_pos ho, fun _ => rfl, fun h => ?_⟩
    rw [ho] at h; cases h
  · dsimp only
    rw [if_neg ho, armOp_ep0 s hc .out _ _ (by rw [Params.wf_mps0_half hc]), if_neg ho]
    refine ⟨_, rfl, fun h => absurd h ho, fun _ => ?_⟩
    have := State.armed_armedFrom s hc false false 0 .out (s.nextSlot 0 .out)
      (if force = true then true else (s.epsAt 0 .out).toggle) s.cfg.ep0Buf (BitVec.ofNat 16 (mps0 s.cfg))
      (by have := Params.wf_nep_pos hc; simpa using this)
    cases force <;> simpa using this

/-- What a re-armed state keeps. -/
theorem RearmedFrom.frame {s t : State} {force : Bool} (h : RearmedFrom s t force) :
    t = { s with ram := t.ram, eps := t.eps } := by
  by_cases ho : (s.bd 0 .out (s.nextSlot 0 .out)).own = true
  · rw [h.1 ho]
  · exact (h.2 (by simpa using ho)).1

/-- An arming of an EP0 IN packet: what `armInOp` answers for at most `MPS0` bytes of the EP0 buffer (R154, R158). -/
theorem armInOp_ep0 (s : State) (hc : s.cfg.wf) (n : Half) (hn : n.toNat ≤ mps0 s.cfg) :
    armInOp false false 0 s.cfg.ep0Buf n s =
      if (s.bd 0 .inn (s.nextSlot 0 .inn)).own then .raised (s.faulted .darm)
      else .ok () (s.armed false false 0 .inn (s.nextSlot 0 .inn) (s.epsAt 0 .inn).toggle s.cfg.ep0Buf n) := by
  rw [armInOp_eq, armOp_ep0 s hc .inn _ n hn]

theorem State.nextSlot_setToggle (s : State) (ep ep' : BitVec 4) (dir dir' : Dir) (x : Bool) :
    (s.setToggle ep dir x).nextSlot ep' dir' = s.nextSlot ep' dir' := by
  unfold State.nextSlot
  rw [State.epsAt_setToggle]
  by_cases h : ep' = ep ∧ dir' = dir
  · obtain ⟨rfl, rfl⟩ := h; simp
  · simp [h]

theorem State.nextSlot_setHalt (s : State) (ep ep' : BitVec 4) (dir dir' : Dir) (x : Bool) :
    (s.setHalt ep dir x).nextSlot ep' dir' = s.nextSlot ep' dir' := by
  unfold State.nextSlot
  rw [State.epsAt_setHalt]
  by_cases h : ep' = ep ∧ dir' = dir
  · obtain ⟨rfl, rfl⟩ := h; simp
  · simp [h]

/-- ARM_STATUS IN (R160, R161): DATA1 recorded, then a zero-length packet armed or `DARM`. -/
theorem armStatusOp_inn (s : State) (hc : s.cfg.wf) :
    armStatusOp .inn s =
      if (s.bd 0 .inn (s.nextSlot 0 .inn)).own then .raised ((s.setToggle 0 .inn true).faulted .darm)
      else .ok () ((s.setToggle 0 .inn true).armed false false 0 .inn (s.nextSlot 0 .inn) true s.cfg.ep0Buf 0) := by
  unfold armStatusOp
  have := armInOp_ep0 (s.setToggle 0 .inn true) (by simpa using hc) 0 (by simp)
  simp only [State.setToggle_frame, State.bd_setToggle, State.nextSlot_setToggle, State.epsAt_setToggle, and_self,
    if_true] at this
  exact this

/-- A toggle write before an arming of the same endpoint is absorbed by it. -/
theorem ArmedFrom.of_setToggle {s t : State} {keep toi : Bool} {ep : BitVec 4} {dir : Dir} {slot : Slot} {tgl x : Bool}
    {buf n : Half} (h : ArmedFrom (s.setToggle ep dir x) t keep toi ep dir slot tgl buf n) :
    ArmedFrom s t keep toi ep dir slot tgl buf n := by
  obtain ⟨h1, h2, h3, h4, h5⟩ := h
  refine ⟨?_, h2, ?_, ?_, ?_⟩
  · rw [h1]; rfl
  · rw [h3, State.epsAt_setToggle]; simp
  · intro ep' dir' h
    rw [h4 ep' dir' h, State.epsAt_setToggle, if_neg h]
  · intro x hx
    have := h5 x (by simpa using hx)
    simpa using this

/-! ### Halt -/

theorem State.overSlots_eq (s : State) (ep : BitVec 4) (dir : Dir) (f : Bd → Bd) :
    s.overSlots ep dir f = { s with ram := (s.overSlots ep dir f).ram } := by
  unfold State.overSlots slots; split <;> rfl

/-- STALL_EP's effect (R139), whole. -/
theorem State.stallEndpoint_from (s : State) (hc : s.cfg.wf) (ep : BitVec 4) (dir : Dir) (he : ep.toNat < s.cfg.nep) :
    s.stallEndpoint ep dir = { s with ram := (s.stallEndpoint ep dir).ram, eps := (s.stallEndpoint ep dir).eps } ∧
      StalledFrom s (s.stallEndpoint ep dir) ep dir := by
  refine ⟨?_, ?_, ?_, ?_, ?_⟩
  · unfold State.stallEndpoint; rw [State.overSlots_eq]; rfl
  · unfold State.stallEndpoint
    rw [State.epsAt_congr (s := s.setHalt ep dir true) (by simp), State.epsAt_setHalt]; simp
  · intro ep' dir' h
    unfold State.stallEndpoint
    rw [State.epsAt_congr (s := s.setHalt ep dir true) (by simp), State.epsAt_setHalt, if_neg h]
  · intro slot h
    unfold State.stallEndpoint
    rw [State.bd_overSlots _ (by simpa using hc) _ _ _ keepsBuffer_stalled (by simpa using he),
      if_pos ⟨rfl, rfl, by simpa using h⟩]
    rfl
  · intro x h
    unfold State.stallEndpoint
    rw [State.read_overSlots _ _ _ _ _ (by simpa using h)]; simp

/-- STALL_EP (R139). -/
theorem stallOp_eq (ep : BitVec 4) (dir : Dir) (s : State) :
    stallOp ep dir s = if ep.toNat < s.cfg.nep then .ok () (s.stallEndpoint ep dir) else .raised (s.faulted .badparam) := by
  unfold stallOp
  have h := checkEp_iff s.cfg ep dir .even 0
  by_cases he : ep.toNat < s.cfg.nep
  · rw [if_pos he, if_neg]; simp [h.mpr ⟨he, by simp, by simp⟩]
  · rw [if_neg he, if_pos, State.raise_eq]
    cases hh : checkEp s.cfg ep dir .even 0
    · rfl
    · exact absurd (h.mp hh).1 he

/-- A request error (R186), whole. -/
theorem State.requestError_from (s : State) (hc : s.cfg.wf) (cause : ErrorCause) :
    RequestErrorFrom s (s.requestError cause) cause := by
  have h := State.stallEndpoint_from { s with trace := s.trace ++ [TraceItem.requestError cause] } hc 0 .inn
    (by have := Params.wf_nep_pos hc; simpa using this)
  refine ⟨?_, h.2⟩
  unfold State.requestError
  simp only
  rw [h.1]
  rfl

/-- CLEAR_STALL's writes before the re-arm (R141). -/
theorem State.clearHalt_eq (s : State) (ep : BitVec 4) (dir : Dir) :
    s.clearHalt ep dir = { s with ram := (s.clearHalt ep dir).ram, eps := (s.clearHalt ep dir).eps } := by
  unfold State.clearHalt; rw [State.overSlots_eq]; rfl

theorem State.epsAt_clearHalt (s : State) (ep ep' : BitVec 4) (dir dir' : Dir) :
    (s.clearHalt ep dir).epsAt ep' dir' =
      if ep' = ep ∧ dir' = dir then { s.epsAt ep dir with toggle := false, halt := false } else s.epsAt ep' dir' := by
  unfold State.clearHalt
  rw [State.epsAt_congr (s := (s.setHalt ep dir false).setToggle ep dir false) (by simp), State.epsAt_setToggle]
  split
  · rw [State.epsAt_setHalt]; simp
  · rw [State.epsAt_setHalt, if_neg ‹_›]

theorem State.bd_clearHalt (s : State) (hc : s.cfg.wf) (ep : BitVec 4) (dir : Dir) (he : ep.toNat < s.cfg.nep)
    (ep' : BitVec 4) (dir' : Dir) (slot : Slot) :
    (s.clearHalt ep dir).bd ep' dir' slot =
      if ep' = ep ∧ dir' = dir ∧ slot ∈ slots s.cfg ep dir then Bd.returned (s.bd ep' dir' slot)
      else s.bd ep' dir' slot := by
  unfold State.clearHalt
  rw [State.bd_overSlots _ (by simpa using hc) _ _ _ keepsBuffer_returned (by simpa using he)]
  simp

theorem State.read_clearHalt (s : State) (ep : BitVec 4) (dir : Dir) (a : Nat)
    (h : ∀ slot ∈ slots s.cfg ep dir, a ≠ bdAddr s.cfg ep dir slot) :
    (s.clearHalt ep dir).ram.read a = s.ram.read a := by
  unfold State.clearHalt
  rw [State.read_overSlots _ _ _ _ _ (by simpa using h)]; simp

theorem State.nextSlot_clearHalt (s : State) (ep : BitVec 4) (dir : Dir) :
    (s.clearHalt ep dir).nextSlot ep dir = s.nextSlot ep dir := by
  unfold State.nextSlot
  rw [State.epsAt_clearHalt]
  simp

/-- CLEAR_STALL (R141): its three outcomes. -/
theorem clearStallOp_eq (ep : BitVec 4) (dir : Dir) (s : State) (hc : s.cfg.wf) :
    clearStallOp ep dir s =
      if ep.toNat < s.cfg.nep then
        let b := s.bd ep dir (s.nextSlot ep dir)
        if dir = .out ∧ ep ≠ 0 then
          if b.addr.toNat + mps s.cfg ep dir ≤ 0x10000 then
            .ok () ((s.clearHalt ep dir).armed false false ep dir (s.nextSlot ep dir) false b.addr
              (.ofNat 16 (mps s.cfg ep dir)))
          else .raised ((s.clearHalt ep dir).faulted .badparam)
        else .ok () (s.clearHalt ep dir)
      else .raised (s.faulted .badparam) := by
  unfold clearStallOp
  have h := checkEp_iff s.cfg ep dir .even 0
  by_cases he : ep.toNat < s.cfg.nep
  · rw [if_pos he, if_neg (by simp [h.mpr ⟨he, by simp, by simp⟩])]
    simp only
    by_cases hd : dir = .out ∧ ep ≠ 0
    · obtain ⟨rfl, h0⟩ := hd
      rw [if_pos (by simpa using h0), if_pos ⟨rfl, h0⟩]
      have hbd := State.bd_clearHalt s hc ep .out he ep .out (s.nextSlot ep .out)
      rw [if_pos ⟨rfl, rfl, s.nextSlot_mem ep .out⟩] at hbd
      have hm := Params.wf_mps_le hc ep .out
      have hmn : (BitVec.ofNat 16 (mps s.cfg ep .out)).toNat = mps s.cfg ep .out := by
        rw [BitVec.toNat_ofNat]; exact Nat.mod_eq_of_lt (by omega)
      rw [State.nextSlot_clearHalt, hbd, show (s.clearHalt ep .out).cfg = s.cfg by simp]
      have hiff : OperandsOk s.cfg ep .out (s.nextSlot ep .out) (Bd.returned (s.bd ep .out (s.nextSlot ep .out))).addr
          (.ofNat 16 (mps s.cfg ep .out)) ↔
          (s.bd ep .out (s.nextSlot ep .out)).addr.toNat + mps s.cfg ep .out ≤ 0x10000 := by
        unfold OperandsOk
        rw [hmn]
        refine ⟨fun hh => ?_, fun hh => ⟨he, s.nextSlot_odd ep .out, le_refl _, .inr hh⟩⟩
        rcases hh.2.2.2 with h' | h'
        · omega
        · exact h'
      rcases armOp_cases false false ep .out (s.nextSlot ep .out) false
          (Bd.returned (s.bd ep .out (s.nextSlot ep .out))).addr (.ofNat 16 (mps s.cfg ep .out)) (s.clearHalt ep .out) with
        ⟨ha, e⟩ | ⟨ha, ho, e⟩ | ⟨ha, ho, e⟩
      · rw [show (s.clearHalt ep .out).cfg = s.cfg by simp, hiff] at ha
        rw [e, if_neg ha]
      · rw [hbd] at ho; cases ho
      · rw [show (s.clearHalt ep .out).cfg = s.cfg by simp, hiff] at ha
        rw [e, if_pos ha]; rfl
    · rw [if_neg hd, if_neg (by simpa using hd)]
  · rw [if_neg he, if_pos, State.raise_eq]
    cases hh : checkEp s.cfg ep dir .even 0
    · rfl
    · exact absurd (h.mp hh).1 he

end Sys2Proof.Machine
end

