-- ==== Sys2Proof/Laws/Transfer.lean ====
section
/-! SUPPORT. The data stages: what one chunk (R178), an XFER (R176) and a received chunk (R180) answer. -/

namespace Sys2Proof.Machine

theorem half_add_ofNat (a : Half) (k : Nat) : a + .ofNat 16 k = .ofNat 16 (a.toNat + k) := by
  apply BitVec.eq_of_toNat_eq; simp

theorem half_sub_ofNat (a : Half) (k : Nat) (h : k ≤ a.toNat) : a - .ofNat 16 k = .ofNat 16 (a.toNat - k) := by
  have := a.isLt
  apply BitVec.eq_of_toNat_eq
  rw [BitVec.toNat_sub, BitVec.toNat_ofNat, BitVec.toNat_ofNat, Nat.mod_eq_of_lt (show k < 2 ^ 16 by omega)]
  omega

/-- Staging bytes in the EP0 buffer leaves the descriptor table alone (R67). -/
theorem State.bd_staged (s : State) (hc : s.cfg.wf) (k : Nat) (hk : k ≤ mps0 s.cfg) (ep : BitVec 4) (dir : Dir)
    (slot : Slot) (he : ep.toNat < s.cfg.nep) : (s.staged k).bd ep dir slot = s.bd ep dir slot := by
  refine State.bd_congr (by simp) _ _ _ fun i hi => ?_
  unfold State.staged
  rw [read_copyBytes_outside]
  have := bdAddr_bounds s.cfg ep dir slot he
  have hd := Params.wf_table_ep0 hc
  unfold disjointRanges at hd
  omega

theorem State.nextSlot_staged (s : State) (k : Nat) (ep : BitVec 4) (dir : Dir) :
    (s.staged k).nextSlot ep dir = s.nextSlot ep dir := rfl

/-- The last step of a data stage to the host (R178). -/
theorem ctInStep_done (s : State) (h : s.ctx.remaining = 0 ∧ s.ctx.zlp = false) :
    ctInStep s = ep0OutRearm true { s with ctx := { s.ctx with stage := .statusOut } } := by
  simp [ctInStep, h.1, h.2]

/-- One more chunk of a data stage to the host (R178): armed, or `DARM`. -/
theorem ctInStep_chunk (s : State) (hc : s.cfg.wf) (h : ¬ (s.ctx.remaining = 0 ∧ s.ctx.zlp = false)) :
    ctInStep s =
      let u := s.staged (min s.ctx.remaining.toNat (mps0 s.cfg))
      if (s.bd 0 .inn (s.nextSlot 0 .inn)).own then .raised (u.faulted .darm)
      else .ok () (u.armed false false 0 .inn (s.nextSlot 0 .inn) (s.epsAt 0 .inn).toggle s.cfg.ep0Buf
        (.ofNat 16 (min s.ctx.remaining.toNat (mps0 s.cfg)))) := by
  have hn := Params.wf_nep_pos hc
  unfold ctInStep
  rw [if_neg (by simpa using h)]
  have hk : (BitVec.ofNat 16 (min s.ctx.remaining.toNat (mps0 s.cfg))).toNat ≤ mps0 s.cfg := by
    rw [BitVec.toNat_ofNat]
    exact le_trans (Nat.mod_le _ _) (Nat.min_le_right _ _)
  have := armInOp_ep0 (s.staged (min s.ctx.remaining.toNat (mps0 s.cfg))) (by simpa using hc) _ hk
  rw [State.nextSlot_staged, State.bd_staged s hc _ (Nat.min_le_right _ _) _ _ _ (by simpa using hn)] at this
  exact this

/-- The staged bytes (R178). -/
theorem State.staged_stagedFrom (s : State) (hc : s.cfg.wf) (k : Nat) (hk : k ≤ mps0 s.cfg) :
    StagedFrom s (s.staged k) s.ctx.kind s.ctx.src.toNat k := fun i hi =>
  read_copyBytes s.rom s.ctx.kind s.draws k s.ctx.src.toNat s.cfg.ep0Buf.toNat s.ram i hi (by have := Params.wf_ep0 hc; omega)

/-- Staging writes nothing outside the EP0 buffer (R178). -/
theorem State.staged_keptOutside (s : State) (k : Nat) : KeptOutside s (s.staged k) s.cfg.ep0Buf.toNat k := fun x hx => by
  show (copyBytes _ _ _ _ _ _ _).read x = _
  rw [read_copyBytes_outside _ _ _ _ _ _ _ _ (by omega)]

/-- What one staged and armed chunk is (R178). -/
theorem State.staged_armed_from (s : State) (hc : s.cfg.wf) (k : Nat) (hk : k ≤ mps0 s.cfg) (tgl : Bool) :
    ChunkArmedFrom s ((s.staged k).armed false false 0 .inn (s.nextSlot 0 .inn) tgl s.cfg.ep0Buf (.ofNat 16 k))
      s.ctx.kind s.ctx.src.toNat k tgl := by
  have hn : (0 : BitVec 4).toNat < s.cfg.nep := by have := Params.wf_nep_pos hc; simpa using this
  obtain ⟨h1, h2, h3, h4, h5⟩ := State.armed_armedFrom (s.staged k) (by simpa using hc) false false 0 .inn
    (s.nextSlot 0 .inn) tgl s.cfg.ep0Buf (.ofNat 16 k) (by simpa using hn)
  have he := Params.wf_ep0 hc
  have hb := bdAddr_bounds s.cfg 0 .inn (s.nextSlot 0 .inn) hn
  have hd := Params.wf_table_ep0 hc
  have ha := bdAddr_bounds s.cfg 0 .inn (s.nextSlot 0 .inn) hn
  unfold disjointRanges at hd
  have hk64 : k ≤ 64 := by rcases Params.wf_mps0_cases hc with e | e | e | e <;> omega
  refine ⟨?_, ?_, ?_, ?_, ?_, ?_⟩
  · rw [h1]; rfl
  · intro i hi
    have hout : ∀ x, (s.cfg.ep0Buf.toNat ≤ x ∧ x < s.cfg.ep0Buf.toNat + i + 1) →
        ((s.staged k).armed false false 0 .inn (s.nextSlot 0 .inn) tgl s.cfg.ep0Buf (.ofNat 16 k)).ram.read x =
          (s.staged k).ram.read x := fun x hx => h5 x (by simp only [State.staged_frame]; omega)
    rw [hout _ (by omega)]
    have := read_copyBytes s.rom s.ctx.kind s.draws k s.ctx.src.toNat s.cfg.ep0Buf.toNat s.ram i hi (by omega)
    refine this.trans ?_
    split
    · rw [hout _ (by omega)]; rfl
    · rfl
  · rw [h2]
    congr 1
    apply BitVec.eq_of_toNat_eq
    simp
  · exact h3
  · exact h4
  · intro x hx hx'
    rw [h5 x (by simpa using hx')]
    unfold State.staged
    rw [read_copyBytes_outside _ _ _ _ _ _ _ _ hx]

theorem State.staged_ctx (s : State) (k : Nat) (hk : k ≤ s.ctx.remaining.toNat) (hm : k ≤ mps0 s.cfg) :
    (s.staged k).ctx = { s.ctx with
      src := .ofNat 16 (s.ctx.src.toNat + k)
      remaining := .ofNat 16 (s.ctx.remaining.toNat - k)
      zlp := s.ctx.zlp && k = mps0 s.cfg } := by
  unfold State.staged
  rw [← half_add_ofNat, ← half_sub_ofNat _ _ hk]
  simp only [Ctx.mk.injEq, true_and, and_true]
  by_cases h : k < mps0 s.cfg
  · rw [if_pos h]; simp [show k ≠ mps0 s.cfg by omega]
  · rw [if_neg h]; simp [show k = mps0 s.cfg by omega]

/-! ### XFER -/

/-- The state in which an XFER stages its first packet (R176). -/
def State.xferStart (s : State) (kind : Kind) (src avail req : Half) : State :=
  (s.xferContext kind src avail req).setToggle 0 .inn true

/-- An XFER refused (R176): the context is not in SETUP, or the source passes the top of memory. -/
theorem xferOp_refused (s : State) (kind : Kind) (src avail req : Half)
    (h : s.ctx.stage ≠ .setup ∨ ¬ (min avail.toNat req.toNat = 0 ∨
      src.toNat + min avail.toNat req.toNat ≤ 0x10000)) :
    xferOp kind src avail req s = .raised (s.faulted .badparam) := by
  unfold xferOp
  by_cases h1 : s.ctx.stage = .setup
  · rw [if_neg (by simpa using h1), if_pos, State.raise_eq]
    have := h.resolve_left (by simpa using h1)
    rw [← fits_iff] at this
    simpa using this
  · rw [if_pos h1, State.raise_eq]

/-- An XFER taken (R176): its first packet armed, or `DARM`. -/
theorem xferOp_taken (s : State) (hc : s.cfg.wf) (kind : Kind) (src avail req : Half) (h1 : s.ctx.stage = .setup)
    (h2 : min avail.toNat req.toNat = 0 ∨ src.toNat + min avail.toNat req.toNat ≤ 0x10000) :
    xferOp kind src avail req s =
      let k := min (min avail.toNat req.toNat) (mps0 s.cfg)
      let u := (s.xferStart kind src avail req).staged k
      if (s.bd 0 .inn (s.nextSlot 0 .inn)).own then .raised (u.faulted .darm)
      else .ok () (u.armed false false 0 .inn (s.nextSlot 0 .inn) true s.cfg.ep0Buf (.ofNat 16 k)) := by
  have hlt := avail.isLt
  have hs := src.isLt
  have hr : (s.xferStart kind src avail req).ctx.remaining.toNat = min avail.toNat req.toNat := by
    show (BitVec.ofNat 16 (min avail.toNat req.toNat)).toNat = _
    rw [BitVec.toNat_ofNat]; exact Nat.mod_eq_of_lt (by omega)
  have hz : ¬ ((s.xferStart kind src avail req).ctx.remaining = 0 ∧
      (s.xferStart kind src avail req).ctx.zlp = false) := by
    rintro ⟨h0, hzl⟩
    have : min avail.toNat req.toNat = 0 := by rw [← hr, h0]; rfl
    have hzl' : owesZlp (min avail.toNat req.toNat) req.toNat (mps0 s.cfg) = false := hzl
    rw [this] at hzl'
    simp [owesZlp] at hzl'
  unfold xferOp
  rw [if_neg (by simpa using h1), if_neg (by simpa using (fits_iff _ _).mpr h2)]
  have := ctInStep_chunk (s.xferStart kind src avail req) hc hz
  rw [hr] at this
  refine this.trans ?_
  have e : (s.xferStart kind src avail req).nextSlot 0 .inn = s.nextSlot 0 .inn := by
    unfold State.xferStart; rw [State.nextSlot_setToggle]; rfl
  have e2 : ((s.xferStart kind src avail req).epsAt 0 .inn).toggle = true := by
    unfold State.xferStart; rw [State.epsAt_setToggle]; simp
  rw [e, e2]
  rfl

@[simp] theorem State.drawsAfter_of_fits {s : State} {a n : Nat} (h : fits a n = true) : s.drawsAfter a n = s.draws := if_pos h

/-- A checked range keeps its first packet inside memory, so an XFER draws nothing (R176, log 11). -/
theorem State.fits_xferStart {s : State} {kind : Kind} {src avail req : Half}
    (h : fits src.toNat (min avail.toNat req.toNat) = true) :
    fits (s.xferStart kind src avail req).ctx.src.toNat (min (s.xferStart kind src avail req).ctx.remaining.toNat
      (mps0 (s.xferStart kind src avail req).cfg)) = true := by
  have hr : (s.xferStart kind src avail req).ctx.remaining.toNat = min avail.toNat req.toNat := by
    show (BitVec.ofNat 16 (min avail.toNat req.toNat)).toNat = _
    rw [BitVec.toNat_ofNat]; exact Nat.mod_eq_of_lt (by have := avail.isLt; omega)
  rw [fits_iff] at h ⊢
  rw [hr]
  have := src.isLt
  show min _ (mps0 s.cfg) = 0 ∨ src.toNat + min _ (mps0 s.cfg) ≤ _
  omega

/-- What a taken XFER makes of the state (R176). -/
theorem State.xferStart_from (s : State) (hc : s.cfg.wf) (kind : Kind) (src avail req : Half)
    (h2 : min avail.toNat req.toNat = 0 ∨ src.toNat + min avail.toNat req.toNat ≤ 0x10000) :
    XferFrom s (((s.xferStart kind src avail req).staged (min (min avail.toNat req.toNat) (mps0 s.cfg))).armed false false 0
      .inn (s.nextSlot 0 .inn) true s.cfg.ep0Buf (.ofNat 16 (min (min avail.toNat req.toNat) (mps0 s.cfg)))) kind src avail
      req := by
  have hlt := avail.isLt
  have e : (s.xferStart kind src avail req).nextSlot 0 .inn = s.nextSlot 0 .inn := by
    unfold State.xferStart; rw [State.nextSlot_setToggle]; rfl
  have hr : (s.xferStart kind src avail req).ctx.remaining.toNat = min avail.toNat req.toNat := by
    show (BitVec.ofNat 16 (min avail.toNat req.toNat)).toNat = _
    rw [BitVec.toNat_ofNat]; exact Nat.mod_eq_of_lt (by omega)
  have h := State.staged_armed_from (s.xferStart kind src avail req) hc
    (min (min avail.toNat req.toNat) (mps0 s.cfg)) (Nat.min_le_right _ _) true
  rw [e] at h
  obtain ⟨h1, h2', h3, h4, h5, h6⟩ := h
  have hfit : fits src.toNat (min (min avail.toNat req.toNat) (mps0 s.cfg)) = true := by
    rw [fits_iff]; have := src.isLt; omega
  refine ⟨⟨?_, h2', ?_, ?_, ?_, ?_⟩, ?_, ?_⟩
  · exact h1
  · rw [e] at h3; exact h3
  · refine h4.trans ?_
    unfold State.xferStart; rw [State.epsAt_setToggle]; simp only [and_self, if_true]; rfl
  · intro ep' dir' h
    refine (h5 _ _ h).trans ?_
    unfold State.xferStart; rw [State.epsAt_setToggle, if_neg h]; rfl
  · rw [e] at h6; exact h6
  · have := State.staged_ctx (s.xferStart kind src avail req) (min (min avail.toNat req.toNat) (mps0 s.cfg))
      (by rw [hr]; exact Nat.min_le_left _ _) (Nat.min_le_right _ _)
    rw [hr] at this
    exact this
  · exact State.drawsAfter_of_fits hfit

end Sys2Proof.Machine
end

