-- ==== Sys2Proof/Laws/Service.lean ====
section
/-! SUPPORT. Flags, hooks and the servicing arms: what each can do, and what it leaves alone. -/

namespace Sys2Proof.Machine

/-- `IR` reads 0 exactly when no flag is set and the queue is empty (R39). -/
theorem State.irByte_eq_zero (s : State) :
    s.irByte = 0 ↔ s.ir.rst = false ∧ s.ir.idle = false ∧ s.ir.act = false ∧ s.ir.sof = false ∧ s.tq = [] := by
  have key : ∀ t so ac idl rs : Bool,
      (0#3 ++ BitVec.ofBool t ++ BitVec.ofBool so ++ BitVec.ofBool ac ++ BitVec.ofBool idl ++ BitVec.ofBool rs : Byte) = 0 ↔
        rs = false ∧ idl = false ∧ ac = false ∧ so = false ∧ t = false := by decide
  unfold State.irByte
  rw [key]
  simp [State.trn]

/-! ### Command words -/

/-- No fault bit is lost (R43). -/
structure FaultsKept (s t : State) : Prop where
  darm : s.fault.darm = true → t.fault.darm = true
  badparam : s.fault.badparam = true → t.fault.badparam = true
  badcmd : s.fault.badcmd = true → t.fault.badcmd = true
  reentry : s.fault.reentry = true → t.fault.reentry = true

theorem FaultsKept.of_eq {s t : State} (h : t.fault = s.fault) : FaultsKept s t := by
  constructor <;> rw [h] <;> exact id

theorem FaultsKept.trans {s t u : State} (h : FaultsKept s t) (h' : FaultsKept t u) : FaultsKept s u :=
  ⟨h'.1 ∘ h.1, h'.2 ∘ h.2, h'.3 ∘ h.3, h'.4 ∘ h.4⟩

theorem FaultsKept.faulted (s : State) (c : FaultCause) : FaultsKept s (s.faulted c) := by
  constructor <;> cases c <;> simp [FaultBits.set]

/-- What a command word other than INIT, SERVICE and SHUTDOWN may write and what it keeps (R48, R155, R43). -/
structure CommandFrom (s t : State) : Prop where
  frame : t = { s with ram := t.ram, eps := t.eps, ctx := t.ctx, fault := t.fault, resp := t.resp }
  wf : s.ram.wf → t.ram.wf
  last : ∀ ep dir, (t.epsAt ep dir).last = (s.epsAt ep dir).last
  faults : FaultsKept s t

theorem CommandFrom.refl (s : State) : CommandFrom s s := ⟨rfl, id, fun _ _ => rfl, .of_eq rfl⟩

theorem CommandFrom.trans {s t u : State} (h : CommandFrom s t) (h' : CommandFrom t u) : CommandFrom s u :=
  ⟨by rw [h'.1, h.1], h'.2 ∘ h.2, fun ep dir => (h'.3 ep dir).trans (h.3 ep dir), h.4.trans h'.4⟩

theorem CommandFrom.after {s t u : State} (h' : CommandFrom t u) (h : CommandFrom s t) : CommandFrom s u := h.trans h'

theorem CommandFrom.faulted (s : State) (c : FaultCause) : CommandFrom s (s.faulted c) :=
  ⟨rfl, id, fun _ _ => rfl, .faulted s c⟩

theorem CommandFrom.ctx (s : State) (c : Ctx) : CommandFrom s { s with ctx := c } :=
  ⟨rfl, id, fun _ _ => rfl, .of_eq rfl⟩

theorem CommandFrom.resp (s : State) (r : Half) : CommandFrom s { s with resp := r } :=
  ⟨rfl, id, fun _ _ => rfl, .of_eq rfl⟩

theorem CommandFrom.setEps (s : State) (ep : BitVec 4) (dir : Dir) (e : Eps) (h : e.last = (s.epsAt ep dir).last) :
    CommandFrom s (s.setEps ep dir e) := by
  refine ⟨rfl, id, fun ep' dir' => ?_, .of_eq rfl⟩
  rw [State.epsAt_setEps]
  split
  · rename_i hh; rw [hh.1, hh.2, h]
  · rfl

theorem CommandFrom.setToggle (s : State) (ep : BitVec 4) (dir : Dir) (x : Bool) : CommandFrom s (s.setToggle ep dir x) :=
  .setEps s ep dir _ rfl

theorem CommandFrom.setHalt (s : State) (ep : BitVec 4) (dir : Dir) (x : Bool) : CommandFrom s (s.setHalt ep dir x) :=
  .setEps s ep dir _ rfl

theorem CommandFrom.overSlots (s : State) (ep : BitVec 4) (dir : Dir) (f : Bd → Bd) :
    CommandFrom s (s.overSlots ep dir f) := by
  refine ⟨?_, fun h => State.wf_overSlots h _ _ _, fun ep' dir' => ?_, .of_eq (by simp)⟩
  · rw [State.overSlots_eq]
  · rw [State.epsAt_congr (s := s) (by simp)]

theorem CommandFrom.armed (s : State) (keep toi : Bool) (ep : BitVec 4) (dir : Dir) (slot : Slot) (tgl : Bool)
    (buf n : Half) : CommandFrom s (s.armed keep toi ep dir slot tgl buf n) :=
  (CommandFrom.setToggle _ ep dir tgl).after
    ⟨rfl, fun h => State.wf_writeBd h _ _ _ _, fun _ _ => rfl, .of_eq rfl⟩

theorem CommandFrom.stallEndpoint (s : State) (ep : BitVec 4) (dir : Dir) :
    CommandFrom s (s.stallEndpoint ep dir) :=
  (CommandFrom.overSlots _ ep dir _).after (CommandFrom.setHalt s ep dir true)

theorem CommandFrom.clearHalt (s : State) (ep : BitVec 4) (dir : Dir) : CommandFrom s (s.clearHalt ep dir) :=
  (CommandFrom.overSlots _ ep dir _).after
    ((CommandFrom.setToggle _ ep dir false).after (CommandFrom.setHalt s ep dir false))

theorem raise_ends {α : Type} (s : State) (c : FaultCause) : (s.raise c : Res α).All (CommandFrom s) :=
  ⟨.faulted s c, s.faulted_ne c⟩

theorem armOp_ends (keep toi : Bool) (ep : BitVec 4) (dir : Dir) (slot : Slot) (tgl : Bool) (buf n : Half) (s : State) :
    (armOp keep toi ep dir slot tgl buf n s).All (CommandFrom s) := by
  rcases armOp_cases keep toi ep dir slot tgl buf n s with ⟨-, e⟩ | ⟨-, -, e⟩ | ⟨-, -, e⟩ <;> rw [e]
  · exact raise_ends s .badparam (α := Unit)
  · exact raise_ends s .darm (α := Unit)
  · exact CommandFrom.armed _ _ _ _ _ _ _ _ _

theorem armEpOp_ends (keep toi : Bool) (ep : BitVec 4) (dir : Dir) (buf n : Half) (s : State) :
    (armEpOp keep toi ep dir buf n s).All (CommandFrom s) := by
  rw [armEpOp_eq]; exact armOp_ends _ _ _ _ _ _ _ _ _

theorem armOutOp_ends (keep toi : Bool) (ep : BitVec 4) (buf n : Half) (s : State) :
    (armOutOp keep toi ep buf n s).All (CommandFrom s) := by
  rw [armOutOp_eq]; exact armOp_ends _ _ _ _ _ _ _ _ _

theorem armInOp_ends (keep toi : Bool) (ep : BitVec 4) (buf n : Half) (s : State) :
    (armInOp keep toi ep buf n s).All (CommandFrom s) := by
  rw [armInOp_eq]; exact armOp_ends _ _ _ _ _ _ _ _ _

theorem ep0OutRearm_ends (force : Bool) (s : State) : (ep0OutRearm force s).All (CommandFrom s) := by
  unfold ep0OutRearm
  simp only
  split
  · exact CommandFrom.refl s
  · exact armOp_ends _ _ _ _ _ _ _ _ _

theorem armStatusOp_ends (dir : Dir) (s : State) : (armStatusOp dir s).All (CommandFrom s) := by
  cases dir with
  | out => exact ep0OutRearm_ends true s
  | inn => exact (armInOp_ends _ _ _ _ _ _).mono fun t h => h.after (.setToggle s 0 .inn true)

theorem stallOp_ends (ep : BitVec 4) (dir : Dir) (s : State) : (stallOp ep dir s).All (CommandFrom s) := by
  rw [stallOp_eq]
  split
  · exact CommandFrom.stallEndpoint s ep dir
  · exact raise_ends s .badparam (α := Unit)

theorem clearStallOp_ends (ep : BitVec 4) (dir : Dir) (s : State) : (clearStallOp ep dir s).All (CommandFrom s) := by
  unfold clearStallOp
  simp only
  split
  · exact raise_ends s .badparam
  · split
    · exact (armOp_ends _ _ _ _ _ _ _ _ _).mono fun t h' => h'.after (.clearHalt s ep dir)
    · exact CommandFrom.clearHalt s ep dir

theorem setStageOp_ends (stage : BitVec 3) (dst count : Half) (s : State) :
    (setStageOp stage dst count s).All (CommandFrom s) := by
  unfold setStageOp
  split
  · exact raise_ends s .badparam
  · split
    · exact raise_ends s .badparam
    · exact CommandFrom.ctx s _
  · exact CommandFrom.ctx s _

theorem CommandFrom.staged (s : State) (k : Nat) :
    CommandFrom { s with draws := s.drawsAfter s.ctx.src.toNat k } (s.staged k) :=
  ⟨rfl, fun h => Memory.wf_copyBytes h _ _ _ _ _ _, fun _ _ => rfl, .of_eq rfl⟩

/-- A data step writes what a command may, and draws when its chunk passes the top of memory (log 11). -/
theorem ctInStep_ends (s : State) : (ctInStep s).All fun t => CommandFrom { s with draws := t.draws } t := by
  unfold ctInStep
  split
  · refine (ep0OutRearm_ends _ _).mono fun t h => ?_
    have e : t.draws = s.draws := by rw [h.frame]
    rw [e]
    exact h.after (.ctx s _)
  · refine (armInOp_ends _ _ _ _ _ _).mono fun t h => ?_
    have e : t.draws = s.drawsAfter s.ctx.src.toNat (min s.ctx.remaining.toNat (mps0 s.cfg)) := by rw [h.frame]; rfl
    rw [e]
    exact h.after (.staged s _)

theorem xferOp_ends (kind : Kind) (src avail req : Half) (s : State) :
    (xferOp kind src avail req s).All (CommandFrom s) := by
  unfold xferOp
  split
  · exact raise_ends s .badparam
  · split
    · exact raise_ends s .badparam
    · rename_i h1 h2
      have hr : (s.xferStart kind src avail req).ctx.remaining.toNat = min avail.toNat req.toNat := by
        show (BitVec.ofNat 16 (min avail.toNat req.toNat)).toNat = _
        rw [BitVec.toNat_ofNat]; exact Nat.mod_eq_of_lt (by have := avail.isLt; omega)
      have hf : fits src.toNat (min avail.toNat req.toNat) = true := by simpa using h2
      have hs : CommandFrom s (s.xferStart kind src avail req) :=
        (CommandFrom.setToggle _ 0 .inn true).after (.ctx s _)
      show (ctInStep (s.xferStart kind src avail req)).All _
      unfold ctInStep
      split
      · exact (ep0OutRearm_ends _ _).mono fun t h => h.after ((CommandFrom.ctx _ _).after hs)
      · have hd := CommandFrom.staged (s.xferStart kind src avail req)
          (min (s.xferStart kind src avail req).ctx.remaining.toNat (mps0 (s.xferStart kind src avail req).cfg))
        rw [State.drawsAfter_of_fits (State.fits_xferStart hf)] at hd
        exact (armInOp_ends _ _ _ _ _ _).mono fun t h => h.after (hd.after hs)

theorem hookCommand_ends (i : Instr) (s : State) : (hookCommand i s).All (CommandFrom s) := by
  cases i <;> simp only [hookCommand]
  case getState => exact CommandFrom.resp s _
  case getConfig => exact CommandFrom.resp s _
  case setStage => exact setStageOp_ends _ _ _ _
  case armEp => exact armEpOp_ends _ _ _ _ _ _ _
  case armEp0In => exact armInOp_ends _ _ _ _ _ _
  case armStatus => exact armStatusOp_ends _ _
  case stallEp => exact stallOp_ends _ _ _
  case xferRom => exact xferOp_ends _ _ _ _ _
  case xferRam => exact xferOp_ends _ _ _ _ _
  case arm => exact armOp_ends _ _ _ _ _ _ _ _ _
  case armOut => exact armOutOp_ends _ _ _ _ _ _
  case armIn => exact armInOp_ends _ _ _ _ _ _
  case clearStall => exact clearStallOp_ends _ _ _
  case init => exact raise_ends s .reentry
  case service => exact raise_ends s .reentry
  case shutdown => exact raise_ends s .reentry
  all_goals exact raise_ends s .badcmd

/-! ### Hooks -/

/-- What the words of a hook may write and what they keep (R267, R43). -/
structure HookFrom (s t : State) : Prop where
  frame : t = { s with
    ram := t.ram, eps := t.eps, ctx := t.ctx, fault := t.fault, resp := t.resp, cmd := t.cmd }
  wf : s.ram.wf → t.ram.wf
  last : ∀ ep dir, (t.epsAt ep dir).last = (s.epsAt ep dir).last
  faults : FaultsKept s t

theorem HookFrom.refl (s : State) : HookFrom s s := ⟨rfl, id, fun _ _ => rfl, .of_eq rfl⟩

theorem HookFrom.trans {s t u : State} (h : HookFrom s t) (h' : HookFrom t u) : HookFrom s u :=
  ⟨by rw [h'.1, h.1], h'.2 ∘ h.2, fun ep dir => (h'.3 ep dir).trans (h.3 ep dir), h.4.trans h'.4⟩

theorem HookFrom.after {s t u : State} (h' : HookFrom t u) (h : HookFrom s t) : HookFrom s u := h.trans h'

theorem CommandFrom.hook {s t : State} (h : CommandFrom s t) : HookFrom s t := ⟨by rw [h.1], h.2, h.3, h.4⟩

theorem HookFrom.cmd (s : State) (w : Word64) : HookFrom s { s with cmd := w } :=
  ⟨rfl, id, fun _ _ => rfl, .of_eq rfl⟩

theorem runHookWord_ends (w : Word64) (s : State) : (runHookWord w s).All (HookFrom s) := by
  unfold runHookWord
  simp only
  split
  · exact (raise_ends _ _).mono fun t h => h.hook.after (.cmd s w)
  · split
    · exact (raise_ends _ _).mono fun t h => h.hook.after (.cmd s w)
    · exact (hookCommand_ends _ _).mono fun t h => (h.after (.resp _ _)).hook.after (.cmd s w)

/-- The words of a hook run to the end (R303): what they leave alone. -/
theorem runHookWords_ok (ws : List Word64) (s : State) : ∃ t, runHookWords ws s = .ok () t ∧ HookFrom s t := by
  induction ws generalizing s with
  | nil => exact ⟨s, rfl, .refl s⟩
  | cons w ws ih =>
    have h := runHookWord_ends w s
    unfold runHookWords
    cases hw : runHookWord w s with
    | ok a u =>
      rw [hw] at h
      obtain ⟨t, h1, h2⟩ := ih u
      exact ⟨t, h1, HookFrom.trans h h2⟩
    | raised u =>
      rw [hw] at h
      obtain ⟨t, h1, h2⟩ := ih u
      exact ⟨t, h1, HookFrom.trans h.1 h2⟩

/-- What a hook call makes of the state (R262, R267). -/
theorem callHook_ok (item : Bool → TraceItem) (s : State) :
    ∃ t, callHook item s = .ok (s.hookTape.headD ⟨false, []⟩).handled t ∧
      HookFrom { s with
        hookTape := s.hookTape.tail, trace := s.trace ++ [item (s.hookTape.headD ⟨false, []⟩).handled] } t ∧
      ((s.hookTape.headD ⟨false, []⟩).words = [] → t = { s with
        hookTape := s.hookTape.tail, trace := s.trace ++ [item (s.hookTape.headD ⟨false, []⟩).handled] }) := by
  obtain ⟨t, h1, h2⟩ := runHookWords_ok (s.hookTape.headD ⟨false, []⟩).words { s with
    hookTape := s.hookTape.tail, trace := s.trace ++ [item (s.hookTape.headD ⟨false, []⟩).handled] }
  refine ⟨t, ?_, h2, fun hw => ?_⟩
  · unfold callHook
    simp only
    rw [h1]; rfl
  · rw [hw] at h1
    injection h1 with _ h1
    exact h1.symm

/-- A notification (R262, R265): what it makes of the state, and exactly that when the hook is silent. -/
theorem notifyHook_ok (present : Bool) (item : TraceItem) (s : State) :
    ∃ t, notifyHook present item s = .ok () t ∧
      HookFrom { s with
        hookTape := if present then s.hookTape.tail else s.hookTape
        trace := s.trace ++ (if present then [item] else []) } t ∧
      (s.hookTape = [] ∨ present = false →
        t = { s with trace := s.trace ++ (if present then [item] else []) }) := by
  cases present with
  | false =>
    refine ⟨s, rfl, ?_, fun _ => by simp⟩
    simp only [Bool.false_eq_true, if_false, List.append_nil]
    exact .refl s
  | true =>
    obtain ⟨t, h1, h2, h3⟩ := callHook_ok (fun _ => item) s
    refine ⟨t, ?_, h2, fun h => ?_⟩
    · unfold notifyHook
      rw [if_pos rfl, h1]; rfl
    · have h : s.hookTape = [] := by simpa using h
      have := h3 (by rw [h]; rfl)
      have ht : s.hookTape.tail = s.hookTape := by rw [h]; rfl
      rw [this, ht]; simp

/-! ### Servicing one record -/

/-- SVC_TRN with a record to serve (R253). -/
theorem svcTrnOp_cons (s : State) (r : Completion) (rest : List Completion) (h : s.tq = r :: rest) :
    svcTrnOp s =
      let u := (onComplete r.ep r.dir r.slot { s with tq := rest }).2
      if r.ep = 0 then ctEvent r (s.bd r.ep r.dir r.slot).cnt u
      else notifyHook s.cfg.hooks.trn (.hookTrn r.ep r.dir r.slot (s.bd r.ep r.dir r.slot).cnt) u := by
  unfold svcTrnOp; rw [h]; rfl

/-- SVC_TRN with an EP0 record that is no SETUP, while EP0 is not held (R172). -/
theorem svcTrnOp_ep0 (s : State) (r : Completion) (rest : List Completion) (h : s.tq = r :: rest) (h0 : r.ep = 0)
    (hs : r.dir = .inn ∨ r.setup = false) (hh : s.setupHold = false) (u : State)
    (hu : (onComplete 0 r.dir r.slot { s with tq := rest }).2 = u) :
    svcTrnOp s =
      match s.ctx.stage, r.dir with
      | .idle, .inn => .ok () u
      | .idle, .out => ep0OutRearm false u
      | .setup, .inn => .ok () u
      | .setup, .out => ep0OutRearm false u
      | .dataIn, .inn => ctInStep u
      | .dataIn, .out => earlyStatus u
      | .dataOut, .inn => .ok () u
      | .dataOut, .out => ctOutData (s.bd 0 r.dir r.slot).cnt u
      | .statusIn, .inn => .ok () u.statusDone
      | .statusIn, .out => ep0OutRearm false u
      | .statusOut, .inn => .ok () u
      | .statusOut, .out => ep0OutRearm false u.destroyCtx := by
  rw [svcTrnOp_cons s r rest h, h0]
  simp only [if_true]
  rw [hu]
  unfold ctEvent
  have e1 : u.setupHold = s.setupHold := by rw [← hu]; rfl
  have e2 : u.ctx = s.ctx := by rw [← hu]; rfl
  rw [if_neg (by rcases hs with hs | hs <;> simp [hs]), if_neg (by rw [e1, hh]; simp), e2]
  all_goals rfl

/-- The status of a request armed (R175, R183), when EP0 IN is not hardware-owned. -/
theorem armStatus_from (s : State) (hc : s.cfg.wf) (ho : (s.bd 0 .inn (s.nextSlot 0 .inn)).own = false) :
    ∃ t, ((armStatusOp .inn s).bind fun _ s => .ok () { s with ctx := { s.ctx with stage := .statusIn } }) = .ok () t ∧
      StatusArmedFrom s t := by
  have hn : (0 : BitVec 4).toNat < s.cfg.nep := by have := Params.wf_nep_pos hc; simpa using this
  obtain ⟨h1, h2, h3, h4, h5⟩ := ArmedFrom.of_setToggle (State.armed_armedFrom (s.setToggle 0 .inn true)
    (by simpa using hc) false false 0 .inn (s.nextSlot 0 .inn) true s.cfg.ep0Buf 0 (by simpa using hn))
  rw [armStatusOp_inn s hc, ho]
  exact ⟨_, rfl, by rw [h1], h2, h3, h4, h5⟩

/-- The setup prologue (R174), whole. -/
theorem State.setupPrologue_eq (s : State) :
    s.setupPrologue = { s with
      ram := s.setupPrologue.ram, eps := s.setupPrologue.eps, addrPending := false
      ctx := ⟨.setup, 0, 0, .rom, false, 0⟩ } := by
  unfold State.setupPrologue
  simp only
  rw [State.overSlots_eq (ep := 0) (dir := .inn), State.overSlots_eq (ep := 0) (dir := .out)]
  rfl

theorem State.epsAt_setupPrologue (s : State) (ep : BitVec 4) (dir : Dir) :
    s.setupPrologue.epsAt ep dir = if ep = 0 then { s.epsAt ep dir with halt := false } else s.epsAt ep dir := by
  refine (State.epsAt_congr (s := ((((({ s.destroyCtx with addrPending := false } : State).overSlots 0 .out
    Bd.reclaimed).overSlots 0 .inn Bd.reclaimed).setHalt 0 .out false).setHalt 0 .inn false)) rfl ep dir).trans ?_
  rw [State.epsAt_setHalt, State.epsAt_setHalt, State.epsAt_setHalt]
  have e : ∀ ep dir, ((({ s.destroyCtx with addrPending := false } : State).overSlots 0 .out Bd.reclaimed).overSlots
      0 .inn Bd.reclaimed).epsAt ep dir = s.epsAt ep dir := fun ep dir => State.epsAt_congr (by simp) _ _
  simp only [e]
  by_cases h : ep = 0
  · subst h
    cases dir <;> simp
  · rw [if_neg (fun hh => h hh.1), if_neg (fun hh => h hh.1), if_neg h]

theorem State.bd_setupPrologue (s : State) (hc : s.cfg.wf) (ep : BitVec 4) (dir : Dir) (slot : Slot) :
    s.setupPrologue.bd ep dir slot =
      if ep = 0 ∧ slot ∈ slots s.cfg 0 dir then Bd.reclaimed (s.bd ep dir slot) else s.bd ep dir slot := by
  have hn : (0 : BitVec 4).toNat < s.cfg.nep := by have := Params.wf_nep_pos hc; simpa using this
  refine (State.bd_of_ram_eq (s := ((({ s.destroyCtx with addrPending := false } : State).overSlots 0 .out
    Bd.reclaimed).overSlots 0 .inn Bd.reclaimed)) (by simp) rfl ep dir slot).trans ?_
  have e : ({ s.destroyCtx with addrPending := false } : State).bd ep dir slot = s.bd ep dir slot := rfl
  have ec : ({ s.destroyCtx with addrPending := false } : State).cfg = s.cfg := rfl
  generalize ({ s.destroyCtx with addrPending := false } : State) = v at e ec
  rw [← ec] at hc hn
  have ec' : (v.overSlots 0 .out Bd.reclaimed).cfg = v.cfg := by simp
  rw [State.bd_overSlots _ (ec' ▸ hc) _ _ _ keepsBuffer_reclaimed (ec' ▸ hn),
    State.bd_overSlots _ hc _ _ _ keepsBuffer_reclaimed hn, ec', ec, e]
  by_cases h : ep = 0
  · subst h
    cases dir <;> simp
  · rw [if_neg (fun hh => h hh.1), if_neg (fun hh => h hh.1), if_neg (fun hh => h hh.1)]

theorem State.read_setupPrologue (s : State) (a : Nat)
    (h : ∀ dir, ∀ slot ∈ slots s.cfg 0 dir, a ≠ bdAddr s.cfg 0 dir slot) :
    s.setupPrologue.ram.read a = s.ram.read a := by
  show (((({ s.destroyCtx with addrPending := false } : State).overSlots 0 .out Bd.reclaimed).overSlots
    0 .inn Bd.reclaimed)).ram.read a = _
  rw [State.read_overSlots _ _ _ _ _ (by simpa using h .inn), State.read_overSlots _ _ _ _ _ (by simpa using h .out)]
  rfl

/-- A state between the prologue and the latch serves requests (R174). -/
theorem State.serving_prologue (s : State) (hc : s.cfg.wf) : s.setupPrologue.latchSetup.serving := by
  have hcfg : s.setupPrologue.cfg = s.cfg := by rw [State.setupPrologue_eq]
  refine ⟨by show s.setupPrologue.cfg.wf; rw [hcfg]; exact hc, by show s.setupPrologue.ctx.stage = _; rw [State.setupPrologue_eq], ?_⟩
  have hmem := State.nextSlot_mem s.setupPrologue.latchSetup 0 .inn
  rw [show s.setupPrologue.latchSetup.cfg = s.cfg from hcfg] at hmem
  show (s.setupPrologue.bd 0 .inn _).own = false
  rw [State.bd_setupPrologue s hc, if_pos ⟨rfl, hmem⟩]
  rfl

end Sys2Proof.Machine
end

