-- ==== Sys2Proof/Laws/Requests.lean ====
section
/-! SUPPORT. The standard requests and their dispatch: outcomes and frames. -/

namespace Sys2Proof.Machine

/-! ### Conclusion -/

theorem conclude_reject (cause : ErrorCause) (s : State) : conclude cause false s = .ok () (s.requestError cause) := rfl

/-- An accepted request that armed nothing gets its status armed (R175). -/
theorem conclude_accept (cause : ErrorCause) (s : State) (hc : s.cfg.wf) (h : s.ctx.stage = .setup)
    (ho : (s.bd 0 .inn (s.nextSlot 0 .inn)).own = false) :
    ∃ t, conclude cause true s = .ok () t ∧ StatusArmedFrom s t := by
  unfold conclude
  rw [if_neg (by simp), if_pos h]
  exact armStatus_from s hc ho

/-- An accepted request that began a data stage is left as it is (R175). -/
theorem conclude_accept_data (cause : ErrorCause) (s : State) (h : s.ctx.stage ≠ .setup) :
    conclude cause true s = .ok () s := by
  unfold conclude
  rw [if_neg (by simp), if_neg h]

/-! ### Frames -/

/-- What a request may write and what it keeps (R48, R210, R43). -/
structure RequestFrom (s t : State) : Prop where
  frame : t = { s with
    ram := t.ram, eps := t.eps, ctx := t.ctx, fault := t.fault, resp := t.resp, cmd := t.cmd, newAddr := t.newAddr
    addrPending := t.addrPending, tq := t.tq, config := t.config, devState := t.devState, epen := t.epen
    hookTape := t.hookTape, trace := t.trace }
  wf : s.ram.wf → t.ram.wf
  faults : FaultsKept s t
  tq : t.tq.Sublist s.tq

theorem RequestFrom.refl (s : State) : RequestFrom s s := ⟨rfl, id, .of_eq rfl, .refl _⟩

theorem RequestFrom.trans {s t u : State} (h : RequestFrom s t) (h' : RequestFrom t u) : RequestFrom s u :=
  ⟨by rw [h'.1, h.1], h'.2 ∘ h.2, h.3.trans h'.3, h'.4.trans h.4⟩

theorem RequestFrom.after {s t u : State} (h' : RequestFrom t u) (h : RequestFrom s t) : RequestFrom s u := h.trans h'

theorem HookFrom.request {s t : State} (h : HookFrom s t) : RequestFrom s t :=
  ⟨by rw [h.1], h.2, h.4, by rw [h.1]⟩

theorem CommandFrom.request {s t : State} (h : CommandFrom s t) : RequestFrom s t := h.hook.request

theorem RequestFrom.requestError (s : State) (cause : ErrorCause) : RequestFrom s (s.requestError cause) := by
  have h := CommandFrom.stallEndpoint { s with trace := s.trace ++ [TraceItem.requestError cause] } 0 .inn
  exact (CommandFrom.ctx _ Ctx.destroyed).request.after (h.request.after ⟨rfl, id, .of_eq rfl, .refl _⟩)

theorem reject_all (s : State) : (reject s).All (RequestFrom s) := RequestFrom.refl s

theorem accept_all {s t : State} (h : RequestFrom s t) : (accept t).All (RequestFrom s) := h

theorem callHook_all (item : Bool → TraceItem) (s : State) : (callHook item s).All (RequestFrom s) := by
  obtain ⟨t, h1, h2, -⟩ := callHook_ok item s
  rw [h1]
  exact h2.request.after ⟨rfl, id, .of_eq rfl, .refl _⟩

theorem notifyHook_all (present : Bool) (item : TraceItem) (s : State) :
    (notifyHook present item s).All (RequestFrom s) := by
  obtain ⟨t, h1, h2, -⟩ := notifyHook_ok present item s
  rw [h1]
  exact h2.request.after ⟨rfl, id, .of_eq rfl, .refl _⟩

theorem conclude_all (cause : ErrorCause) (ok : Bool) (s : State) : (conclude cause ok s).All (RequestFrom s) := by
  unfold conclude
  split
  · exact RequestFrom.requestError s cause
  · split
    · exact (armStatusOp_ends .inn s).bind (fun _ t h => ((CommandFrom.ctx t _).after h).request) fun t h => h.request
    · exact RequestFrom.refl s

theorem answerScratch_all (bytes : List Byte) (l : Half) (s : State) : (answerScratch bytes l s).All (RequestFrom s) := by
  unfold answerScratch
  refine (xferOp_ends _ _ _ _ _).bind (fun _ t h => ?_) fun t h => ?_
  · exact accept_all (h.request.after ⟨rfl, fun hw => Memory.wf_writeBytes hw _ _, .of_eq rfl, .refl _⟩)
  · exact h.request.after ⟨rfl, fun hw => Memory.wf_writeBytes hw _ _, .of_eq rfl, .refl _⟩

/-! ### `ReinitEndpoints` -/

/-- A loop whose body keeps a relation keeps it. -/
theorem foldl_keeps {α β : Type} (P : α → α → Prop) (hr : ∀ a, P a a) (ht : ∀ a b c, P a b → P b c → P a c)
    (f : α → β → α) (hf : ∀ a b, P a (f a b)) (l : List β) (a : α) : P a (l.foldl f a) := by
  induction l generalizing a with
  | nil => exact hr a
  | cons b l ih => exact ht _ _ _ (hf a b) (ih (f a b))

/-- What the discarding of records writes (R249): the queue and `last`. -/
theorem State.discardClassRecords_eq (s : State) :
    s.discardClassRecords = { s with eps := s.discardClassRecords.eps, tq := s.tq.filter fun r => r.ep = 0 } := by
  have h := foldl_keeps (fun a b : State => b = { a with eps := b.eps }) (fun _ => rfl)
    (fun a b c h1 h2 => by rw [h2, h1])
    (fun (s : State) (r : Completion) =>
      if r.ep ≠ 0 && pp s.cfg r.ep r.dir then s.setEps r.ep r.dir { s.epsAt r.ep r.dir with last := r.slot }
      else s) (fun a b => by dsimp only; split <;> rfl) s.tq s
  unfold State.discardClassRecords
  simp only at h ⊢
  rw [h]

/-- What `ReinitEndpoints` writes (R249). -/
theorem State.reinitEndpoints_eq (s : State) :
    s.reinitEndpoints = { s with
      ram := s.reinitEndpoints.ram, eps := s.reinitEndpoints.eps, tq := s.tq.filter fun r => r.ep = 0 } ∧
    (s.ram.wf → s.reinitEndpoints.ram.wf) := by
  have h := foldl_keeps (fun a b : State => b = { a with ram := b.ram } ∧ (a.ram.wf → b.ram.wf)) (fun _ => ⟨rfl, id⟩)
    (fun a b c h1 h2 => ⟨by rw [h2.1, h1.1], h2.2 ∘ h1.2⟩)
    (fun (s : State) (ep : BitVec 4) => (s.overSlots ep .out Bd.returned).overSlots ep .inn Bd.returned)
    (fun a b => ⟨by rw [State.overSlots_eq (ep := b) (dir := .inn), State.overSlots_eq (ep := b) (dir := .out)],
      fun hw => State.wf_overSlots (State.wf_overSlots hw _ _ _) _ _ _⟩)
    ((endpoints s.cfg).filter (· ≠ 0))
    { s.discardClassRecords with
      eps := s.discardClassRecords.eps.map fun e => { e with toggle := false, halt := false } }
  have hd := State.discardClassRecords_eq s
  have e : s.reinitEndpoints = ((endpoints s.cfg).filter (· ≠ 0)).foldl
      (fun s ep => (s.overSlots ep .out Bd.returned).overSlots ep .inn Bd.returned)
      { s.discardClassRecords with
        eps := s.discardClassRecords.eps.map fun e => { e with toggle := false, halt := false } } := by
    unfold State.reinitEndpoints
    simp only
    rw [show s.discardClassRecords.cfg = s.cfg by rw [hd]]
  rw [← e] at h
  refine ⟨?_, fun hw => h.2 (by show s.discardClassRecords.ram.wf; rw [hd]; exact hw)⟩
  have h1 := h.1
  rw [h1]
  simp only
  rw [hd]

/-- What the discarding of records leaves in an endpoint record (R249). -/
theorem State.epsAt_discardClassRecords (s : State) (ep : BitVec 4) (dir : Dir) :
    s.discardClassRecords.epsAt ep dir = { s.epsAt ep dir with
      last := if ep ≠ 0 ∧ pp s.cfg ep dir = true then s.newestSlot ep dir else (s.epsAt ep dir).last } := by
  have key : ∀ (l : List Completion) (u : State), u.cfg = s.cfg → 
     (l.foldl (fun s r =>
        if r.ep ≠ 0 && pp s.cfg r.ep r.dir then s.setEps r.ep r.dir { s.epsAt r.ep r.dir with last := r.slot }
        else s) u).epsAt ep dir = { u.epsAt ep dir with
          last := if ep ≠ 0 ∧ pp s.cfg ep dir = true
            then l.foldl (fun last r => if r.ep = ep ∧ r.dir = dir then r.slot else last) (u.epsAt ep dir).last
            else (u.epsAt ep dir).last } := by
    intro l
    induction l with
    | nil => intro u hu; simp
    | cons r l ih =>
      intro u hu
      rw [List.foldl_cons, List.foldl_cons]
      by_cases hr : (r.ep ≠ 0 && pp u.cfg r.ep r.dir) = true
      · rw [if_pos hr, ih _ (by simpa using hu)]
        rw [State.epsAt_setEps]
        by_cases hm : ep = r.ep ∧ dir = r.dir
        · obtain ⟨rfl, rfl⟩ := hm
          simp only [and_self, if_true]
          rw [if_pos (by simpa [hu] using hr), if_pos (by simpa [hu] using hr)]
        · have hm' : ¬ (r.ep = ep ∧ r.dir = dir) := fun hh => hm ⟨hh.1.symm, hh.2.symm⟩
          rw [if_neg hm, if_neg hm']
      · rw [if_neg hr, ih _ hu]
        by_cases hm : r.ep = ep ∧ r.dir = dir
        · obtain ⟨rfl, rfl⟩ := hm
          rw [hu] at hr
          have : ¬ (r.ep ≠ 0 ∧ pp s.cfg r.ep r.dir = true) := by simpa using hr
          rw [if_neg this, if_neg this]
        · rw [if_neg hm]
  have := key s.tq s rfl
  exact this

/-- What `ReinitEndpoints` leaves in an endpoint record (R249). -/
theorem State.epsAt_reinitEndpoints (s : State) (ep : BitVec 4) (dir : Dir) :
    s.reinitEndpoints.epsAt ep dir =
      ⟨false, false, if ep ≠ 0 ∧ pp s.cfg ep dir = true then s.newestSlot ep dir else (s.epsAt ep dir).last⟩ := by
  have h := foldl_keeps (fun a b : State => b.eps = a.eps) (fun _ => rfl) (fun a b c h1 h2 => h2.trans h1)
    (fun (s : State) (ep : BitVec 4) => (s.overSlots ep .out Bd.returned).overSlots ep .inn Bd.returned)
    (fun a b => by simp) ((endpoints s.discardClassRecords.cfg).filter (· ≠ 0)) { s.discardClassRecords with
      eps := s.discardClassRecords.eps.map fun e => { e with toggle := false, halt := false } }
  have h2 : s.reinitEndpoints.eps = s.discardClassRecords.eps.map fun e => { e with toggle := false, halt := false } := h
  unfold State.epsAt
  rw [show s.reinitEndpoints.eps[epIx ep dir] =
    (s.discardClassRecords.eps.map fun e => { e with toggle := false, halt := false })[epIx ep dir] by rw [h2]]
  have h3 := State.epsAt_discardClassRecords s ep dir
  unfold State.epsAt at h3
  simp only [Fin.getElem_fin, Vector.getElem_map] at h3 ⊢
  rw [h3]

/-- What `ReinitEndpoints` leaves in the descriptors and in every other byte (R249). -/
theorem State.ram_reinitEndpoints (s : State) (hc : s.cfg.wf) : 
  (∀ ep dir slot, s.reinitEndpoints.bd ep dir slot =
    if (ep ≠ 0 ∧ ep.toNat < s.cfg.nep) ∧ slot ∈ slots s.cfg ep dir then Bd.returned (s.bd ep dir slot)
    else s.bd ep dir slot) ∧
  (∀ x, (∀ ep dir, ep ≠ 0 → ep.toNat < s.cfg.nep → ∀ slot ∈ slots s.cfg ep dir,
          x ≠ bdAddr s.cfg ep dir slot) → s.reinitEndpoints.ram.read x = s.ram.read x) := by
  have hmem : ∀ ep, ep ∈ (endpoints s.cfg).filter (· ≠ 0) ↔ ep ≠ 0 ∧ ep.toNat < s.cfg.nep := by
    intro ep
    have hn := hc.1.2
    simp only [endpoints, List.mem_filter, List.mem_map, List.mem_range, decide_eq_true_eq]
    constructor
    · rintro ⟨⟨k, hk, rfl⟩, h0⟩
      refine ⟨h0, ?_⟩
      rw [BitVec.toNat_ofNat]; exact lt_of_le_of_lt (Nat.mod_le _ _) hk
    · rintro ⟨h0, hk⟩
      exact ⟨⟨ep.toNat, hk, by simp⟩, h0⟩
  have key : ∀ (l : List (BitVec 4)) (u : State), u.cfg = s.cfg → (∀ ep ∈ l, ep.toNat < s.cfg.nep) → 
     (∀ ep dir slot,
       (l.foldl (fun s ep => (s.overSlots ep .out Bd.returned).overSlots ep .inn Bd.returned) u).bd ep dir slot =
         if ep ∈ l ∧ slot ∈ slots s.cfg ep dir then Bd.returned (u.bd ep dir slot) else u.bd ep dir slot) ∧
     (∀ x, (∀ ep ∈ l, ∀ dir, ∀ slot ∈ slots s.cfg ep dir, x ≠ bdAddr s.cfg ep dir slot) →
       (l.foldl (fun s ep => (s.overSlots ep .out Bd.returned).overSlots ep .inn Bd.returned) u).ram.read x =
         u.ram.read x) := by
    intro l
    induction l with
    | nil => intro u _ _; simp
    | cons e l ih =>
      intro u hu hl
      obtain ⟨i1, i2⟩ := ih ((u.overSlots e .out Bd.returned).overSlots e .inn Bd.returned) (by simpa using hu) (fun ep h => hl ep (by simp [h]))
      have he := hl e (by simp)
      refine ⟨fun ep dir slot => ?_, fun x hx => ?_⟩
      · have hcc : (u.overSlots e .out Bd.returned).cfg = s.cfg := by simpa using hu
        rw [List.foldl_cons, i1,
          State.bd_overSlots _ (by rw [hcc]; exact hc) _ _ _ keepsBuffer_returned (by rw [hcc]; exact he),
          State.bd_overSlots _ (by rw [hu]; exact hc) _ _ _ keepsBuffer_returned (by rw [hu]; exact he)]
        rw [hcc, hu]
        have hrr : ∀ b : Bd, b.returned.returned = b.returned := fun _ => rfl
        by_cases h1 : ep = e
        · subst h1
          by_cases h2 : slot ∈ slots s.cfg ep dir
          · cases dir <;> by_cases h3 : ep ∈ l <;> simp [h2, h3, hrr]
          · cases dir <;> simp [h2]
        · simp [h1]
      · rw [List.foldl_cons, i2 x (fun ep h => hx ep (by simp [h])),
          State.read_overSlots _ _ _ _ _ (by simpa [hu] using hx e (by simp) .inn),
          State.read_overSlots _ _ _ _ _ (by simpa [hu] using hx e (by simp) .out)]
  have hd := State.discardClassRecords_eq s
  have e : s.reinitEndpoints = ((endpoints s.cfg).filter (· ≠ 0)).foldl
      (fun s ep => (s.overSlots ep .out Bd.returned).overSlots ep .inn Bd.returned)
      { s.discardClassRecords with
        eps := s.discardClassRecords.eps.map fun e => { e with toggle := false, halt := false } } := by
    unfold State.reinitEndpoints
    simp only
    rw [show s.discardClassRecords.cfg = s.cfg by rw [hd]]
  obtain ⟨k1, k2⟩ := key ((endpoints s.cfg).filter (· ≠ 0)) { s.discardClassRecords with
        eps := s.discardClassRecords.eps.map fun e => { e with toggle := false, halt := false } } (by show s.discardClassRecords.cfg = _; rw [hd]) (fun ep h => ((hmem ep).mp h).2)
  have hbd : ∀ ep dir slot, ({ s.discardClassRecords with
        eps := s.discardClassRecords.eps.map fun e => { e with toggle := false, halt := false } } : State).bd ep dir slot = s.bd ep dir slot :=
    fun ep dir slot => State.bd_of_ram_eq (by show s.discardClassRecords.cfg = _; rw [hd]) (by show s.discardClassRecords.ram = _; rw [hd]) _ _ _
  refine ⟨fun ep dir slot => ?_, fun x hx => ?_⟩
  · rw [e, k1, hbd]
    simp only [hmem]
  · rw [e, k2 x (fun ep h dir => hx ep dir ((hmem ep).mp h).1 ((hmem ep).mp h).2)]
    show s.discardClassRecords.ram.read x = _; rw [hd]

theorem RequestFrom.configured (s : State) (n : Byte) : RequestFrom s (s.configured n) := by
  obtain ⟨h1, h2⟩ := State.reinitEndpoints_eq s
  refine ⟨?_, h2, .of_eq ?_, ?_⟩
  · unfold State.configured; rw [h1]
  · unfold State.configured; rw [h1]
  · unfold State.configured; rw [h1]; exact List.filter_sublist

/-! ### The handlers -/

theorem stdSetConfiguration_all (t : Byte) (v i l : Half) (s : State) :
    (stdSetConfiguration t v i l s).All (RequestFrom s) := by
  unfold stdSetConfiguration
  simp only
  split
  · exact reject_all s
  · split
    · exact reject_all s
    · split
      · exact reject_all s
      · refine (notifyHook_all _ _ _).bind (fun _ u h => ?_) fun u h => h.after (.configured s _)
        exact accept_all (h.after (.configured s _))

/-- Every handler's frame (R210). -/
theorem stdRequest_all {i : Instr} {handler : State → Res Bool} (h : stdRequest i = some handler) (s : State) :
    (handler s).All (RequestFrom s) := by
  cases i <;> simp only [stdRequest, Option.some.injEq, reduceCtorEq] at h <;> subst h
  case getStatus =>
    unfold stdGetStatus
    split
    · exact reject_all s
    · split
      · exact reject_all s
      · exact answerScratch_all _ _ _
  case clearFeature =>
    unfold stdClearFeature
    split
    · exact reject_all s
    · split
      · split
        · exact reject_all s
        · split
          · exact (clearStallOp_ends _ _ _).bind (fun _ u h => accept_all h.request) fun u h => h.request
          · exact accept_all (.refl s)
      · exact reject_all s
  case setFeature =>
    unfold stdSetFeature
    split
    · exact reject_all s
    · split
      · split
        · exact reject_all s
        · exact (stallOp_ends _ _ _).bind (fun _ u h => accept_all h.request) fun u h => h.request
      · exact reject_all s
  case setAddress =>
    unfold stdSetAddress
    split
    · exact reject_all s
    · split
      · exact reject_all s
      · exact accept_all ⟨rfl, id, .of_eq rfl, .refl _⟩
  case getDescriptor =>
    unfold stdGetDescriptor
    split
    · exact reject_all s
    · split
      · exact reject_all s
      · exact (xferOp_ends _ _ _ _ _).bind (fun _ u h => accept_all h.request) fun u h => h.request
  case setDescriptor => exact reject_all s
  case getConfiguration =>
    unfold stdGetConfiguration
    split
    · exact reject_all s
    · exact answerScratch_all _ _ _
  case setConfiguration => exact stdSetConfiguration_all _ _ _ _ _
  case getInterface =>
    unfold stdGetInterface
    split
    · exact reject_all s
    · exact answerScratch_all _ _ _
  case setInterface =>
    unfold stdSetInterface
    split
    · exact reject_all s
    · split
      · exact reject_all s
      · exact accept_all (.refl s)
  case synchFrame => exact reject_all s

theorem serve_all {i : Instr} {handler : State → Res Bool} (h : stdRequest i = some handler) (s : State) :
    (serve handler s).All (RequestFrom s) :=
  (stdRequest_all h s).bind (fun ok t h => (conclude_all _ ok t).mono fun _ h' => h'.after h) fun _ h => h

/-- A setup packet that decodes selects a handler, and the instruction is that handler's request (R102, R210). -/
theorem decodeReq_handler {sp : Word64} {i : Instr} (h : decodeReq sp = .ok i) :
    ∃ handler, stdRequest i = some handler ∧ ∀ s, exec i s = (serve handler s).toOutcome := by
  unfold decodeReq decodeSetup at h
  split at h
  · split at h
    all_goals first
      | (injection h with h; subst h; exact ⟨_, rfl, fun s => rfl⟩)
      | cases h
  · cases h

theorem dispatch_all (s : State) : (dispatch s).All (RequestFrom s) := by
  have hcls : (classRequest s).All (RequestFrom s) := by
    unfold classRequest
    split
    · exact (callHook_all _ s).bind (fun ok t h => (conclude_all _ ok t).mono fun _ h' => h'.after h) fun _ h => h
    · exact conclude_all _ _ _
  unfold dispatch
  split
  · exact hcls
  · split
    · exact serve_all ‹_› s
    · exact hcls

/-- SVC_TRN on a SETUP record (R172). -/
theorem svcTrnOp_setup (s : State) (slot : Slot) (addr : Half) (armed : BitVec 10) (rest : List Completion)
    (h : s.tq = ⟨0, .out, slot, true, addr, armed⟩ :: rest) :
    svcTrnOp s = ctSetup (s.bd 0 .out slot).cnt (onComplete 0 .out slot { s with tq := rest }).2 := by
  rw [svcTrnOp_cons s _ rest h]
  simp only [if_true]
  unfold ctEvent
  rw [if_pos (by simp)]

/-! ### What a served request makes of the state -/

/-- A short answer (R212, R224, R228): staged, armed, and accepted. -/
theorem answerScratch_from (s : State) (hs : s.serving) (bytes : List Byte) (hb : bytes.length ≤ 2) (l : Half) :
    ∃ u, answerScratch bytes l s = .ok true u ∧ ReplyFrom s u bytes l ∧ u.ctx.stage = .dataIn := by
  obtain ⟨hc, hst, ho⟩ := hs
  obtain ⟨v, hv⟩ : ∃ v, ({ s with ram := s.ram.writeBytes s.cfg.scratch.toNat bytes } : State) = v := ⟨_, rfl⟩
  have hvc : v.cfg = s.cfg := by rw [← hv]
  have hcv : v.cfg.wf := by rw [hvc]; exact hc
  have hn0 : (0 : BitVec 4).toNat < s.cfg.nep := by have := Params.wf_nep_pos hc; simpa using this
  have hsf := Params.wf_scratch_fits hc
  have hts := Params.wf_table_scratch hc
  have hes := Params.wf_ep0_scratch hc
  have hte := Params.wf_table_ep0 hc
  have hm := Params.wf_mps0_cases hc
  have hl := l.isLt
  unfold disjointRanges at hts hes hte
  have hvram : ∀ x, v.ram.read x =
      if s.cfg.scratch.toNat ≤ x ∧ x < s.cfg.scratch.toNat + bytes.length ∧ x < spaceSize
      then bytes.getD (x - s.cfg.scratch.toNat) 0 else s.ram.read x := by
    intro x; rw [← hv]; exact Memory.read_writeBytes _ _ _ _
  have hvbd : ∀ slot, v.bd 0 .inn slot = s.bd 0 .inn slot := by
    intro slot
    refine State.bd_congr hvc _ _ _ fun i hi => ?_
    have := bdAddr_bounds s.cfg 0 .inn slot hn0
    rw [hvram, if_neg (by omega)]
  have hvn : v.nextSlot 0 .inn = s.nextSlot 0 .inn := State.nextSlot_congr hvc (by rw [← hv]) _ _
  have hlen : (BitVec.ofNat 16 bytes.length).toNat = bytes.length := by rw [BitVec.toNat_ofNat]; exact Nat.mod_eq_of_lt (by omega)
  have hsp : spaceSize = 65536 := rfl
  have ht := xferOp_taken v hcv .ram s.cfg.scratch (.ofNat 16 bytes.length) l (by rw [← hv]; exact hst) (by rw [hlen]; omega)
  have hf := State.xferStart_from v hcv .ram s.cfg.scratch (.ofNat 16 bytes.length) l (by rw [hlen]; omega)
  rw [hvn, hvbd, ho] at ht
  rw [hvn] at hf
  rw [hlen, hvc] at ht hf
  obtain ⟨n, hn⟩ : ∃ n, min bytes.length l.toNat = n := ⟨_, rfl⟩
  have hkn : min n (mps0 s.cfg) = n := by omega
  rw [hn, hkn] at ht hf
  simp only [Bool.false_eq_true, if_false] at ht
  generalize ((v.xferStart .ram s.cfg.scratch (BitVec.ofNat 16 bytes.length) l).staged n).armed false false 0
    Dir.inn (s.nextSlot 0 Dir.inn) true s.cfg.ep0Buf (BitVec.ofNat 16 n) = u at ht hf
  obtain ⟨⟨f1, f2, f3, f4, f5, f6⟩, f7, f8⟩ := hf
  unfold xferCtx at f7
  dsimp only at f7
  rw [hlen, hn, hvc, hkn] at f7
  simp only [hlen, hn, hvc, hkn] at f1 f2 f3 f4 f5 f6
  rw [← hv] at f8
  rw [hvn] at f3 f6
  have hves : ∀ ep dir, v.epsAt ep dir = s.epsAt ep dir := fun ep dir => by rw [← hv]; rfl
  have hb0 := bdAddr_bounds s.cfg 0 .inn (s.nextSlot 0 .inn) hn0
  refine ⟨u, ?_, ⟨?_, ?_, ?_, ?_, ?_, ?_, ?_⟩, by rw [f7]⟩
  · unfold answerScratch
    rw [hv, ht]; rfl
  · rw [hn, f1, f7]
    have : decide (n = mps0 s.cfg) = false := by simp; omega
    rw [this, Bool.and_false, Nat.sub_self, ← half_add_ofNat, ← hv,
      State.drawsAfter_of_fits ((fits_iff _ _).mpr (by omega))]
    rfl
  · intro i hi
    rw [hn] at hi
    have := f2 i hi
    rw [hvc, if_neg (by omega)] at this
    rw [this]
    show v.ram.fetch _ _ = _
    rw [Memory.fetch_of_lt (by omega), hvram, if_pos (by omega)]
    congr 1; omega
  · intro i hi
    rw [f6 _ (by omega) (by omega), hvram, if_pos (by omega)]
    congr 1; omega
  · rw [hn]; exact f3
  · rw [f4, hves]
  · intro ep' dir' h
    rw [f5 _ _ h, hves]
  · intro x h1 h2 h3
    rw [hn] at h1
    rw [f6 _ h1 h3, hvram, if_neg (by omega)]

/-- A request that answers from `SCRATCH` completes with that reply. -/
theorem serve_reply (s : State) (hs : s.serving) (bytes : List Byte) (hb : bytes.length ≤ 2) (l : Half)
    (hd : State → Res Bool) (h : hd s = answerScratch bytes l s) :
    ∃ u, (serve hd s).toOutcome = .next u ∧ ReplyFrom s u bytes l := by
  obtain ⟨u, h1, h2, h3⟩ := answerScratch_from s hs bytes hb l
  refine ⟨u, ?_, h2⟩
  unfold serve
  rw [h, h1, Res.bind_ok, conclude_accept_data _ _ (by rw [h3]; simp)]; rfl

/-- A rejected request completes with a request error (R175). -/
theorem serve_reject (s : State) (hc : s.cfg.wf) (hd : State → Res Bool) (h : hd s = reject s) :
    ∃ u, (serve hd s).toOutcome = .next u ∧ RequestErrorFrom s u .rejected := by
  refine ⟨_, ?_, State.requestError_from s hc .rejected⟩
  unfold serve
  rw [h]; rfl

/-- An accepted request without data completes with its status armed (R175). -/
theorem serve_accept (s t : State) (hs : t.serving) (hd : State → Res Bool) (h : hd s = accept t) :
    ∃ u, (serve hd s).toOutcome = .next u ∧ StatusArmedFrom t u := by
  obtain ⟨u, h1, h2⟩ := conclude_accept .rejected t hs.1 hs.2.1 hs.2.2
  refine ⟨u, ?_, h2⟩
  unfold serve
  rw [h]; show (conclude .rejected true t).toOutcome = _
  rw [h1]; rfl

end Sys2Proof.Machine
end

