-- ==== Sys2Proof/Laws/Invariant.lean ====
section
/-! SUPPORT. The invariant but for `BUSY`, which SERVICE raises while it runs, and what each operation needs to keep
it. -/

namespace Sys2Proof.Machine

/-- `State.Inv` without its clause on `BUSY`. -/
structure State.Core (s : State) : Prop where
  params : s.cfg.wf
  ram : s.ram.wf
  rom : s.rom.wf
  queue : s.tq.length ≤ s.cfg.tqDepth
  records : ∀ r ∈ s.tq, r.ep.toNat < s.cfg.nep ∧ r.slot ∈ slots s.cfg r.ep r.dir
  active : s.tq ≠ [] → s.devState.active
  enables : ∀ i, s.cfg.nep ≤ i → s.epen.getLsbD i = false
  attached : s.devState ≠ .attached
  enabled : s.usbEn = true ↔ s.devState ≠ .detached
  configured : s.config ≠ 0 ↔ s.devState = .configured
  address : s.devAddr ≠ 0 ↔ s.devState = .address ∨ s.devState = .configured
  pending : s.addrPending = true → s.devState = .default ∨ s.devState = .address
  pointers : ∀ ep dir, pp s.cfg ep dir = true → s.engSlotBit ep dir = (s.newestSlot ep dir).other

theorem State.Inv.core {s : State} (h : s.Inv) : s.Core :=
  ⟨h.params, h.ram, h.rom, h.queue, h.records, h.active, h.enables, h.attached, h.enabled, h.configured, h.address,
    h.pending, h.pointers⟩

theorem State.Core.inv {s : State} (h : s.Core) (hb : s.busy = false) : s.Inv :=
  ⟨h.params, h.ram, h.rom, hb, h.queue, h.records, h.active, h.enables, h.attached, h.enabled, h.configured, h.address,
    h.pending, h.pointers⟩

theorem State.newestSlot_congr {s t : State} (hq : t.tq = s.tq) (hl : ∀ ep dir, (t.epsAt ep dir).last = (s.epsAt ep dir).last)
    (ep : BitVec 4) (dir : Dir) : t.newestSlot ep dir = s.newestSlot ep dir := by
  unfold State.newestSlot; rw [hq, hl]

/-- A change of anything that the invariant does not speak of keeps it. -/
theorem State.Core.keep {s t : State} (h : s.Core) (hr : t.ram.wf)
    (hf : t.cfg = s.cfg ∧ t.rom = s.rom ∧ t.tq = s.tq ∧ t.devState = s.devState ∧ t.epen = s.epen ∧ t.usbEn = s.usbEn ∧
      t.config = s.config ∧ t.devAddr = s.devAddr ∧ t.engPp = s.engPp)
    (hp : t.addrPending = true → s.addrPending = true)
    (hl : ∀ ep dir, (t.epsAt ep dir).last = (s.epsAt ep dir).last) : t.Core := by
  obtain ⟨h1, h2, h3, h4, h5, h6, h7, h8, h9⟩ := hf
  refine ⟨h1 ▸ h.params, hr, h2 ▸ h.rom, ?_, ?_, ?_, ?_, ?_, ?_, ?_, ?_, ?_, ?_⟩
  · rw [h1, h3]; exact h.queue
  · rw [h1, h3]; exact h.records
  · rw [h3, h4]; exact h.active
  · rw [h1, h5]; exact h.enables
  · rw [h4]; exact h.attached
  · rw [h4, h6]; exact h.enabled
  · rw [h4, h7]; exact h.configured
  · rw [h4, h8]; exact h.address
  · rw [h4]; exact fun ht => h.pending (hp ht)
  · intro ep dir hpp
    rw [State.newestSlot_congr h3 hl]
    unfold State.engSlotBit
    rw [h9]
    exact h.pointers ep dir (h1 ▸ hpp)

theorem State.Core.hook {s t : State} (h : s.Core) (hf : HookFrom s t) : t.Core := by
  refine h.keep (hf.wf h.ram) ?_ (fun ht => ?_) hf.last
  · rw [hf.frame]; exact ⟨rfl, rfl, rfl, rfl, rfl, rfl, rfl, rfl, rfl⟩
  · rw [hf.frame] at ht; exact ht

theorem State.Core.command {s t : State} (h : s.Core) (hf : CommandFrom s t) : t.Core := h.hook hf.hook

theorem State.Core.requestError {s : State} (h : s.Core) (cause : ErrorCause) : (s.requestError cause).Core := by
  have h1 : ({ s with trace := s.trace ++ [TraceItem.requestError cause] } : State).Core :=
    h.keep h.ram ⟨rfl, rfl, rfl, rfl, rfl, rfl, rfl, rfl, rfl⟩ id fun _ _ => rfl
  exact (h1.command (.stallEndpoint _ 0 .inn)).command (.ctx _ Ctx.destroyed)

/-- A record popped and its bookkeeping done (R137, R253). -/
theorem State.Core.onComplete {s : State} (h : s.Core) (r : Completion) (rest : List Completion) (hq : s.tq = r :: rest) :
    (onComplete r.ep r.dir r.slot { s with tq := rest }).2.Core := by
  have hsub : ∀ x ∈ rest, x ∈ s.tq := fun x hx => by rw [hq]; exact List.mem_cons_of_mem _ hx
  have hq' := h.queue
  rw [hq, List.length_cons] at hq'
  refine ⟨h.params, h.ram, h.rom, Nat.le_of_succ_le hq', fun x hx => h.records x (hsub x hx),
    fun hne => h.active (by rw [hq]; exact List.cons_ne_nil _ _), h.enables, h.attached, h.enabled, h.configured, h.address,
    h.pending, ?_⟩
  intro ep dir hpp
  have := h.pointers ep dir hpp
  refine this.trans ?_
  congr 1
  unfold State.newestSlot
  rw [hq, List.foldl_cons]
  congr 1
  show _ = ((State.setEps { s with tq := rest } r.ep r.dir _).epsAt ep dir).last
  rw [State.epsAt_setEps]
  by_cases hm : r.ep = ep ∧ r.dir = dir
  · obtain ⟨rfl, rfl⟩ := hm
    rw [if_pos ⟨rfl, rfl⟩, if_pos ⟨rfl, rfl⟩]
    exact (if_pos hpp).symm
  · rw [if_neg hm, if_neg (fun hh => hm ⟨hh.1.symm, hh.2.symm⟩)]
    rfl

/-- A pending address put into effect (R182). -/
theorem State.Core.statusDone {s : State} (h : s.Core) : s.statusDone.Core := by
  have key : (if s.addrPending then
      { s with
        devAddr := s.newAddr
        devState := if s.newAddr ≠ 0 then .address else .default
        addrPending := false }
      else s).Core := by
    split
    · rename_i hp
      have hd := h.pending hp
      have hu : s.usbEn = true := h.enabled.mpr (by rcases hd with e | e <;> rw [e] <;> decide)
      have hc : s.config = 0 := by
        by_contra hc
        have := h.configured.mp hc
        rcases hd with e | e <;> rw [e] at this <;> cases this
      refine ⟨h.params, h.ram, h.rom, h.queue, h.records, fun _ => ?_, h.enables, ?_, ?_, ?_, ?_, ?_, h.pointers⟩ <;>
      · by_cases hz : s.newAddr = 0#7 <;> simp [hz, hu, hc, DevState.active]
    · exact h
  unfold State.statusDone State.destroyCtx
  exact key.command (.ctx _ Ctx.destroyed)

theorem one_getLsbD {i : Nat} (h : 1 ≤ i) : (1 : Half).getLsbD i = false := by
  by_cases hi : i < 16
  · interval_cases i <;> rfl
  · exact BitVec.getLsbD_of_ge _ _ (by omega)

/-- INIT and SHUTDOWN (R240, R256). -/
theorem State.Core.restart {s : State} (h : s.Core) (en : Bool) (d : DevState) (hd : d = .powered ∨ d = .detached)
    (he : en = true ↔ d ≠ .detached) : (s.restart en d).Core := by
  refine ⟨h.params, State.wf_clearEndpoints h.ram, h.rom, Nat.zero_le _, fun r hr => (List.not_mem_nil hr).elim,
    fun hn => absurd rfl hn, fun i _ => ?_, ?_, he, ?_, ?_, fun hp => Bool.noConfusion hp, ?_⟩
  · show (0x0000 : Half).getLsbD i = false
    simp
  · show d ≠ _
    rcases hd with rfl | rfl <;> decide
  · show (0 : Byte) ≠ 0 ↔ d = _
    rcases hd with rfl | rfl <;> simp
  · show (0 : BitVec 7) ≠ 0 ↔ d = _ ∨ d = _
    rcases hd with rfl | rfl <;> simp
  · intro ep dir _
    show (Vector.replicate 32 Slot.even)[epIx ep dir] = (((Vector.replicate 32 Eps.initial)[epIx ep dir]).last).other
    simp [Eps.initial, Slot.other]

/-- The assignments of SVC_RST (R248). -/
theorem State.Core.busReset {s : State} (h : s.Core) (hu : s.usbEn = true) : s.busResetValues.Core := by
  refine ⟨h.params, State.wf_clearEndpoints h.ram, h.rom, Nat.zero_le _, fun r hr => (List.not_mem_nil hr).elim,
    fun hn => absurd rfl hn, fun i hi => ?_, ?_, ?_, ?_, ?_, fun hp => Bool.noConfusion hp, ?_⟩
  · show (0x0001 : Half).getLsbD i = false
    have h0 := Params.wf_nep_pos h.params
    have hi' : s.cfg.nep ≤ i := hi
    exact one_getLsbD (by omega)
  · show DevState.default ≠ _
    decide
  · show s.usbEn = true ↔ DevState.default ≠ _
    simp [hu]
  · show (0 : Byte) ≠ 0 ↔ DevState.default = _
    simp
  · show (0 : BitVec 7) ≠ 0 ↔ DevState.default = _ ∨ DevState.default = _
    simp
  · intro ep dir _
    show (Vector.replicate 32 Slot.even)[epIx ep dir] = (((Vector.replicate 32 Eps.initial)[epIx ep dir]).last).other
    simp [Eps.initial, Slot.other]

theorem State.newestSlot_filter (l : List Completion) (ep : BitVec 4) (dir : Dir) (x : Slot) :
    (l.filter fun r => r.ep = 0).foldl (fun last r => if r.ep = ep ∧ r.dir = dir then r.slot else last) x =
      if ep = 0 then l.foldl (fun last r => if r.ep = ep ∧ r.dir = dir then r.slot else last) x else x := by
  induction l generalizing x with
  | nil => simp
  | cons r l ih =>
    by_cases h0 : r.ep = 0
    · rw [List.filter_cons_of_pos (by simpa using h0), List.foldl_cons, List.foldl_cons, ih]
      by_cases hep : ep = 0
      · rw [if_pos hep, if_pos hep]
      · rw [if_neg hep, if_neg hep, if_neg (fun hh : r.ep = ep ∧ r.dir = dir => hep (hh.1 ▸ h0))]
    · rw [List.filter_cons_of_neg (by simpa using h0), List.foldl_cons, ih]
      by_cases hep : ep = 0
      · rw [if_pos hep, if_pos hep, if_neg (fun hh : r.ep = ep ∧ r.dir = dir => h0 (hh.1.trans hep))]
      · rw [if_neg hep, if_neg hep]

/-- The enables of a configuration lie below `NEP` (R8, R33). -/
theorem cfgEps_getLsbD {c : Params} (hc : c.wf) (n : Byte) (i : Nat) (hi : c.nep ≤ i) :
    (cfgEps c n).getLsbD i = false := by
  have hall := hc.2.2.2.2.2.2.2.2.2.2.2.2.2.2.2.2
  unfold cfgEps
  rw [List.getD_eq_getElem?_getD]
  cases hg : c.cfgEps[n.toNat - 1]? with
  | none => simp
  | some m =>
    have hm := List.all_eq_true.mp hall m (List.mem_of_getElem? hg)
    have hlt : m.toNat < 2 ^ c.nep := (of_decide_eq_true hm).2
    show m.getLsbD i = false
    rw [BitVec.getLsbD, Nat.testBit_eq_false_of_lt (lt_of_lt_of_le hlt (Nat.pow_le_pow_right (by omega) hi))]

/-- The configuration of SET_CONFIGURATION (R226), from Address or Configured with no address pending. -/
theorem State.Core.setConfiguration {s : State} (h : s.Core) (n : Byte) (hd : s.devState = .address ∨ s.devState = .configured)
    (hp : s.addrPending = false) : (s.configured n).Core := by
  obtain ⟨hr1, hr2⟩ := State.reinitEndpoints_eq s
  have f1 : (s.configured n).cfg = s.cfg := by show s.reinitEndpoints.cfg = _; rw [hr1]
  have f2 : (s.configured n).tq = s.tq.filter fun r => r.ep = 0 := by show s.reinitEndpoints.tq = _; rw [hr1]
  have f3 : (s.configured n).usbEn = s.usbEn := by show s.reinitEndpoints.usbEn = _; rw [hr1]
  have f4 : (s.configured n).devAddr = s.devAddr := by show s.reinitEndpoints.devAddr = _; rw [hr1]
  have f5 : (s.configured n).addrPending = s.addrPending := by show s.reinitEndpoints.addrPending = _; rw [hr1]
  have f6 : (s.configured n).engPp = s.engPp := by show s.reinitEndpoints.engPp = _; rw [hr1]
  have f7 : (s.configured n).rom = s.rom := by show s.reinitEndpoints.rom = _; rw [hr1]
  have f8 : (s.configured n).devState = if n ≠ 0 then .configured else .address := rfl
  have f9 : (s.configured n).config = n := rfl
  have f10 : (s.configured n).epen = if n ≠ 0 then 1 ||| cfgEps s.cfg n else 1 := rfl
  have hu : s.usbEn = true := h.enabled.mpr (by rcases hd with e | e <;> rw [e] <;> decide)
  have ha : s.devAddr ≠ 0 := h.address.mpr hd
  refine ⟨f1 ▸ h.params, hr2 h.ram, f7 ▸ h.rom, ?_, ?_, ?_, ?_, ?_, ?_, ?_, ?_, ?_, ?_⟩
  · rw [f1, f2]; exact (List.length_filter_le _ _).trans h.queue
  · rw [f1, f2]; exact fun r hr => h.records r (List.mem_of_mem_filter hr)
  · intro _; rw [f8]; by_cases hz : n = 0#8 <;> simp [hz, DevState.active]
  · intro i hi
    rw [f1] at hi
    have h0 := Params.wf_nep_pos h.params
    have h1 : (1 : Half).getLsbD i = false := one_getLsbD (by omega)
    rw [f10]
    split
    · rw [BitVec.getLsbD_or, h1, cfgEps_getLsbD h.params n i hi]; rfl
    · exact h1
  · rw [f8]; split <;> decide
  · rw [f3, f8, hu]; by_cases hz : n = 0#8 <;> simp [hz]
  · rw [f9, f8]; by_cases hz : n = 0#8 <;> simp [hz]
  · rw [f4, f8]; exact ⟨fun _ => by by_cases hz : n = 0#8 <;> simp [hz], fun _ => ha⟩
  · rw [f5, hp]; exact fun hh => Bool.noConfusion hh
  · intro ep dir hpp
    rw [f1] at hpp
    have hs : (s.configured n).newestSlot ep dir = s.newestSlot ep dir := by
      unfold State.newestSlot
      rw [f2, State.newestSlot_filter, show (s.configured n).epsAt ep dir = s.reinitEndpoints.epsAt ep dir from rfl,
        State.epsAt_reinitEndpoints]
      by_cases hep : ep = 0
      · rw [if_pos hep]; simp only [hep, ne_eq, not_true_eq_false, false_and, if_false]
      · rw [if_neg hep]; simp only [ne_eq, hep, not_false_eq_true, hpp, and_self, if_true]; rfl
    rw [hs]
    unfold State.engSlotBit
    rw [f6]
    exact h.pointers ep dir hpp

/-- A completion reported by ENG (R289, R290): `t` is the state with the packet's writes done. -/
theorem State.Core.report {s : State} (h : s.Core) (r : Completion) (he : r.ep.toNat < s.cfg.nep)
    (hs : r.slot = if pp s.cfg r.ep r.dir then s.engSlotBit r.ep r.dir else .even) (hq : s.tq.length < s.cfg.tqDepth)
    (hd : s.devState.active) : (s.report r).Core := by
  have hf := State.flipEngPp_frame s r.ep r.dir
  have fr : ∀ {α : Type} (f : State → α), (∀ x : Vector Slot 32, f { s with engPp := x } = f s) →
      f (s.flipEngPp r.ep r.dir) = f s := by
    intro α f hx; unfold State.flipEngPp; split
    · exact hx _
    · rfl
  have c1 : (s.report r).cfg = s.cfg := fr State.cfg fun _ => rfl
  have c2 : (s.report r).tq = s.tq ++ [r] := State.report_tq s r
  have c3 : (s.report r).devState = s.devState := fr State.devState fun _ => rfl
  refine ⟨c1 ▸ h.params, ?_, ?_, ?_, ?_, fun _ => c3 ▸ hd, ?_, c3 ▸ h.attached, ?_, ?_, ?_, ?_, ?_⟩
  · rw [show (s.report r).ram = s.ram from fr State.ram fun _ => rfl]; exact h.ram
  · rw [show (s.report r).rom = s.rom from fr State.rom fun _ => rfl]; exact h.rom
  · rw [c1, c2, List.length_append]; exact hq
  · rw [c1, c2]
    intro x hx
    rcases List.mem_append.mp hx with hx | hx
    · exact h.records x hx
    · rw [List.mem_singleton.mp hx]
      refine ⟨he, ?_⟩
      rw [mem_slots_iff, hs]
      intro ho
      by_contra hpp
      rw [if_neg hpp] at ho; cases ho
  · rw [c1, show (s.report r).epen = s.epen from fr State.epen fun _ => rfl]; exact h.enables
  · rw [c3, show (s.report r).usbEn = s.usbEn from fr State.usbEn fun _ => rfl]; exact h.enabled
  · rw [c3, show (s.report r).config = s.config from fr State.config fun _ => rfl]; exact h.configured
  · rw [c3, show (s.report r).devAddr = s.devAddr from fr State.devAddr fun _ => rfl]; exact h.address
  · rw [c3, show (s.report r).addrPending = s.addrPending from fr State.addrPending fun _ => rfl]; exact h.pending
  · intro ep dir hpp
    rw [c1] at hpp
    show (s.flipEngPp r.ep r.dir).engSlotBit ep dir = _
    rw [State.engSlotBit_flipEngPp]
    unfold State.newestSlot
    rw [c2, List.foldl_append, List.foldl_cons, List.foldl_nil]
    by_cases hm : ep = r.ep ∧ dir = r.dir
    · obtain ⟨rfl, rfl⟩ := hm
      rw [if_pos ⟨⟨rfl, rfl⟩, hpp⟩, if_pos ⟨rfl, rfl⟩, hs, if_pos hpp]
    · rw [if_neg (fun hh => hm hh.1), if_neg (fun hh => hm ⟨hh.1.symm, hh.2.symm⟩)]
      have hl : (s.report r).epsAt ep dir = s.epsAt ep dir :=
        fr (fun s => s.epsAt ep dir) fun _ => rfl
      rw [hl]
      exact h.pointers ep dir hpp

end Sys2Proof.Machine
end

