-- ==== Sys2Proof/Laws/Lasting.lean ====
section
/-! SUPPORT. What no element of the schedule changes (the parameters, ROM, a fault bit that is set), and what one record
served and one SERVICE do at least. -/

namespace Sys2Proof.Machine

/-- What nothing changes: the parameters, ROM, and a fault bit that is set (R43, R80, R332). -/
structure LastingFrom (s t : State) : Prop where
  cfg : t.cfg = s.cfg
  rom : t.rom = s.rom
  faults : FaultsKept s t

theorem LastingFrom.of_eq {s t : State} (h1 : t.cfg = s.cfg) (h2 : t.rom = s.rom) (h3 : t.fault = s.fault) :
    LastingFrom s t := ⟨h1, h2, .of_eq h3⟩

theorem LastingFrom.refl (s : State) : LastingFrom s s := .of_eq rfl rfl rfl

theorem LastingFrom.trans {s t u : State} (h : LastingFrom s t) (h' : LastingFrom t u) : LastingFrom s u :=
  ⟨h'.1.trans h.1, h'.2.trans h.2, h.3.trans h'.3⟩

theorem LastingFrom.after {s t u : State} (h' : LastingFrom t u) (h : LastingFrom s t) : LastingFrom s u := h.trans h'

/-- Written on: `u` differs from `t` in other things. -/
theorem LastingFrom.to {s t u : State} (h : LastingFrom s t) (h1 : u.cfg = t.cfg) (h2 : u.rom = t.rom)
    (h3 : u.fault = t.fault) : LastingFrom s u := (LastingFrom.of_eq h1 h2 h3).after h

/-- Begun from: `r` differs from `s` in other things. -/
theorem LastingFrom.since {r s t : State} (h : LastingFrom s t) (h1 : s.cfg = r.cfg) (h2 : s.rom = r.rom)
    (h3 : s.fault = r.fault) : LastingFrom r t := h.after (LastingFrom.of_eq h1 h2 h3)

theorem RequestFrom.lasting {s t : State} (h : RequestFrom s t) : LastingFrom s t :=
  ⟨by rw [h.frame], by rw [h.frame], h.faults⟩

theorem CommandFrom.lasting {s t : State} (h : CommandFrom s t) : LastingFrom s t := h.request.lasting

theorem Res.All.lasting {α : Type} {s : State} {x : Res α} (h : x.All (CommandFrom s)) : x.All (LastingFrom s) :=
  h.mono fun _ h => h.lasting

/-! ### Serving one record -/

/-- What serving one record keeps (R253): what lasts, the flags, and the queue but for records taken from it. -/
structure TransactionFrom (s t : State) : Prop where
  lasting : LastingFrom s t
  ir : t.ir = s.ir
  tq : t.tq.Sublist s.tq

/-- Of writes to other elements. -/
theorem TransactionFrom.of_eq {s t : State} (h1 : t.cfg = s.cfg) (h2 : t.rom = s.rom) (h3 : t.fault = s.fault)
    (h4 : t.ir = s.ir) (h5 : t.tq = s.tq) : TransactionFrom s t := ⟨.of_eq h1 h2 h3, h4, by rw [h5]⟩

theorem TransactionFrom.refl (s : State) : TransactionFrom s s := .of_eq rfl rfl rfl rfl rfl

theorem TransactionFrom.after {s t u : State} (h' : TransactionFrom t u) (h : TransactionFrom s t) : TransactionFrom s u :=
  ⟨h'.1.after h.1, h'.2.trans h.2, h'.3.trans h.3⟩

theorem RequestFrom.transaction {s t : State} (h : RequestFrom s t) : TransactionFrom s t :=
  ⟨h.lasting, by rw [h.frame], h.tq⟩

theorem CommandFrom.transaction {s t : State} (h : CommandFrom s t) : TransactionFrom s t := h.request.transaction

theorem Res.All.transaction {α : Type} {s : State} {x : Res α} (h : x.All (CommandFrom s)) :
    x.All (TransactionFrom s) := h.mono fun _ h => h.transaction

theorem ctOutData_transaction (count : BitVec 10) (s : State) : (ctOutData count s).All (TransactionFrom s) := by
  unfold ctOutData
  split
  · exact (ep0OutRearm_ends _ _).transaction.mono fun _ h => h.after (RequestFrom.requestError s .overrun).transaction
  · refine Res.All.bind (P := TransactionFrom s) ?_
      (fun _ t h => (ep0OutRearm_ends _ _).transaction.mono fun u h' => h'.after h) fun t h => h
    have hc : TransactionFrom s (s.consumed count) := .of_eq rfl rfl rfl rfl rfl
    split
    · exact (armStatusOp_ends .inn _).transaction.bind
        (fun _ t h => ((CommandFrom.ctx t _).transaction.after h).after hc) fun t h => h.after hc
    · exact hc

theorem ctSetup_transaction (count : BitVec 10) (s : State) : (ctSetup count s).All (TransactionFrom s) := by
  have hp : TransactionFrom s s.setupPrologue := by rw [State.setupPrologue_eq]; exact .of_eq rfl rfl rfl rfl rfl
  have hl : TransactionFrom s s.setupPrologue.latchSetup :=
    TransactionFrom.after (t := s.setupPrologue) (.of_eq rfl rfl rfl rfl rfl) hp
  unfold ctSetup
  refine Res.All.bind (P := TransactionFrom s) ?_ (fun _ t h => ?_) fun t h => h
  · split
    · exact (RequestFrom.requestError _ .setupLen).transaction.after hp
    · exact (dispatch_all _).mono fun _ h => h.transaction.after hl
  · exact (ep0OutRearm_ends _ _).transaction.bind
      (fun _ u hu => TransactionFrom.after (t := u) (.of_eq rfl rfl rfl rfl rfl) (hu.after h)) fun u hu => hu.after h

theorem State.statusDone_transaction (s : State) : TransactionFrom s s.statusDone := by
  unfold State.statusDone State.destroyCtx
  split <;> exact .of_eq rfl rfl rfl rfl rfl

theorem ctEvent_transaction (r : Completion) (count : BitVec 10) (s : State) :
    (ctEvent r count s).All (TransactionFrom s) := by
  have h0 := TransactionFrom.refl s
  have hr : ∀ f (v : State), TransactionFrom s v → (ep0OutRearm f v).All (TransactionFrom s) := fun f v hv =>
    (ep0OutRearm_ends _ _).transaction.mono fun _ h => h.after hv
  unfold ctEvent
  split
  · exact ctSetup_transaction _ _
  · split
    · exact h0
    · split
      · exact h0
      · exact hr _ _ h0
      · exact h0
      · exact hr _ _ h0
      · exact (ctInStep_ends _).mono fun _ h =>
          TransactionFrom.after h.transaction (.of_eq rfl rfl rfl rfl rfl)
      · exact hr _ _ ((CommandFrom.ctx _ Ctx.destroyed).after (.overSlots s 0 .inn _)).transaction
      · exact h0
      · exact ctOutData_transaction _ _
      · exact s.statusDone_transaction
      · exact hr _ _ h0
      · exact h0
      · exact hr _ _ (CommandFrom.ctx _ Ctx.destroyed).transaction

/-- SVC_TRN takes the oldest record; serving it adds none (R253). -/
theorem svcTrnOp_transaction (s : State) : (svcTrnOp s).All (TransactionFrom { s with tq := s.tq.tail }) := by
  cases hq : s.tq with
  | nil => unfold svcTrnOp; rw [hq]; exact .of_eq rfl rfl rfl rfl (by rw [hq]; rfl)
  | cons r rest =>
    rw [svcTrnOp_cons s r rest hq]
    have h0 : TransactionFrom { s with tq := rest } (onComplete r.ep r.dir r.slot { s with tq := rest }).2 :=
      .of_eq rfl rfl rfl rfl rfl
    dsimp only [List.tail_cons]
    split
    · exact (ctEvent_transaction _ _ _).mono fun _ h => h.after h0
    · exact (notifyHook_all _ _ _).mono fun _ h => h.transaction.after h0

/-- A notification never raises, whatever the hook answers (R262, R303). -/
theorem notifyHook_transaction (present : Bool) (item : TraceItem) (s : State) :
    ∃ t, notifyHook present item s = .ok () t ∧ TransactionFrom s t := by
  obtain ⟨t, h, -⟩ := notifyHook_ok present item s
  have := notifyHook_all present item s
  rw [h] at this
  exact ⟨t, h, RequestFrom.transaction this⟩

theorem svcIdleOp_transaction (s : State) : ∃ t, svcIdleOp s = .ok () t ∧ TransactionFrom s t := by
  obtain ⟨t, h, ht⟩ := notifyHook_transaction s.cfg.hooks.idle .hookIdle { s with suspended := true }
  exact ⟨t, h, ht.after (.of_eq rfl rfl rfl rfl rfl)⟩

theorem svcActOp_transaction (s : State) : ∃ t, svcActOp s = .ok () t ∧ TransactionFrom s t := by
  obtain ⟨t, h, ht⟩ := notifyHook_transaction (s.suspended && s.cfg.hooks.resume) .hookResume { s with suspended := false }
  obtain ⟨u, h', hu⟩ := notifyHook_transaction t.cfg.hooks.activity .hookActivity t
  refine ⟨u, ?_, (hu.after ht).after (.of_eq rfl rfl rfl rfl rfl)⟩
  unfold svcActOp
  rw [h]
  exact h'

theorem svcSofOp_transaction (s : State) : ∃ t, svcSofOp s = .ok () t ∧ TransactionFrom s t :=
  notifyHook_transaction _ _ s

/-! ### One SERVICE -/

/-- What one SERVICE does at least (R242 to R246): what lasts is kept, no flag is left pending, and at most one record is
served. -/
structure ServiceFrom (s t : State) : Prop where
  lasting : LastingFrom s t
  ir : t.ir = IrFlags.none
  tq : t.tq.Sublist s.tq.tail

/-- `BUSY` apart (R242). -/
theorem ServiceFrom.idle {s t : State} (h : ServiceFrom { s with busy := true } t) :
    ServiceFrom s { t with busy := false } := by
  have hl : LastingFrom s t := h.lasting.since rfl rfl rfl
  exact ⟨hl.to rfl rfl rfl, h.ir, h.tq⟩

/-- A notification arm runs when its flag is set, with the flag cleared first (R246). -/
theorem TransactionFrom.notified {s t : State} {ir : IrFlags} (h : TransactionFrom { s with ir := ir } t)
    (flag : IrFlags → Bool) (clear : IrFlags → IrFlags) {arm : State → Res Unit}
    (ha : ∀ u, ∃ v, arm u = .ok () v ∧ TransactionFrom u v) :
    ∃ v, Res.when (flag t.ir) (fun u => arm { u with ir := clear u.ir }) t = .ok () v ∧
      TransactionFrom { s with ir := if flag ir then clear ir else ir } v := by
  have e : t.ir = ir := h.ir
  unfold Res.when
  rw [e]
  split
  · obtain ⟨v, hv, h'⟩ := ha { t with ir := clear t.ir }
    have hl : LastingFrom s { t with ir := clear t.ir } := (h.lasting.since (r := s) rfl rfl rfl).to rfl rfl rfl
    exact ⟨v, hv, (h'.lasting.after hl).since rfl rfl rfl, h'.ir.trans (by rw [← e]), h'.tq.trans h.tq⟩
  · exact ⟨t, rfl, h⟩

theorem serviceArms_service (s : State) : (serviceArms s).All (ServiceFrom s) := by
  unfold serviceArms
  split
  · exact (armOutOp_ends _ _ _ _ _ _).transaction.mono fun _ h =>
      ⟨h.lasting.after (.of_eq rfl rfl rfl), h.ir, h.tq.trans (List.nil_sublist _)⟩
  · rename_i hr
    obtain ⟨t, e1, h1⟩ := (TransactionFrom.refl s).notified (·.idle) ({ · with idle := false }) svcIdleOp_transaction
    rw [e1, Res.bind_ok]
    obtain ⟨t, e1, h1⟩ := h1.notified (·.act) ({ · with act := false }) svcActOp_transaction
    rw [e1, Res.bind_ok]
    obtain ⟨t, e1, h1⟩ := h1.notified (·.sof) ({ · with sof := false }) svcSofOp_transaction
    rw [e1, Res.bind_ok]
    have hl : LastingFrom s t := h1.lasting.since rfl rfl rfl
    have hir : t.ir = IrFlags.none := by
      rw [h1.ir]
      generalize s.ir = f at hr
      obtain ⟨a, b, c, d⟩ := f
      cases a <;> cases b <;> cases c <;> cases d <;> first | rfl | exact absurd rfl hr
    unfold Res.when
    split
    · exact (svcTrnOp_transaction t).mono fun u hu =>
        ⟨(hu.lasting.since (r := t) rfl rfl rfl).after hl, hu.ir.trans hir, hu.tq.trans h1.tq.tail⟩
    · rename_i hq
      refine ⟨hl, hir, ?_⟩
      rw [show t.tq = [] by simpa using hq]
      exact List.nil_sublist _

/-- A SERVICE taken, with the block enabled (R242). -/
theorem serviceOp_taken (s : State) (hb : s.busy = false) (hu : s.usbEn = true) (hd : s.devState ≠ .detached) :
    (serviceOp s).All fun t => ServiceFrom s t ∧ t.busy = false := by
  have h := serviceArms_service { s with busy := true }
  unfold serviceOp
  rw [if_neg (by simp [hb]), if_neg (by simp [hu, hd])]
  cases hv : serviceArms { s with busy := true } with
  | ok a u => rw [hv] at h; exact ⟨h.idle, rfl⟩
  | raised u => rw [hv] at h; exact ⟨⟨h.1.idle, rfl⟩, h.2⟩

theorem serviceOp_lasting (s : State) : (serviceOp s).All (LastingFrom s) := by
  unfold serviceOp
  split
  · exact (raise_ends (α := Unit) s .reentry).lasting
  · split
    · exact LastingFrom.refl s
    · rename_i hb hu
      have hu : s.usbEn = true ∧ s.devState ≠ .detached := by simpa using hu
      have h := serviceOp_taken s (by simpa using hb) hu.1 hu.2
      unfold serviceOp at h
      rw [if_neg hb, if_neg (by simpa using hu)] at h
      exact h.mono fun _ h => h.1.lasting

theorem exec_command_lasting {w : Word64} {i : Instr} (hd : decodeCmd w = .ok i) {s t : State}
    (hx : exec i s = .next t) : LastingFrom s t := by
  rcases hookCommand_exec hd with rfl | rfl | rfl | hx'
  · have hx : (initOp s).toOutcome = .next t := hx
    unfold initOp at hx
    split at hx
    · exact (raise_ends (α := Unit) s .reentry).lasting.next hx
    · injection hx with hx; subst hx; exact .of_eq rfl rfl rfl
  · exact (serviceOp_lasting s).next hx
  · have hx : (shutdownOp s).toOutcome = .next t := hx
    unfold shutdownOp at hx
    split at hx
    · exact (raise_ends (α := Unit) s .reentry).lasting.next hx
    · injection hx with hx; subst hx; exact .of_eq rfl rfl rfl
  · rw [← hx'] at hx
    exact (hookCommand_ends i s).lasting.next hx

theorem runCommand_lasting {w : Word64} {s t : State} (hw : runCommand w s = .next t) : LastingFrom s t := by
  unfold runCommand at hw
  dsimp only at hw
  split at hw
  · injection hw with hw; subst hw; exact (raise_ends (α := Unit) { s with cmd := w } .reentry).lasting.1.since rfl rfl rfl
  · cases hd : decodeCmd w with
    | error e =>
      rw [hd] at hw
      injection hw with hw; subst hw
      exact (raise_ends (α := Unit) { s with cmd := w } .badcmd).lasting.1.since rfl rfl rfl
    | ok i => rw [hd] at hw; exact (exec_command_lasting hd hw).since rfl rfl rfl

theorem exec_bus_lasting {r : BusRecord} {i : Instr} (hd : decodeBus r = .ok i) {s t : State}
    (hx : exec i s = .next t) : LastingFrom s t := by
  have q : ∀ {u : State} {x : Response}, LastingFrom s u →
      .next (u.respond x) = (.next t : Host.Outcome State Fault Refusal) → LastingFrom s t := by
    intro u x hu e
    injection e with e; subst e; exact hu.to rfl rfl rfl
  have c : ∀ ir : IrFlags,
      .next (if s.usbEn then { s with ir := ir } else s) = (.next t : Host.Outcome State Fault Refusal) → LastingFrom s t := by
    intro ir e
    injection e with e; subst e; split
    · exact .of_eq rfl rfl rfl
    · exact .refl s
  unfold decodeBus at hd
  split at hd
  all_goals (try (injection hd with hd; subst hd))
  · have hx : execTokOut _ _ _ _ s = .next t := hx
    unfold execTokOut at hx
    dsimp only at hx
    repeat' split at hx
    all_goals first
      | exact q (.refl s) hx
      | (injection hx with hx; subst hx; refine .of_eq ?_ ?_ ?_ <;> simp [State.respond])
  · have hx : execTokIn _ _ _ s = .next t := hx
    unfold execTokIn at hx
    dsimp only at hx
    repeat' split at hx
    all_goals first
      | exact q (.refl s) hx
      | (injection hx with hx; subst hx; refine .of_eq ?_ ?_ ?_ <;> simp [State.respond])
  · have hx : execTokSetup _ _ _ s = .next t := hx
    unfold execTokSetup at hx
    dsimp only at hx
    repeat' split at hx
    all_goals first
      | exact q (.refl s) hx
      | (injection hx with hx; subst hx; refine .of_eq ?_ ?_ ?_ <;> simp [State.respond])
  · exact c _ hx
  · exact c _ hx
  · exact c _ hx
  · exact c _ hx
  · cases hd

theorem runInput_lasting {x : Input} {s t : State} (hx : runInput x s = .next t) : LastingFrom s t := by
  cases x with
  | cmd w => exact runCommand_lasting hx
  | bus r =>
    have hx : runBus r s = .next t := hx
    unfold runBus at hx
    cases hd : decodeBus r with
    | error e => rw [hd] at hx; cases hx
    | ok i => rw [hd] at hx; exact exec_bus_lasting hd hx
  | mem a v => injection hx with hx; subst hx; exact .of_eq rfl rfl rfl
  | csr a v =>
    have hx : storeCsr a v s = .next t := hx
    unfold storeCsr at hx
    split at hx
    · cases hx
    · dsimp only at hx
      split at hx
      · injection hx with hx; subst hx; exact .refl _
      · split at hx
        · exact runCommand_lasting hx
        · injection hx with hx; subst hx; exact .of_eq rfl rfl rfl
  | setIe b => injection hx with hx; subst hx; exact .of_eq rfl rfl rfl

end Sys2Proof.Machine
end

