-- ==== Sys2Proof/Laws/PerInstr.lean ====
section
/-! SUPPORT. What is said of every instruction, one lemma per constructor. -/

namespace Sys2Proof.Laws

/-- The well-formedness check refuses only what no encoded form means: the encoding of an ill-formed term
is refused by the decoder (R102). -/
def IllFormed.Statement (i : Instr) : Prop := i.wf = false → ∃ e, decode (encode i) = .error e

/-- A setup packet whose type bits are not 0 selects no standard request. -/
theorem IllFormed.request (code t : Byte) (v i l : Half) (h : standardType t = false) :
    ∃ e, decode (.ofSetup code t v i l) = .error e := by
  refine ⟨.notStandard, ?_⟩
  show decodeSetup (SetupFields.unpack (SetupFields.pack ⟨t, code, v, i, l⟩)) = _
  rw [SetupFields.unpack_pack]
  unfold decodeSetup
  exact if_neg (by simpa [standardType] using h)

theorem IllFormed.init : IllFormed.Statement .init := fun h => Bool.noConfusion h
theorem IllFormed.service : IllFormed.Statement .service := fun h => Bool.noConfusion h
theorem IllFormed.shutdown : IllFormed.Statement .shutdown := fun h => Bool.noConfusion h
theorem IllFormed.getState : IllFormed.Statement .getState := fun h => Bool.noConfusion h
theorem IllFormed.getConfig : IllFormed.Statement .getConfig := fun h => Bool.noConfusion h
theorem IllFormed.setStage (stage : BitVec 3) (dst : Half) (count : Half)
    : IllFormed.Statement (.setStage stage dst count) :=
  fun h => Bool.noConfusion h
theorem IllFormed.armEp (keep toi : Bool) (ep : BitVec 4) (dir : Dir) (buf : Half) (n : Half)
    : IllFormed.Statement (.armEp keep toi ep dir buf n) :=
  fun h => Bool.noConfusion h
theorem IllFormed.armEp0In (count : Half) : IllFormed.Statement (.armEp0In count) := fun h => Bool.noConfusion h
theorem IllFormed.armStatus (dir : Dir) : IllFormed.Statement (.armStatus dir) := fun h => Bool.noConfusion h
theorem IllFormed.stallEp (ep : BitVec 4) (dir : Dir) : IllFormed.Statement (.stallEp ep dir) :=
  fun h => Bool.noConfusion h
theorem IllFormed.xferRom (src avail req : Half) : IllFormed.Statement (.xferRom src avail req) :=
  fun h => Bool.noConfusion h
theorem IllFormed.xferRam (src avail req : Half) : IllFormed.Statement (.xferRam src avail req) :=
  fun h => Bool.noConfusion h
theorem IllFormed.arm (keep toi : Bool) (ep : BitVec 4) (dir : Dir) (slot : Slot) (tgl : Bool) (buf : Half) (cnt : Half)
    : IllFormed.Statement (.arm keep toi ep dir slot tgl buf cnt) :=
  fun h => Bool.noConfusion h
theorem IllFormed.armOut (keep toi : Bool) (ep : BitVec 4) (buf : Half) (max : Half)
    : IllFormed.Statement (.armOut keep toi ep buf max) :=
  fun h => Bool.noConfusion h
theorem IllFormed.armIn (keep toi : Bool) (ep : BitVec 4) (buf : Half) (count : Half)
    : IllFormed.Statement (.armIn keep toi ep buf count) :=
  fun h => Bool.noConfusion h
theorem IllFormed.clearStall (ep : BitVec 4) (dir : Dir) : IllFormed.Statement (.clearStall ep dir) :=
  fun h => Bool.noConfusion h
theorem IllFormed.getStatus (t : Byte) (v i l : Half) : IllFormed.Statement (.getStatus t v i l) :=
  IllFormed.request 0x00 t v i l
theorem IllFormed.clearFeature (t : Byte) (v i l : Half) : IllFormed.Statement (.clearFeature t v i l) :=
  IllFormed.request 0x01 t v i l
theorem IllFormed.setFeature (t : Byte) (v i l : Half) : IllFormed.Statement (.setFeature t v i l) :=
  IllFormed.request 0x03 t v i l
theorem IllFormed.setAddress (t : Byte) (v i l : Half) : IllFormed.Statement (.setAddress t v i l) :=
  IllFormed.request 0x05 t v i l
theorem IllFormed.getDescriptor (t : Byte) (v i l : Half) : IllFormed.Statement (.getDescriptor t v i l) :=
  IllFormed.request 0x06 t v i l
theorem IllFormed.setDescriptor (t : Byte) (v i l : Half) : IllFormed.Statement (.setDescriptor t v i l) :=
  IllFormed.request 0x07 t v i l
theorem IllFormed.getConfiguration (t : Byte) (v i l : Half) : IllFormed.Statement (.getConfiguration t v i l) :=
  IllFormed.request 0x08 t v i l
theorem IllFormed.setConfiguration (t : Byte) (v i l : Half) : IllFormed.Statement (.setConfiguration t v i l) :=
  IllFormed.request 0x09 t v i l
theorem IllFormed.getInterface (t : Byte) (v i l : Half) : IllFormed.Statement (.getInterface t v i l) :=
  IllFormed.request 0x0A t v i l
theorem IllFormed.setInterface (t : Byte) (v i l : Half) : IllFormed.Statement (.setInterface t v i l) :=
  IllFormed.request 0x0B t v i l
theorem IllFormed.synchFrame (t : Byte) (v i l : Half) : IllFormed.Statement (.synchFrame t v i l) :=
  IllFormed.request 0x0C t v i l
theorem IllFormed.svcRst : IllFormed.Statement .svcRst := fun h => Bool.noConfusion h
theorem IllFormed.svcIdle : IllFormed.Statement .svcIdle := fun h => Bool.noConfusion h
theorem IllFormed.svcAct : IllFormed.Statement .svcAct := fun h => Bool.noConfusion h
theorem IllFormed.svcSof : IllFormed.Statement .svcSof := fun h => Bool.noConfusion h
theorem IllFormed.svcTrn : IllFormed.Statement .svcTrn := fun h => Bool.noConfusion h
theorem IllFormed.tokOut (addr : BitVec 7) (ep : BitVec 4) (tgl : Bool) (data : List Byte)
    : IllFormed.Statement (.tokOut addr ep tgl data) :=
  fun h => Bool.noConfusion h
theorem IllFormed.tokIn (addr : BitVec 7) (ep : BitVec 4) (ack : Bool) : IllFormed.Statement (.tokIn addr ep ack) :=
  fun h => Bool.noConfusion h
theorem IllFormed.tokSetup (addr : BitVec 7) (ep : BitVec 4) (data : List Byte)
    : IllFormed.Statement (.tokSetup addr ep data) :=
  fun h => Bool.noConfusion h
theorem IllFormed.busReset : IllFormed.Statement .busReset := fun h => Bool.noConfusion h
theorem IllFormed.busIdle : IllFormed.Statement .busIdle := fun h => Bool.noConfusion h
theorem IllFormed.busActivity : IllFormed.Statement .busActivity := fun h => Bool.noConfusion h
theorem IllFormed.busSof : IllFormed.Statement .busSof := fun h => Bool.noConfusion h

end Sys2Proof.Laws
end

