-- ==== Sys2Proof/Laws/Served.lean ====
section
/-! SUPPORT. Every element of the schedule keeps the invariant, and moves `DEVSTATE` as R270 allows. -/

namespace Sys2Proof.Machine

/-- What a command, a hook call, a data step or the end of a request may write: nothing the invariant speaks of. -/
structure PlainFrom (s t : State) : Prop where
  frame : t = { s with
    ram := t.ram, eps := t.eps, ctx := t.ctx, fault := t.fault, resp := t.resp, cmd := t.cmd
    hookTape := t.hookTape, trace := t.trace, draws := t.draws }
  wf : s.ram.wf → t.ram.wf
  last : ∀ ep dir, (t.epsAt ep dir).last = (s.epsAt ep dir).last

theorem PlainFrom.refl (s : State) : PlainFrom s s := ⟨rfl, id, fun _ _ => rfl⟩

theorem PlainFrom.trans {s t u : State} (h : PlainFrom s t) (h' : PlainFrom t u) : PlainFrom s u :=
  ⟨by rw [h'.1, h.1], h'.2 ∘ h.2, fun ep dir => (h'.3 ep dir).trans (h.3 ep dir)⟩

theorem PlainFrom.after {s t u : State} (h' : PlainFrom t u) (h : PlainFrom s t) : PlainFrom s u := h.trans h'

theorem HookFrom.plain {s t : State} (h : HookFrom s t) : PlainFrom s t := ⟨by rw [h.1], h.2, h.3⟩

theorem CommandFrom.plain {s t : State} (h : CommandFrom s t) : PlainFrom s t := h.hook.plain

theorem PlainFrom.outputs (s : State) (x : List HookAnswer) (y : List TraceItem) :
    PlainFrom s { s with hookTape := x, trace := y } := ⟨rfl, id, fun _ _ => rfl⟩

theorem PlainFrom.requestError (s : State) (cause : ErrorCause) : PlainFrom s (s.requestError cause) := by
  have h := CommandFrom.stallEndpoint { s with trace := s.trace ++ [TraceItem.requestError cause] } 0 .inn
  exact (CommandFrom.ctx _ Ctx.destroyed).plain.after (h.plain.after ⟨rfl, id, fun _ _ => rfl⟩)

theorem callHook_plain (item : Bool → TraceItem) (s : State) : (callHook item s).All (PlainFrom s) := by
  obtain ⟨t, h1, h2, -⟩ := callHook_ok item s
  rw [h1]
  exact h2.plain.after (.outputs s _ _)

theorem notifyHook_plain (present : Bool) (item : TraceItem) (s : State) :
    (notifyHook present item s).All (PlainFrom s) := by
  obtain ⟨t, h1, h2, -⟩ := notifyHook_ok present item s
  rw [h1]
  exact h2.plain.after (.outputs s _ _)

theorem conclude_plain (cause : ErrorCause) (ok : Bool) (s : State) : (conclude cause ok s).All (PlainFrom s) := by
  unfold conclude
  split
  · exact PlainFrom.requestError s cause
  · split
    · exact (armStatusOp_ends .inn s).bind (fun _ t h => ((CommandFrom.ctx t _).after h).plain) fun t h => h.plain
    · exact PlainFrom.refl s

theorem answerScratch_plain (bytes : List Byte) (l : Half) (s : State) :
    (answerScratch bytes l s).All (PlainFrom s) := by
  unfold answerScratch
  have hw : PlainFrom s { s with ram := s.ram.writeBytes s.cfg.scratch.toNat bytes } :=
    ⟨rfl, fun hw => Memory.wf_writeBytes hw _ _, fun _ _ => rfl⟩
  exact (xferOp_ends _ _ _ _ _).bind (fun _ t h => h.plain.after hw) fun t h => h.plain.after hw

/-- What an arm of SERVICE leaves: the invariant but for `BUSY`, `BUSY` itself, and a `DEVSTATE` that R270 allows. -/
structure ServedFrom (s t : State) : Prop where
  core : t.Core
  busy : t.busy = s.busy
  move : s.devState.mayBecome t.devState

theorem ServedFrom.refl {s : State} (h : s.Core) : ServedFrom s s := ⟨h, rfl, .inl rfl⟩

theorem State.Core.plain {s t : State} (h : s.Core) (hf : PlainFrom s t) : t.Core := by
  refine h.keep (hf.wf h.ram) ?_ (fun ht => ?_) hf.last
  · rw [hf.frame]; exact ⟨rfl, rfl, rfl, rfl, rfl, rfl, rfl, rfl, rfl⟩
  · rw [hf.frame] at ht; exact ht

theorem ServedFrom.plain {s t u : State} (h : ServedFrom s t) (hf : PlainFrom t u) : ServedFrom s u := by
  refine ⟨h.core.plain hf, ?_, ?_⟩
  · rw [hf.frame]; exact h.busy
  · rw [hf.frame]; exact h.move

/-- An operation that writes nothing the invariant speaks of keeps what an arm has reached. -/
theorem ServedFrom.allPlain {α : Type} {s t : State} (h : ServedFrom s t) {r : Res α} (hr : r.All (PlainFrom t)) :
    r.All (ServedFrom s) := hr.mono fun _ => h.plain

theorem setAddress_served {s : State} (h : s.Core) (hd : s.devState.active) (t : Byte) (v i l : Half) :
    (stdSetAddress t v i l s).All (ServedFrom s) := by
  unfold stdSetAddress
  split
  · exact ServedFrom.refl h
  · split
    · exact ServedFrom.refl h
    · rename_i hc
      refine ⟨⟨h.params, h.ram, h.rom, h.queue, h.records, h.active, h.enables, h.attached, h.enabled, h.configured, h.address,
        fun _ => ?_, h.pointers⟩, rfl, .inl rfl⟩
      rcases hd with e | e | e
      · exact .inl e
      · exact .inr e
      · exact absurd e hc

theorem setConfiguration_served {s : State} (h : s.Core) (hp : s.addrPending = false) (t : Byte) (v i l : Half) :
    (stdSetConfiguration t v i l s).All (ServedFrom s) := by
  unfold stdSetConfiguration
  simp only
  split
  · exact ServedFrom.refl h
  · split
    · exact ServedFrom.refl h
    · split
      · exact ServedFrom.refl h
      · rename_i hd
        have hd : s.devState = .address ∨ s.devState = .configured := by
          by_contra hh; exact hd ⟨fun e => hh (.inl e), fun e => hh (.inr e)⟩
        have h0 : ServedFrom s (s.configured (lowByte v)) := by
          refine ⟨h.setConfiguration _ hd hp, ?_, ?_⟩
          · show s.reinitEndpoints.busy = _
            rw [(State.reinitEndpoints_eq s).1]
          · show s.devState.mayBecome (if lowByte v ≠ 0 then .configured else .address)
            unfold DevState.mayBecome
            rcases hd with e | e <;> rw [e] <;> split <;> decide
        exact (h0.allPlain (notifyHook_plain _ _ _)).bind (fun _ u h => h) fun u h => h

/-- Every handler, run after the prologue. -/
theorem stdRequest_served {i : Instr} {handler : State → Res Bool} (hi : stdRequest i = some handler) {s : State}
    (h : s.Core) (hd : s.devState.active) (hp : s.addrPending = false) : (handler s).All (ServedFrom s) := by
  have h0 := ServedFrom.refl h
  cases i <;> simp only [stdRequest, Option.some.injEq, reduceCtorEq] at hi <;> subst hi
  case setAddress => exact setAddress_served h hd _ _ _ _
  case setConfiguration => exact setConfiguration_served h hp _ _ _ _
  case getStatus =>
    unfold stdGetStatus
    split
    · exact h0
    · split
      · exact h0
      · exact h0.allPlain (answerScratch_plain _ _ _)
  case clearFeature =>
    unfold stdClearFeature
    split
    · exact h0
    · split
      · split
        · exact h0
        · split
          · exact (clearStallOp_ends _ _ _).bind (fun _ u h => h0.plain h.plain) fun u h => h0.plain h.plain
          · exact h0
      · exact h0
  case setFeature =>
    unfold stdSetFeature
    split
    · exact h0
    · split
      · split
        · exact h0
        · exact (stallOp_ends _ _ _).bind (fun _ u h => h0.plain h.plain) fun u h => h0.plain h.plain
      · exact h0
  case getDescriptor =>
    unfold stdGetDescriptor
    split
    · exact h0
    · split
      · exact h0
      · exact (xferOp_ends _ _ _ _ _).bind (fun _ u h => h0.plain h.plain) fun u h => h0.plain h.plain
  case setDescriptor => exact h0
  case getConfiguration =>
    unfold stdGetConfiguration
    split
    · exact h0
    · exact h0.allPlain (answerScratch_plain _ _ _)
  case getInterface =>
    unfold stdGetInterface
    split
    · exact h0
    · exact h0.allPlain (answerScratch_plain _ _ _)
  case setInterface =>
    unfold stdSetInterface
    split
    · exact h0
    · split
      · exact h0
      · exact h0
  case synchFrame => exact h0

theorem dispatch_served {s : State} (h : s.Core) (hd : s.devState.active) (hp : s.addrPending = false) :
    (dispatch s).All (ServedFrom s) := by
  have h0 := ServedFrom.refl h
  have hcls : (classRequest s).All (ServedFrom s) := by
    unfold classRequest
    split
    · exact (callHook_plain _ s).bind (fun ok t h => (h0.plain h).allPlain (conclude_plain _ ok t)) fun _ h => h0.plain h
    · exact h0.allPlain (conclude_plain _ _ _)
  unfold dispatch
  split
  · exact hcls
  · split
    · exact (stdRequest_served ‹_› h hd hp).bind (fun ok t h => h.allPlain (conclude_plain _ ok t)) fun _ h => h
    · exact hcls

/-- The prologue (R174) drops a pending address and writes nothing else the invariant speaks of. -/
theorem State.Core.prologue {s : State} (h : s.Core) : s.setupPrologue.Core ∧ s.setupPrologue.addrPending = false ∧
    s.setupPrologue.devState = s.devState ∧ s.setupPrologue.busy = s.busy := by
  have e := State.setupPrologue_eq s
  refine ⟨h.keep ?_ ?_ ?_ ?_, by rw [e], by rw [e], by rw [e]⟩
  · show ((({ s.destroyCtx with addrPending := false } : State).overSlots 0 .out Bd.reclaimed).overSlots
      0 .inn Bd.reclaimed).ram.wf
    exact State.wf_overSlots (State.wf_overSlots (s := { s.destroyCtx with addrPending := false }) h.ram _ _ _) _ _ _
  · rw [e]; exact ⟨rfl, rfl, rfl, rfl, rfl, rfl, rfl, rfl, rfl⟩
  · rw [e]; exact fun hh => Bool.noConfusion hh
  · intro ep dir; rw [State.epsAt_setupPrologue]; split <;> rfl

theorem ctSetup_served {s : State} (h : s.Core) (hd : s.devState.active) (count : BitVec 10) :
    (ctSetup count s).All (ServedFrom s) := by
  obtain ⟨h1, h2, h3, h4⟩ := h.prologue
  have hp : ServedFrom s s.setupPrologue := ⟨h1, h4, by rw [h3]; exact .inl rfl⟩
  have hl : s.setupPrologue.latchSetup.Core := h1.keep h1.ram ⟨rfl, rfl, rfl, rfl, rfl, rfl, rfl, rfl, rfl⟩ id fun _ _ => rfl
  have key : (if count ≠ 8 then .ok () (s.setupPrologue.requestError .setupLen)
      else dispatch s.setupPrologue.latchSetup : Res Unit).All (ServedFrom s) := by
    split
    · exact hp.plain (.requestError _ _)
    · refine (dispatch_served hl (by show s.setupPrologue.devState.active; rw [h3]; exact hd) h2).mono fun t ht =>
        ⟨ht.core, ht.busy.trans h4, ?_⟩
      have := ht.move
      rw [show s.setupPrologue.latchSetup.devState = s.devState from h3] at this
      exact this
  unfold ctSetup
  refine key.bind (fun _ t ht => ?_) fun _ h => h
  refine (ht.allPlain ((ep0OutRearm_ends _ _).mono fun _ h => h.plain)).bind (fun _ u hu => ?_) fun _ h => h
  exact ⟨hu.core.keep hu.core.ram ⟨rfl, rfl, rfl, rfl, rfl, rfl, rfl, rfl, rfl⟩ id fun _ _ => rfl, hu.busy, hu.move⟩

theorem ctOutData_plain (count : BitVec 10) (s : State) : (ctOutData count s).All (PlainFrom s) := by
  unfold ctOutData
  split
  · exact ((ep0OutRearm_ends _ _).mono fun t h => h.plain.after (.requestError s .overrun))
  · have hw : PlainFrom s (s.consumed count) := ⟨rfl, fun h => Memory.wf_copyBytes h _ _ _ _ _ _, fun _ _ => rfl⟩
    refine Res.All.bind (P := PlainFrom s) ?_ (fun _ t h => (ep0OutRearm_ends _ _).mono fun u h' => h'.plain.after h) fun t h => h
    split
    · exact (armStatusOp_ends .inn _).bind (fun _ t h => ((CommandFrom.ctx t _).after h).plain.after hw) fun t h => h.plain.after hw
    · exact hw

theorem earlyStatus_plain (s : State) : (earlyStatus s).All (PlainFrom s) :=
  (ep0OutRearm_ends _ _).mono fun _ h =>
    (h.after ((CommandFrom.ctx _ Ctx.destroyed).after (.overSlots s 0 .inn _))).plain

theorem State.Core.statusDone_move {s : State} (h : s.Core) : s.devState.mayBecome s.statusDone.devState := by
  have e : s.statusDone.devState = if s.addrPending then (if s.newAddr ≠ 0 then .address else .default) else s.devState := by
    unfold State.statusDone State.destroyCtx
    dsimp only
    split <;> rfl
  rw [e]
  split
  · rename_i hp
    unfold DevState.mayBecome
    rcases h.pending hp with e | e <;> rw [e] <;> split <;> decide
  · exact .inl rfl

theorem State.busy_statusDone (s : State) : s.statusDone.busy = s.busy := by
  unfold State.statusDone State.destroyCtx
  dsimp only
  split <;> rfl

theorem ctEvent_served {s : State} (h : s.Core) (hd : s.devState.active) (rec : Completion) (count : BitVec 10) :
    (ctEvent rec count s).All (ServedFrom s) := by
  have h0 := ServedFrom.refl h
  have hr : ∀ f (u : State), PlainFrom s u → (ep0OutRearm f u).All (ServedFrom s) := fun f u hu =>
    (h0.plain hu).allPlain ((ep0OutRearm_ends _ _).mono fun _ h => h.plain)
  unfold ctEvent
  split
  · exact ctSetup_served h hd _
  · split
    · exact h0
    · split
      · exact h0
      · exact hr _ _ (.refl s)
      · exact h0
      · exact hr _ _ (.refl s)
      · exact h0.allPlain ((ctInStep_ends s).mono fun _ h => h.plain.after ⟨rfl, id, fun _ _ => rfl⟩)
      · exact h0.allPlain (earlyStatus_plain s)
      · exact h0
      · exact h0.allPlain (ctOutData_plain _ _)
      · exact ⟨h.statusDone, s.busy_statusDone, h.statusDone_move⟩
      · exact hr _ _ (.refl s)
      · exact h0
      · exact hr _ _ (CommandFrom.ctx s Ctx.destroyed).plain

theorem svcTrnOp_served {s : State} (h : s.Core) : (svcTrnOp s).All (ServedFrom s) := by
  cases hq : s.tq with
  | nil => unfold svcTrnOp; rw [hq]; exact ServedFrom.refl h
  | cons r rest =>
    have hc := h.onComplete r rest hq
    have hd : s.devState.active := h.active (by rw [hq]; exact List.cons_ne_nil _ _)
    rw [svcTrnOp_cons s r rest hq]
    dsimp only
    have back : ∀ t, ServedFrom (onComplete r.ep r.dir r.slot { s with tq := rest }).2 t → ServedFrom s t :=
      fun t ht => ⟨ht.core, ht.busy, ht.move⟩
    split
    · exact (ctEvent_served hc hd _ _).mono back
    · exact ((ServedFrom.refl hc).allPlain (notifyHook_plain _ _ _)).mono back

theorem svcRstOp_served {s : State} (h : s.Core) (hu : s.usbEn = true) : (svcRstOp s).All (ServedFrom s) := by
  have h0 : ServedFrom s s.busResetValues := ⟨h.busReset hu, rfl, .inr (.inr (.inr (.inl ⟨rfl, h.enabled.mp hu⟩)))⟩
  exact h0.allPlain ((armOutOp_ends _ _ _ _ _ _).mono fun _ h => h.plain)

theorem State.Core.notify {s t : State} (h : s.Core) (hd : t.devState = s.devState) (hb : t.busy = s.busy)
    (ht : t = { s with suspended := t.suspended, ir := t.ir }) : ServedFrom s t := by
  refine ⟨h.keep (by rw [ht]; exact h.ram) ?_ ?_ ?_, hb, by rw [hd]; exact .inl rfl⟩
  · rw [ht]; exact ⟨rfl, rfl, rfl, rfl, rfl, rfl, rfl, rfl, rfl⟩
  · rw [ht]; exact id
  · rw [ht]; exact fun _ _ => rfl

/-- What a notification arm keeps (R250 to R252). -/
structure NotifiedFrom (s t : State) : Prop where
  served : ServedFrom s t
  dev : t.devState = s.devState
  en : t.usbEn = s.usbEn

theorem NotifiedFrom.refl {s : State} (h : s.Core) : NotifiedFrom s s := ⟨.refl h, rfl, rfl⟩

theorem NotifiedFrom.after {s t u : State} (h' : NotifiedFrom t u) (h : NotifiedFrom s t) : NotifiedFrom s u :=
  ⟨⟨h'.served.core, h'.served.busy.trans h.served.busy, by rw [h'.dev, h.dev]; exact .inl rfl⟩, h'.dev.trans h.dev, h'.en.trans h.en⟩

theorem NotifiedFrom.plain {s t u : State} (h : NotifiedFrom s t) (hf : PlainFrom t u) : NotifiedFrom s u :=
  ⟨h.served.plain hf, by rw [hf.frame]; exact h.dev, by rw [hf.frame]; exact h.en⟩

theorem NotifiedFrom.flags {s : State} (h : s.Core) (b : Bool) (ir : IrFlags) :
    NotifiedFrom s { s with suspended := b, ir := ir } :=
  ⟨h.notify rfl rfl rfl, rfl, rfl⟩

theorem serviceArms_served {s : State} (h : s.Core) (hu : s.usbEn = true) : (serviceArms s).All (ServedFrom s) := by
  have hn : ∀ {t : State}, NotifiedFrom s t → ∀ p item, (notifyHook p item t).All (NotifiedFrom s) :=
    fun ht p item => (notifyHook_plain p item _).mono fun _ h => ht.plain h
  unfold serviceArms
  split
  · exact svcRstOp_served h hu
  · refine Res.All.bind (P := NotifiedFrom s) ?_ (fun _ t h1 => ?_) fun t h => h.served
    · unfold Res.when
      split
      · exact hn (.flags h _ _) _ _
      · exact NotifiedFrom.refl h
    · refine Res.All.bind (P := NotifiedFrom s) ?_ (fun _ t h2 => ?_) fun t h => h.served
      · unfold Res.when
        split
        · exact (hn ((NotifiedFrom.flags h1.served.core _ _).after h1) _ _).bind (fun _ t h => hn h _ _) fun _ h => h
        · exact h1
      · refine Res.All.bind (P := NotifiedFrom s) ?_ (fun _ t h3 => ?_) fun t h => h.served
        · unfold Res.when
          split
          · exact hn ((NotifiedFrom.flags h2.served.core _ _).after h2) _ _
          · exact h2
        · unfold Res.when
          split
          · refine (svcTrnOp_served h3.served.core).mono fun u hu => ⟨hu.core, hu.busy.trans h3.served.busy, ?_⟩
            have := hu.move
            rw [h3.dev] at this; exact this
          · exact h3.served

theorem State.Core.quiet {s t : State} (h : s.Core) (hf : t = { s with
    ir := t.ir, setupHold := t.setupHold, response := t.response, sched := t.sched, trace := t.trace, usbie := t.usbie
    cmd := t.cmd, resp := t.resp, fault := t.fault, ram := t.ram, draws := t.draws }) (hr : s.ram.wf → t.ram.wf) : t.Core := by
  refine h.keep (hr h.ram) ?_ ?_ ?_
  · rw [hf]; exact ⟨rfl, rfl, rfl, rfl, rfl, rfl, rfl, rfl, rfl⟩
  · rw [hf]; exact id
  · rw [hf]; exact fun _ _ => rfl

/-- Each command keeps the invariant between commands and moves `DEVSTATE` as R270 allows. -/
theorem exec_command_served {w : Word64} {i : Instr} (hd : decodeCmd w = .ok i) {s t : State} (h : s.Inv)
    (hx : exec i s = .next t) : t.Inv ∧ s.devState.mayBecome t.devState := by
  rcases hookCommand_exec hd with rfl | rfl | rfl | hx'
  · have hx : (initOp s).toOutcome = .next t := hx
    unfold initOp at hx
    rw [h.busy] at hx
    injection hx with hx; subst hx
    exact ⟨(h.core.restart true .powered (.inl rfl) (by decide)).inv h.busy, .inr (.inl rfl)⟩
  · have hx : (serviceOp s).toOutcome = .next t := hx
    unfold serviceOp at hx
    rw [h.busy, if_neg (by decide)] at hx
    split at hx
    · injection hx with hx; subst hx; exact ⟨h, .inl rfl⟩
    · rename_i hc
      have hu : s.usbEn = true := by
        cases hu : s.usbEn
        · exact absurd (by rw [hu]; rfl) hc
        · rfl
      have hb : ({ s with busy := true } : State).Core :=
        h.core.keep h.ram ⟨rfl, rfl, rfl, rfl, rfl, rfl, rfl, rfl, rfl⟩ id fun _ _ => rfl
      have ha := serviceArms_served hb hu
      have fin : ∀ u : State, ServedFrom { s with busy := true } u →
          ({ u with busy := false } : State).Inv ∧ s.devState.mayBecome u.devState := fun u hu =>
        ⟨(hu.core.keep (t := { u with busy := false }) hu.core.ram
          ⟨rfl, rfl, rfl, rfl, rfl, rfl, rfl, rfl, rfl⟩ id fun _ _ => rfl).inv rfl, hu.move⟩
      cases hv : serviceArms { s with busy := true } with
      | ok a u => rw [hv] at hx ha; injection hx with hx; subst hx; exact fin u ha
      | raised u => rw [hv] at hx ha; injection hx with hx; subst hx; exact fin u ha.1
  · have hx : (shutdownOp s).toOutcome = .next t := hx
    unfold shutdownOp at hx
    rw [h.busy] at hx
    injection hx with hx; subst hx
    exact ⟨(h.core.restart false .detached (.inr rfl) (by decide)).inv h.busy, .inr (.inr (.inl rfl))⟩
  · rw [← hx'] at hx
    have hf := (hookCommand_ends i s).next hx
    exact ⟨(h.core.command hf).inv (by rw [hf.frame]; exact h.busy), by rw [hf.frame]; exact .inl rfl⟩

/-- A command word between commands. -/
theorem runCommand_served (w : Word64) {s t : State} (h : s.Inv) (hw : runCommand w s = .next t) :
    t.Inv ∧ s.devState.mayBecome t.devState := by
  unfold runCommand at hw
  dsimp only at hw
  rw [if_neg (by rw [h.busy]; simp)] at hw
  cases hd : decodeCmd w with
  | error e =>
    rw [hd] at hw
    injection hw with hw; subst hw
    exact ⟨(h.core.quiet (t := State.faulted { s with cmd := w } .badcmd) rfl id).inv h.busy, .inl rfl⟩
  | ok i =>
    rw [hd] at hw
    dsimp only at hw
    have h0 : ({ s with cmd := w, resp := 0x0000 } : State).Inv :=
      (h.core.quiet (t := { s with cmd := w, resp := 0x0000 }) rfl id).inv h.busy
    exact exec_command_served (s := { s with cmd := w, resp := 0x0000 }) hd h0 hw

theorem State.accepts_active {s : State} {addr : BitVec 7} {ep : BitVec 4} (h : s.accepts addr ep = true) :
    ep.toNat < s.cfg.nep ∧ s.devState.active := by
  simp [State.accepts, DevState.active] at h ⊢
  tauto

theorem State.Core.received {s : State} (h : s.Core) (ep : BitVec 4) (slot : Slot) (data : List Byte) :
    (s.received ep slot data).Core := by
  refine h.quiet rfl fun hw => ?_
  exact Memory.wf_write (Memory.wf_write (Memory.wf_writeBytes hw _ _) _ _) _ _

/-- An ENG event keeps the invariant and `DEVSTATE`. -/
structure EngineFrom (s t : State) : Prop where
  inv : t.Inv
  dev : t.devState = s.devState

theorem EngineFrom.quiet {s t : State} (h : s.Inv) (ht : t = { s with ir := t.ir, response := t.response }) :
    EngineFrom s t :=
  ⟨(h.core.quiet (by rw [ht]) (by rw [ht]; exact id)).inv (by rw [ht]; exact h.busy), by rw [ht]⟩

/-- A reported completion keeps the invariant: `u` is the state with the packet's own writes done. -/
theorem EngineFrom.reported {s u : State} (h : s.Inv) (hu : u = { s with ram := u.ram, setupHold := u.setupHold, draws := u.draws })
    (hw : s.ram.wf → u.ram.wf) {r : Completion} (he : r.ep.toNat < s.cfg.nep) (hs : r.slot = s.engSlot r.ep r.dir)
    (hq : s.tq.length < s.cfg.tqDepth) (hd : s.devState.active) (x : Response) :
    EngineFrom s ((u.report r).respond x) := by
  have hc : u.Core := h.core.quiet (by rw [hu]) hw
  have hr := hc.report r (by rw [hu]; exact he) (by rw [hu]; exact hs) (by rw [hu]; exact hq) (by rw [hu]; exact hd)
  have hb : u.busy = s.busy := by rw [hu]
  have hdv : u.devState = s.devState := by rw [hu]
  refine ⟨(hr.quiet (t := (u.report r).respond x) rfl id).inv ?_, ?_⟩
  · show (u.report r).busy = false
    rw [show (u.report r).busy = u.busy by simp, hb, h.busy]
  · show (u.report r).devState = _
    rw [show (u.report r).devState = u.devState by simp, hdv]

theorem execTokOut_engine {addr : BitVec 7} {ep : BitVec 4} {tgl : Bool} {data : List Byte} {s t : State} (h : s.Inv)
    (hx : execTokOut addr ep tgl data s = .next t) : EngineFrom s t := by
  unfold execTokOut at hx
  dsimp only at hx
  split at hx
  · injection hx with hx; subst hx; exact .quiet h rfl
  rename_i ha
  have ha := s.accepts_active (by simpa using ha)
  iterate 3
    split at hx
    · injection hx with hx; subst hx; exact .quiet h rfl
  split at hx
  · injection hx with hx; subst hx; exact .quiet h rfl
  rename_i hq
  split at hx
  · injection hx with hx; subst hx; exact .quiet h rfl
  split at hx
  · injection hx with hx; subst hx; exact .quiet h rfl
  · injection hx with hx; subst hx
    exact .reported h rfl (fun hw => Memory.wf_write (Memory.wf_write (Memory.wf_writeBytes hw _ _) _ _) _ _) ha.1 rfl
      (by simpa [State.tqFull] using hq) ha.2 _

theorem execTokSetup_engine {addr : BitVec 7} {ep : BitVec 4} {data : List Byte} {s t : State} (h : s.Inv)
    (hx : execTokSetup addr ep data s = .next t) : EngineFrom s t := by
  unfold execTokSetup at hx
  dsimp only at hx
  split at hx
  · injection hx with hx; subst hx; exact .quiet h rfl
  rename_i ha
  have ha : s.accepts addr ep = true ∧ ep = 0 := by simpa using ha
  have he := s.accepts_active ha.1
  rw [ha.2] at he
  iterate 2
    split at hx
    · injection hx with hx; subst hx; exact .quiet h rfl
  split at hx
  · injection hx with hx; subst hx; exact .quiet h rfl
  rename_i hq
  split at hx
  · injection hx with hx; subst hx; exact .quiet h rfl
  · injection hx with hx; subst hx
    exact .reported h rfl (fun hw => Memory.wf_write (Memory.wf_write (Memory.wf_writeBytes hw _ _) _ _) _ _) he.1 rfl
      (by simpa [State.tqFull] using hq) he.2 _

theorem execTokIn_engine {addr : BitVec 7} {ep : BitVec 4} {ack : Bool} {s t : State} (h : s.Inv)
    (hx : execTokIn addr ep ack s = .next t) : EngineFrom s t := by
  unfold execTokIn at hx
  dsimp only at hx
  split at hx
  · injection hx with hx; subst hx; exact .quiet h rfl
  rename_i ha
  have ha := s.accepts_active (by simpa using ha)
  iterate 3
    split at hx
    · injection hx with hx; subst hx; exact .quiet h rfl
  split at hx
  · injection hx with hx; subst hx; exact .quiet h rfl
  rename_i hq
  split at hx
  · injection hx with hx; subst hx
    exact .reported h rfl (fun hw => Memory.wf_write hw _ _) ha.1 rfl (by simpa [State.tqFull] using hq) ha.2 _
  · injection hx with hx; subst hx; exact .quiet h rfl

theorem EngineFrom.condition {s t : State} (h : s.Inv) (ir : IrFlags)
    (hx : (Host.Outcome.next (if s.usbEn then { s with ir := ir } else s) : Host.Outcome State Fault Refusal) = .next t) :
    EngineFrom s t := by
  injection hx with hx; subst hx
  split
  · exact .quiet h rfl
  · exact .quiet h rfl

theorem exec_bus_engine {r : BusRecord} {i : Instr} (hd : decodeBus r = .ok i) {s t : State} (h : s.Inv)
    (hx : exec i s = .next t) : EngineFrom s t := by
  unfold decodeBus at hd
  split at hd
  all_goals (try (injection hd with hd; subst hd))
  · exact execTokOut_engine h hx
  · exact execTokIn_engine h hx
  · exact execTokSetup_engine h hx
  · exact .condition h _ hx
  · exact .condition h _ hx
  · exact .condition h _ hx
  · exact .condition h _ hx
  · cases hd

/-- One element of the schedule keeps the invariant and moves `DEVSTATE` as R270 allows. -/
theorem runInput_served {x : Input} {s t : State} (h : s.Inv) (hx : runInput x s = .next t) :
    t.Inv ∧ s.devState.mayBecome t.devState ∧ ((∀ w, x ≠ .cmd w) → (∀ a v, x ≠ .csr a v) → t.devState = s.devState) := by
  cases x with
  | cmd w =>
    have := runCommand_served w h hx
    exact ⟨this.1, this.2, fun hw _ => absurd rfl (hw w)⟩
  | bus r =>
    have hx : runBus r s = .next t := hx
    unfold runBus at hx
    cases hd : decodeBus r with
    | error e => rw [hd] at hx; cases hx
    | ok i =>
      rw [hd] at hx
      have := exec_bus_engine hd h hx
      exact ⟨this.inv, .inl this.dev, fun _ _ => this.dev⟩
  | mem a v =>
    injection hx with hx; subst hx
    exact ⟨(h.core.quiet rfl fun hw => Memory.wf_write hw _ _).inv h.busy, .inl rfl, fun _ _ => rfl⟩
  | csr a v =>
    have hx : storeCsr a v s = .next t := hx
    unfold storeCsr at hx
    split at hx
    · cases hx
    · dsimp only at hx
      split at hx
      · injection hx with hx; subst hx; exact ⟨h, .inl rfl, fun _ _ => rfl⟩
      · split at hx
        · have := runCommand_served _ h hx
          exact ⟨this.1, this.2, fun _ hw => absurd rfl (hw a v)⟩
        · injection hx with hx; subst hx
          exact ⟨(h.core.quiet (t := { s with cmd := setCmdByte s.cmd _ v }) rfl id).inv h.busy, .inl rfl, fun _ _ => rfl⟩
  | setIe b =>
    injection hx with hx; subst hx
    exact ⟨(h.core.quiet (t := { s with usbie := b }) rfl id).inv h.busy, .inl rfl, fun _ _ => rfl⟩

theorem State.Inv.begin {s : State} (h : s.Inv) (rest : List Input) : (s.begin rest).Inv :=
  (h.core.quiet (t := s.begin rest) rfl id).inv h.busy

end Sys2Proof.Machine
end

