-- ==== Sys2Proof/Tests/Slice0.lean ====
section
/-! SUPPORT. Tests. Expected values come from the spec: the encodings of 95_test_vectors.md part 2 and the vectors of
parts 3 to 8, each cited by its part; and, for each statement with hypotheses, states that meet them. -/

namespace Sys2Proof.Tests
open Sys2Proof.Machine

/-! ### States and readers -/

/-- A next state was answered. -/
def isNext (o : Host.Outcome State Fault Refusal) : Bool :=
  match o with
  | .next _ => true
  | .fault _ => false
  | .refused _ => false

/-- The state answered; the reset state where none was. -/
def after (o : Host.Outcome State Fault Refusal) : State :=
  match o with
  | .next t => t
  | .fault _ => State.reset
  | .refused _ => State.reset

theorem next_after {o : Host.Outcome State Fault Refusal} (h : isNext o = true) : o = .next (after o) := by
  cases o with
  | next t => rfl
  | fault r => cases h
  | refused r => cases h

/-- S_INIT (95 part 0). -/
def sInit : State := { State.reset with usbEn := true, devState := .powered }

/-- S_DEFAULT (95 part 0). -/
def sDefault : State :=
  { sInit with devState := .default, epen := 0x0001, ram := [(0x400, 0x80), (0x401, 0x08), (0x403, 0x05)] }

/-- S_CONFIGURED (95 part 0). -/
def sConf : State :=
  { sInit with
    devState := .configured
    config := 1
    devAddr := 5
    newAddr := 5
    epen := 0x0007
    eps := sInit.eps.set 0 ⟨true, false, .odd⟩
    ram := [(0x400, 0xC0), (0x401, 0x08), (0x403, 0x05), (0x408, 0x40), (0x40B, 0x05)] }

/-- S_ADDRESS but for what SET_CONFIGURATION changes (95 part 0). -/
def sAddress : State := { sConf with devState := .address, config := 0, epen := 0x0001 }

/-- A state in which requests are served (R174). -/
def sServe (s : State) : State := { s with ctx := { s.ctx with stage := .setup } }

/-- The same with a descriptor written. -/
def withBd (s : State) (ep : BitVec 4) (dir : Dir) (slot : Slot) (b : Bd) : State := s.writeBd ep dir slot b

/-- A descriptor that is armed for `n` bytes at `a`. -/
def armedBd (n : BitVec 10) (a : Half) : Bd := ⟨true, false, false, false, false, n, a⟩

/-- The four bytes of a descriptor in address order (R21). -/
def bdBytes (s : State) (ep : BitVec 4) (dir : Dir) (slot : Slot) : List Byte :=
  s.ram.readBytes 0 (bdAddr s.cfg ep dir slot) 4

/-! ### Decoding (95 parts 2.1 to 2.5) -/

theorem test_decode_plain :
    decodeCmd 0x0400000000000000 = .ok .init ∧ decodeCmd 0x0800000000000000 = .ok .service ∧
    decodeCmd 0x0C00000000000000 = .ok .shutdown ∧ decodeCmd 0x1000000000000000 = .ok .getState ∧
    decodeCmd 0x1400000000000000 = .ok .getConfig := by decide

theorem test_decode_operands :
    decodeCmd 0x1800060000030007 = .ok (.setStage 3 0x0600 7) ∧
    decodeCmd 0x1C28034000030000 = .ok (.armEp false false 2 .inn 0x0340 3) ∧
    decodeCmd 0x2000000000020000 = .ok (.armEp0In 2) ∧
    decodeCmd 0x2408000000000000 = .ok (.armStatus .inn) ∧
    decodeCmd 0x2810000000000000 = .ok (.stallEp 1 .out) := by decide

theorem test_decode_xfer :
    decodeCmd 0x2C00100000120040 = .ok (.xferRom 0x1000 18 64) ∧
    decodeCmd 0x3000054000020002 = .ok (.xferRam 0x0540 2 2) := by decide

theorem test_decode_arming :
    decodeCmd 0x401A028000080000 = .ok (.arm false false 1 .inn .even true 0x0280 8) ∧
    decodeCmd 0x4410030000400000 = .ok (.armOut false false 1 0x0300 64) ∧
    decodeCmd 0x4810028000080000 = .ok (.armIn false false 1 0x0280 8) ∧
    decodeCmd 0x4C10000000000000 = .ok (.clearStall 1 .out) := by decide

/-- Every field of format A at its largest value; `keep` alone. -/
theorem test_decode_extremes :
    decodeCmd 0x43FEFFFFFFFF0000 = .ok (.arm true true 15 .inn .odd true 0xFFFF 0xFFFF) ∧
    decodeCmd 0x4620038000400000 = .ok (.armOut true false 2 0x0380 64) := by decide

/-- 95 part 2.2: reserved opcodes. -/
theorem test_decode_reserved :
    decodeCmd 0x0000000000000000 = .error .reservedOpcode ∧ decodeCmd 0x3400000000000000 = .error .reservedOpcode ∧
    decodeCmd 0x3C00000000000000 = .error .reservedOpcode ∧ decodeCmd 0x5000000000000000 = .error .reservedOpcode ∧
    decodeCmd 0xFFFFFFFFFFFFFFFF = .error .reservedOpcode := by decide

/-- 95 part 2.2: a set bit outside the opcode's fields. -/
theorem test_decode_mustBeZero :
    decodeCmd 0x0401000000000000 = .error .mustBeZero ∧ decodeCmd 0x0400000000000001 = .error .mustBeZero ∧
    decodeCmd 0x4818028000080000 = .error .mustBeZero ∧ decodeCmd 0x4412030000400000 = .error .mustBeZero ∧
    decodeCmd 0x401B028000080000 = .error .mustBeZero ∧ decodeCmd 0x2418000000000000 = .error .mustBeZero ∧
    decodeCmd 0x2008000000020000 = .error .mustBeZero ∧ decodeCmd 0x1C2C034000030000 = .error .mustBeZero ∧
    decodeCmd 0x1800000000080000 = .error .mustBeZero ∧ decodeCmd 0x1100000000000000 = .error .mustBeZero := by decide

/-- 95 part 2.3. -/
theorem test_decode_requests :
    decodeReq 0x0040000001000680 = .ok (.getDescriptor 0x80 0x0100 0 0x40) ∧
    decodeReq 0x0000000000050500 = .ok (.setAddress 0 5 0 0) ∧
    decodeReq 0x0000000000010900 = .ok (.setConfiguration 0 1 0 0) ∧
    decodeReq 0x0002008100000082 = .ok (.getStatus 0x82 0 0x81 2) ∧
    decodeReq 0x0000000100000102 = .ok (.clearFeature 2 0 1 0) ∧
    decodeReq 0x0000008100000302 = .ok (.setFeature 2 0 0x81 0) := by decide

theorem test_decode_requests_more :
    decodeReq 0x0012000001000700 = .ok (.setDescriptor 0 0x0100 0 0x12) ∧
    decodeReq 0x0001000000000880 = .ok (.getConfiguration 0x80 0 0 1) ∧
    decodeReq 0x0001000000000A81 = .ok (.getInterface 0x81 0 0 1) ∧
    decodeReq 0x0000000000000B01 = .ok (.setInterface 1 0 0 0) ∧
    decodeReq 0x0002008100000C82 = .ok (.synchFrame 0x82 0 0x81 2) ∧
    decodeReq 0x004000000100069F = .ok (.getDescriptor 0x9F 0x0100 0 0x40) := by decide

/-- 95 part 2.3: what HOOK_REQ gets. -/
theorem test_decode_notStandard :
    decodeReq 0x0001000002000921 = .error .notStandard ∧ decodeReq 0x00400000010006C0 = .error .notStandard ∧
    decodeReq 0x0000000000050560 = .error .notStandard ∧ decodeReq 0x0000000000000200 = .error .notStandard ∧
    decodeReq 0x0000000000000D00 = .error .notStandard := by decide

/-- R105: the five one-hot selectors; anything else selects no single arm. -/
theorem test_decode_arms :
    decodeEvt 0x01 = .ok .svcRst ∧ decodeEvt 0x02 = .ok .svcIdle ∧ decodeEvt 0x04 = .ok .svcAct ∧
    decodeEvt 0x08 = .ok .svcSof ∧ decodeEvt 0x10 = .ok .svcTrn ∧ decodeEvt 0x18 = .error .notOneArm ∧
    decodeEvt 0x00 = .error .notOneArm := by decide

/-- 95 part 2.5. -/
theorem test_decode_bus :
    decodeBus ⟨0, 5, 1, true, [0x41], false⟩ = .ok (.tokOut 5 1 true [0x41]) ∧
    decodeBus ⟨1, 5, 2, false, [], true⟩ = .ok (.tokIn 5 2 true) ∧
    decodeBus ⟨2, 0, 0, false, [0x80], false⟩ = .ok (.tokSetup 0 0 [0x80]) ∧
    decodeBus (.only 3) = .ok .busReset ∧ decodeBus (.only 4) = .ok .busIdle ∧
    decodeBus (.only 5) = .ok .busActivity ∧ decodeBus (.only 6) = .ok .busSof ∧
    decodeBus (.only 7) = .error .reservedBusCode := by decide

/-! ### Well-formedness: the one check, on each request, refuses a type that is not standard (R102) -/

theorem test_wf_getStatus : (Instr.getStatus 0xA0 0 0 2).wf = false ∧ (Instr.getStatus 0x80 0 0 2).wf = true := by decide
theorem test_wf_clearFeature : (Instr.clearFeature 0x22 0 1 0).wf = false ∧ (Instr.clearFeature 2 0 1 0).wf = true := by decide
theorem test_wf_setFeature : (Instr.setFeature 0x42 0 1 0).wf = false ∧ (Instr.setFeature 2 0 1 0).wf = true := by decide
theorem test_wf_setAddress : (Instr.setAddress 0x60 5 0 0).wf = false ∧ (Instr.setAddress 0x1F 5 0 0).wf = true := by decide
theorem test_wf_getDescriptor :
    (Instr.getDescriptor 0xC0 0x100 0 64).wf = false ∧ (Instr.getDescriptor 0x9F 0x100 0 64).wf = true := by decide
theorem test_wf_setDescriptor :
    (Instr.setDescriptor 0x20 0x100 0 18).wf = false ∧ (Instr.setDescriptor 0 0x100 0 18).wf = true := by decide
theorem test_wf_getConfiguration :
    (Instr.getConfiguration 0xA0 0 0 1).wf = false ∧ (Instr.getConfiguration 0x80 0 0 1).wf = true := by decide
theorem test_wf_setConfiguration :
    (Instr.setConfiguration 0x21 1 0 0).wf = false ∧ (Instr.setConfiguration 0 1 0 0).wf = true := by decide
theorem test_wf_getInterface : (Instr.getInterface 0xC1 0 0 1).wf = false ∧ (Instr.getInterface 0x81 0 0 1).wf = true := by decide
theorem test_wf_setInterface : (Instr.setInterface 0x41 0 0 0).wf = false ∧ (Instr.setInterface 1 0 0 0).wf = true := by decide
theorem test_wf_synchFrame : (Instr.synchFrame 0xE2 0 0x81 2).wf = false ∧ (Instr.synchFrame 0x82 0 0x81 2).wf = true := by decide

/-! ### The encoder against the same words -/

theorem test_encode_words :
    encode (.setStage 3 0x0600 7) = .cmd 0x1800060000030007 ∧
    encode (.arm true true 15 .inn .odd true 0xFFFF 0xFFFF) = .cmd 0x43FEFFFFFFFF0000 ∧
    encode (.getStatus 0x82 0 0x81 2) = .req 0x0002008100000082 ∧ encode .svcTrn = .evt 0x10 ∧
    encode .busSof = .bus (.only 6) := by decide

/-! ### Placing a word of the host's numbering (logs 8 to 10) -/

theorem test_place_command : decodeTableWord 64 0x4C10000000000000 = some (.clearStall 1 .out) ∧
    decodeTableWord 64 0x0000000000050500 = some (.setAddress 0 5 0 0) ∧ decodeTableWord 8 0x10 = some .svcTrn ∧
    decodeTableWord 8 0x06 = some .busSof := by decide

/-- `step` runs a placed INIT; a placed SET_ADDRESS is dispatched by the SERVICE that `step` runs. -/
theorem test_place_runs :
    (after (step (State.reset.withFetchWord 64 0x0400000000000000))).devState = .powered ∧
    (after (step (State.reset.withFetchWord 64 0x0000000000050500))).addrPending = true := by decide

/-! ### Commands (95 parts 2.2, 3, 4; 96 part 7.1) -/

/-- 95 part 3.1. -/
theorem test_arm :
    let t := after (runCommand 0x401A028000080000 sInit)
    bdBytes t 1 .inn .even = [0xC0, 0x08, 0x80, 0x02] ∧ (t.epsAt 1 .inn).byte = 0x05 ∧ t.resp = 0 := by decide

/-- 95 part 3.2: a count of 65 on endpoint 1 OUT. -/
theorem test_arm_badparam :
    let t := after (runCommand 0x4010030000410000 sInit)
    t.fault.byte = 0x02 ∧ t.resp = 0xFFFF ∧ t.ram = sInit.ram := by decide

/-- 95 part 4.2. -/
theorem test_armOut :
    let t := after (runCommand 0x4410030000400000 sInit)
    bdBytes t 1 .out .even = [0x80, 0x40, 0x00, 0x03] ∧ t.resp = 0 := by decide

/-- 95 part 4.2: the second arming of one slot is `DARM`. -/
theorem test_armIn_twice :
    let t := after (runCommand 0x4810028000080000 sInit)
    let u := after (runCommand 0x481002C000040000 t)
    bdBytes u 1 .inn .even = [0x80, 0x08, 0x80, 0x02] ∧ u.fault.byte = 0x01 ∧ u.resp = 0xFFFF := by decide

/-- 95 part 4.2: ARM_EP dispatches on `DIR`. -/
theorem test_armEp :
    bdBytes (after (runCommand 0x1C28034000030000 sInit)) 2 .inn .even = [0x80, 0x03, 0x40, 0x03] ∧
    bdBytes (after (runCommand 0x1C20038000000000 sInit)) 2 .out .even = [0x80, 0x00, 0x80, 0x03] := by decide

/-- 95 part 4.3. -/
theorem test_armEp0In :
    bdBytes (after (runCommand 0x2000000000020000 sInit)) 0 .inn .even = [0x80, 0x02, 0x00, 0x05] ∧
    (after (runCommand 0x2000000000090000 sInit)).fault.byte = 0x02 := by decide

/-- 95 part 4.3. -/
theorem test_armStatus :
    bdBytes (after (runCommand 0x2408000000000000 sInit)) 0 .inn .even = [0xC0, 0x00, 0x00, 0x05] ∧
    bdBytes (after (runCommand 0x2400000000000000 sInit)) 0 .out .even = [0xC0, 0x08, 0x00, 0x05] := by decide

/-- 95 part 3.4. -/
theorem test_stallEp :
    let t := after (runCommand 0x2820000000000000 (after (runCommand 0x4322038000400000 sInit)))
    bdBytes t 2 .out .even = [0xC4, 0x40, 0x80, 0x03] ∧ (t.epsAt 2 .out).byte = 0x07 ∧ t.fault.byte = 0 := by decide

/-- 95 part 3.5. -/
theorem test_clearStall :
    let t := after (runCommand 0x4410030000400000 sInit)
    let u := after (runCommand 0x4C10000000000000 (after (runCommand 0x2810000000000000 t)))
    bdBytes u 1 .out .even = [0x80, 0x40, 0x00, 0x03] ∧ (u.epsAt 1 .out).byte = 0x04 := by decide

/-- 95 part 5.1: `MPS0 = 8`, 18 bytes available, 64 requested; the stage must be SETUP (R176). -/
theorem test_xferRom :
    let t := after (runCommand 0x2C00100000120040 (sServe sConf))
    bdBytes t 0 .inn .even = [0xC0, 0x08, 0x00, 0x05] ∧ t.ctx.remaining = 10 ∧ t.ctx.zlp = false ∧
    (after (runCommand 0x2C00100000120040 sConf)).fault.byte = 0x02 := by decide

/-- R177: the two bytes at `SCRATCH`, from RAM. -/
theorem test_xferRam :
    let t := after (runCommand 0x3000054000020002 { sServe sConf with ram := sConf.ram ++ [(0x540, 0xAB), (0x541, 0xCD)] })
    bdBytes t 0 .inn .even = [0xC0, 0x02, 0x00, 0x05] ∧ t.ram.readBytes 0 0x500 2 = [0xAB, 0xCD] := by decide

/-- 95 part 2.2: stage 6 is `BADPARAM`; IDLE ignores the other operands. -/
theorem test_setStage :
    (after (runCommand 0x1800000000060000 sInit)).fault.byte = 0x02 ∧
    (after (runCommand 0x1800123400000055 sInit)).resp = 0 ∧
    (after (runCommand 0x1800060000030007 sInit)).ctx = ⟨.dataOut, 7, 0, .rom, false, 0x0600⟩ := by decide

/-- 96 part 7.1. -/
theorem test_init_shutdown :
    let t := after (runCommand 0x0400000000000000 sConf)
    (t.devState = .powered ∧ t.usbEn = true ∧ t.epen = 0 ∧ t.devAddr = 0) ∧
    (after (runCommand 0x0C00000000000000 sConf)).devState = .detached := by decide

/-- 96 part 7.1: suspended and Configured reads 0x000D. -/
theorem test_reads :
    (after (runCommand 0x1000000000000000 { sConf with suspended := true })).resp = 0x000D ∧
    (after (runCommand 0x1400000000000000 sConf)).resp = 0x0001 := by decide

/-- 96 part 7.2: a reset with a queued transaction is served alone. -/
theorem test_service_reset :
    let s := { sConf with ir := ⟨true, false, false, true⟩, tq := [⟨1, .out, .even, false, 0, 0⟩] }
    let t := after (runCommand 0x0800000000000000 s)
    t.devState = .default ∧ t.tq = [] ∧ t.irByte = 0 ∧ t.trace = [] ∧
    bdBytes t 0 .out .even = [0x80, 0x08, 0x00, 0x05] := by decide

/-- 96 part 7.2: IDLE, then ACT; ends not suspended. -/
theorem test_service_notifications :
    let t := after (runCommand 0x0800000000000000 { sConf with ir := ⟨false, true, true, false⟩ })
    t.trace = [.hookIdle, .hookResume, .hookActivity] ∧ t.suspended = false ∧ t.irByte = 0 := by decide

/-- 96 part 7.2: SOF and TRN; one record. -/
theorem test_service_transaction :
    let s := { sConf with
      ir := ⟨false, false, false, true⟩, tq := [⟨1, .out, .even, false, 0, 0⟩, ⟨2, .inn, .even, false, 0, 0⟩]
      ram := sConf.ram ++ [(0x411, 0x05), (0x413, 0x02)] }
    let t := after (runCommand 0x0800000000000000 s)
    t.trace = [.hookSof, .hookTrn 1 .out .even 5] ∧ t.tq = [⟨2, .inn, .even, false, 0, 0⟩] ∧ t.irByte = 0x10 ∧
    (t.epsAt 1 .out).byte = 0x05 := by decide

/-- 96 part 7.3: the words of a hook run; a re-entrant one is the fault `REENTRY`, and the SERVICE goes on. -/
theorem test_service_hook :
    let s := { sConf with
      tq := [⟨1, .out, .even, false, 0, 0⟩]
      hookTape := [⟨false, [0x0800000000000000, 0x4410020000400000]⟩] }
    let t := after (runCommand 0x0800000000000000 s)
    t.fault.byte = 0x08 ∧ t.resp = 0 ∧ t.busy = false ∧ bdBytes t 1 .out .even = [0xC0, 0x40, 0x00, 0x02] := by decide

/-! ### Standard requests (96 part 6) -/

/-- Part 6.1 rows 2, 16, 18. -/
theorem test_getStatus :
    (after (exec (.getStatus 0x80 0 0 2) (sServe { sDefault with
      cfg := { Params.defaults with selfPowered := true } }))).ram.readBytes 0 0x500 2 = [0x01, 0x00] ∧
    (after (exec (.getStatus 0x82 0 0x81 2) (sServe (sConf.setHalt 1 .inn true)))).ram.readBytes 0 0x500 2 = [0x01, 0x00] ∧
    bdBytes (after (exec (.getStatus 0x82 0 3 2) (sServe sConf))) 0 .inn .even = [0xC4, 0x00, 0x00, 0x05] := by decide

/-- Part 6.2 rows 11, 14. -/
theorem test_clearFeature :
    let s := { sServe sConf with ram := sConf.ram ++ [(0x410, 0x84), (0x411, 0x40), (0x413, 0x02)] }
    bdBytes (after (exec (.clearFeature 2 0 1 0) s)) 1 .out .even = [0x80, 0x40, 0x00, 0x02] ∧
    (after (exec (.clearFeature 2 0 0x81 0) (sServe sAddress))).trace = [.requestError .rejected] := by decide

/-- Part 6.2 rows 1, 4. -/
theorem test_setFeature :
    let t := after (exec (.setFeature 2 0 0x81 0) (sServe sConf))
    (t.epsAt 1 .inn).halt = true ∧ bdBytes t 1 .inn .even = [0x84, 0x00, 0x00, 0x00] ∧
    bdBytes t 0 .inn .even = [0xC0, 0x00, 0x00, 0x05] ∧
    (after (exec (.setFeature 2 0 0 0) (sServe sConf))).trace = [.requestError .rejected] := by decide

/-- Part 6.3 rows 2, 3. -/
theorem test_setAddress :
    (after (exec (.setAddress 0 0x7F 0 0) (sServe sDefault))).newAddr = 0x7F ∧
    bdBytes (after (exec (.setAddress 0 0x80 0 0) (sServe sDefault))) 0 .inn .even = [0x84, 0x00, 0x00, 0x00] := by decide

/-- Part 6.4 row 1, with the descriptor of part 0 cut to its first 8 bytes. -/
theorem test_getDescriptor :
    let s := sServe { sDefault with
      cfg := { Params.defaults with descs := [⟨1, 0, none, .rom, 0x1000, 18⟩] }
      rom := [(0x1000, 0x12), (0x1001, 0x01), (0x1003, 0x02), (0x1007, 0x08)] }
    let t := after (exec (.getDescriptor 0x80 0x0100 0 0x40) s)
    t.ram.readBytes 0 0x500 8 = [0x12, 0x01, 0x00, 0x02, 0x00, 0x00, 0x00, 0x08] ∧ t.ctx.remaining = 10 ∧
    (after (exec (.getDescriptor 0x80 0x0101 0 0x12) s)).trace = [.requestError .rejected] := by decide

/-- Part 6.4 row 13, part 6.6 row 11. -/
theorem test_unsupported :
    (after (exec (.setDescriptor 0 0x0100 0 0x12) (sServe sAddress))).trace = [.requestError .rejected] ∧
    (after (exec (.synchFrame 0x82 0 0x81 2) (sServe sConf))).trace = [.requestError .rejected] := by decide

/-- Part 6.5 row 3, part 6.6 row 1. -/
theorem test_getConfiguration_getInterface :
    (after (exec (.getConfiguration 0x80 0 0 1) (sServe sConf))).ram.readBytes 0 0x500 1 = [0x01] ∧
    bdBytes (after (exec (.getInterface 0x81 0 0 1) (sServe sConf))) 0 .inn .even = [0xC0, 0x01, 0x00, 0x05] := by decide

/-- Part 6.5 rows 7, 11. -/
theorem test_setConfiguration :
    let t := after (exec (.setConfiguration 0 1 0 0) (sServe sAddress))
    (t.config = 1 ∧ t.devState = .configured ∧ t.epen = 7 ∧ t.trace = [.hookConfig 1]) ∧
    (after (exec (.setConfiguration 0 0 0 0) (sServe sConf))).devState = .address := by decide

/-- Part 6.6 rows 6, 7. -/
theorem test_setInterface :
    bdBytes (after (exec (.setInterface 1 0 0 0) (sServe sConf))) 0 .inn .even = [0xC0, 0x00, 0x00, 0x05] ∧
    (after (exec (.setInterface 1 1 0 0) (sServe sConf))).trace = [.requestError .rejected] := by decide

/-! ### Bus-side events (96 parts 7, 8) -/

/-- Part 7.2: three bytes received into the armed descriptor; part 8: a wrong address is not answered. -/
theorem test_tokOut :
    let s := after (runCommand 0x4410020000400000 sConf)
    let t := after (exec (.tokOut 5 1 false [0x41, 0x42, 0x43]) s)
    t.response = some .ack ∧ t.ram.readBytes 0 0x200 3 = [0x41, 0x42, 0x43] ∧ t.tq = [⟨1, .out, .even, false, 0x200, 64⟩] ∧
    (after (exec (.tokOut 0 1 false [0x41]) s)).response = some .silent := by decide

/-- Part 3.3: the data packet, and the descriptor completed. -/
theorem test_tokIn :
    let s := { sConf with ram := sConf.ram ++ [(0x418, 0xA0), (0x419, 0x02), (0x41A, 0x80), (0x41B, 0x02)] }
    let t := after (exec (.tokIn 5 1 true) s)
    t.response = some (.data false [0, 0]) ∧ bdBytes t 1 .inn .even = [0x20, 0x02, 0x80, 0x02] := by decide

/-- R287: the eight bytes in the EP0 buffer, the record marked, EP0 held. -/
theorem test_tokSetup :
    let t := after (exec (.tokSetup 0 0 [0x80, 0x06, 0x00, 0x01, 0x00, 0x00, 0x40, 0x00]) sDefault)
    t.response = some .ack ∧ t.setupHold = true ∧ t.tq = [⟨0, .out, .even, true, 0x500, 8⟩] ∧
    t.ram.readBytes 0 0x500 4 = [0x80, 0x06, 0x00, 0x01] := by decide

/-- Part 7.1: a condition sets its flag while the block is enabled. -/
theorem test_conditions :
    (after (exec .busReset sInit)).irByte = 0x01 ∧ (after (exec .busIdle sInit)).irByte = 0x02 ∧
    (after (exec .busActivity sInit)).irByte = 0x04 ∧ (after (exec .busSof sInit)).irByte = 0x08 ∧
    (after (exec .busReset State.reset)).irByte = 0x00 := by decide

/-! ### Contracts (R341) -/

/-- Which of some addresses CLASS must not store to now. -/
def guards (s : State) (l : List Nat) : List Bool := l.map fun a => decide (s.guarded a)

/-- R341: IN endpoint 1 armed for 8 bytes at 0x0280 is guarded for those 8, armed and with its completion waiting, and no more
once that was observed. -/
theorem test_guarded_in :
    let s := withBd sConf 1 .inn .even (armedBd 8 0x0280)
    let t := after (exec (.tokIn 5 1 true) s)
    guards s [0x027F, 0x0287, 0x0288] = [false, true, false] ∧ guards t [0x027F, 0x0287, 0x0288, 0x0290] = [false, true, false, false] ∧
    guards (after (exec .svcTrn t)) [0x0287] = [false] := by decide

/-- R341: OUT endpoint 1 armed for 64 bytes at 0x0200 receives 3 and stays guarded for 64 until that is observed. -/
theorem test_guarded_out :
    let t := after (exec (.tokOut 5 1 false [0x41, 0x42, 0x43]) (withBd sConf 1 .out .even (armedBd 64 0x0200)))
    guards t [0x0200, 0x0203, 0x023F, 0x0240] = [true, true, true, false] ∧
    guards (after (exec .svcTrn t)) [0x0200, 0x0203] = [false, false] := by decide

/-! ### The hypotheses of the statements can be met -/

theorem wf_defaults : Params.defaults.wf := by decide

/-- Every endpoint direction double-buffered. -/
def sDouble : State := { sConf with cfg := { Params.defaults with pp := .all } }

theorem wf_sDouble : sDouble.cfg.wf := by decide

theorem serving_default : (sServe sDefault).serving := ⟨wf_defaults, rfl, by decide⟩
theorem serving_address : (sServe sAddress).serving := ⟨wf_defaults, rfl, by decide⟩
theorem serving_conf : (sServe sConf).serving := ⟨wf_defaults, rfl, by decide⟩

/-- `DecodeEncode`, `EncodeDecode`: `test_wf_getStatus` and the decode tests; and one operand at its largest value. -/
theorem witness_DecodeEncode : (Instr.arm true true 15 .inn .odd true 0xFFFF 0xFFFF).wf = true ∧
    (Instr.getDescriptor 0x9F 0xFFFF 0xFFFF 0xFFFF).wf = true := by decide

/-- The opcodes next to the map's ranges; bit 48; a word that is illegal in a state that executes it. -/
theorem witness_IllegalWords :
    ((0x0000000000000000 : Word64).extractLsb' 58 6).toNat = 0x00 ∧
    ((0x3400000000000000 : Word64).extractLsb' 58 6).toNat = 0x0D ∧
    ((0x3C00000000000000 : Word64).extractLsb' 58 6).toNat = 0x0F ∧
    ((0x5000000000000000 : Word64).extractLsb' 58 6).toNat = 0x14 ∧
    ((0xFC00000000000000 : Word64).extractLsb' 58 6).toNat = 0x3F ∧
    (0x0401000000000000 : Word64).getLsbD 48 = true ∧
    (sConf.busy = false ∧ decodeCmd 0x0401000000000000 = .error .mustBeZero) := by decide

/-- `ArmRule`: accepted at the last byte of memory, at the largest count, on slot ODD of a double-buffered endpoint; each of the
four checks failing by one; owned. -/
theorem witness_ArmRule :
    (OperandsOk sConf.cfg 2 .inn .even 0xFFF0 16 ∧ (sConf.bd 2 .inn .even).own = false) ∧
    (OperandsOk sConf.cfg 1 .out .even 0x0300 64 ∧ (sConf.bd 1 .out .even).own = false) ∧
    (OperandsOk sDouble.cfg 1 .inn .odd 0xFFFF 0 ∧ (sDouble.bd 1 .inn .odd).own = false) ∧
    ¬ OperandsOk sConf.cfg 3 .inn .even 0x0340 0 ∧ ¬ OperandsOk sConf.cfg 1 .inn .odd 0x0280 8 ∧
    ¬ OperandsOk sConf.cfg 1 .out .even 0x0300 65 ∧ ¬ OperandsOk sConf.cfg 1 .inn .even 0xFFF0 17 ∧
    (OperandsOk sConf.cfg 0 .out .even 0x0500 8 ∧ (sConf.bd 0 .out .even).own = true) := by
  unfold OperandsOk; decide

/-- `AutomaticArming`: for each of the four commands, the three cases. -/
theorem witness_AutomaticArming :
    (OperandsOk sConf.cfg 1 .out (sConf.nextSlot 1 .out) 0x0300 64 ∧ (sConf.bd 1 .out (sConf.nextSlot 1 .out)).own = false) ∧
    (OperandsOk sConf.cfg 0 .out (sConf.nextSlot 0 .out) 0x0500 8 ∧ (sConf.bd 0 .out (sConf.nextSlot 0 .out)).own = true) ∧
    ¬ OperandsOk sConf.cfg 3 .out (sConf.nextSlot 3 .out) 0x0300 8 ∧
    (OperandsOk sConf.cfg 0 .inn (sConf.nextSlot 0 .inn) sConf.cfg.ep0Buf 8 ∧
      (sConf.bd 0 .inn (sConf.nextSlot 0 .inn)).own = false) ∧
    (OperandsOk sDouble.cfg 2 .inn (sDouble.nextSlot 2 .inn) 0xFFC0 64 ∧
      (sDouble.bd 2 .inn (sDouble.nextSlot 2 .inn)).own = false) ∧
    ¬ OperandsOk sConf.cfg 0 .inn (sConf.nextSlot 0 .inn) sConf.cfg.ep0Buf 9 := by
  unfold OperandsOk; decide

/-- EP0 IN hardware-owned. -/
def sOwnedIn : State := withBd sConf 0 .inn .even (armedBd 8 0x0500)

theorem witness_AutomaticArming_owned :
    OperandsOk sOwnedIn.cfg 0 .inn (sOwnedIn.nextSlot 0 .inn) 0x0500 8 ∧
    (sOwnedIn.bd 0 .inn (sOwnedIn.nextSlot 0 .inn)).own = true := by
  unfold OperandsOk; decide

theorem witness_NextSlotRule : pp sConf.cfg 1 .inn = false ∧ pp sDouble.cfg 1 .inn = true := by decide

theorem witness_NextSlotRule_restarted : RestartedFrom State.reset State.reset :=
  ⟨rfl, fun ep dir => by revert ep; cases dir <;> decide, fun ep dir => by revert ep; cases dir <;> decide⟩

theorem witness_ArmStatusRule :
    (sConf.bd 0 .inn (sConf.nextSlot 0 .inn)).own = false ∧ (sOwnedIn.bd 0 .inn (sOwnedIn.nextSlot 0 .inn)).own = true := by
  decide

/-- `StallEpRule`, `ClearStallRule`, `StallClearRoundTrip`: the last endpoint and the first that does not exist. -/
theorem witness_StallEpRule : (2 : BitVec 4).toNat < sConf.cfg.nep ∧ sConf.cfg.nep ≤ (3 : BitVec 4).toNat := by decide

/-- Endpoint 1 OUT holding a buffer that ends at the last byte of memory, and one byte later. -/
theorem witness_ClearStallRule :
    (withBd sConf 1 .out .even (armedBd 8 0xFFC0)).nextSlot 1 .out = .even ∧
    ((withBd sConf 1 .out .even (armedBd 8 0xFFC0)).bd 1 .out .even).addr.toNat + mps sConf.cfg 1 .out ≤ 0x10000 ∧
    0x10000 < ((withBd sConf 1 .out .even (armedBd 8 0xFFC1)).bd 1 .out .even).addr.toNat + mps sConf.cfg 1 .out := by
  decide

theorem witness_XferRule :
    sConf.ctx.stage ≠ .setup ∧ ¬ (min 2 2 = 0 ∨ (0xFFFF : Half).toNat + min 2 2 ≤ 0x10000) ∧
    (sServe sConf).ctx.stage = .setup ∧ (min 1 2 = 0 ∨ (0xFFFF : Half).toNat + min 1 2 ≤ 0x10000) ∧
    ((sServe sConf).bd 0 .inn ((sServe sConf).nextSlot 0 .inn)).own = false ∧
    (sServe sOwnedIn).ctx.stage = .setup ∧
    ((sServe sOwnedIn).bd 0 .inn ((sServe sOwnedIn).nextSlot 0 .inn)).own = true := by decide

/-- 16 bytes of 64: a multiple of `MPS0` shorter than what is asked, so three packets (95 part 5.1). -/
theorem witness_TransactionCount :
    exec (xferInstr .rom 0x2000 16 64) (sServe sConf) = .next (after (exec (xferInstr .rom 0x2000 16 64) (sServe sConf))) ∧
    (after (exec (xferInstr .rom 0x2000 16 64) (sServe sConf))).fault = (sServe sConf).fault ∧
    (sServe sConf).fault.badparam = false ∧
    dataPackets 4 (after (exec (xferInstr .rom 0x2000 16 64) (sServe sConf))) = [8, 8, 0] :=
  ⟨next_after (by decide), by decide, by decide, by decide⟩

/-- The other two cases of the count: nothing to send, and a short last packet (95 part 5.1). -/
theorem witness_TransactionCount_cases :
    dataPackets 2 (after (exec (xferInstr .rom 0x2000 0 64) (sServe sConf))) = [0] ∧
    dataPackets 4 (after (exec (xferInstr .rom 0x2000 18 64) (sServe sConf))) = [8, 8, 2] := by decide

/-- Stage 6, the empty and the first too long destination of DATA_OUT; the longest that fits; IDLE. -/
theorem witness_SetStageRule :
    5 < (6 : BitVec 3).toNat ∧ ((3 : BitVec 3).toNat = 3 ∧ (0 : Half).toNat = 0) ∧
    ((3 : BitVec 3).toNat = 3 ∧ 0x10000 < (0xFFF0 : Half).toNat + (17 : Half).toNat) ∧
    ¬ (5 < (3 : BitVec 3).toNat ∨ ((3 : BitVec 3).toNat = 3 ∧
      ((16 : Half).toNat = 0 ∨ 0x10000 < (0xFFF0 : Half).toNat + (16 : Half).toNat))) ∧
    ¬ (5 < (5 : BitVec 3).toNat ∨ ((5 : BitVec 3).toNat = 3 ∧
      ((0 : Half).toNat = 0 ∨ 0x10000 < (0xFFFF : Half).toNat + (0 : Half).toNat))) := by decide

theorem witness_RestartRule : { sConf with busy := true }.busy = true ∧ sConf.busy = false := by decide

theorem witness_ServiceNothing :
    (State.reset.busy = false ∧ State.reset.usbEn = false ∧ State.reset.devState = .detached) ∧
    (sConf.busy = false ∧ sConf.irByte = 0) ∧ ({ sConf with busy := true } : State).busy = true := by decide

theorem witness_ServiceOrder :
    sConf.busy = false ∧ sConf.usbEn = true ∧ sConf.devState ≠ .detached ∧ sConf.ir.rst = false ∧
    ({ sConf with ir := ⟨true, true, false, false⟩ } : State).ir.rst = true := by decide

/-- A data stage at the end of memory, in both directions, with its record at the head of the queue. -/
def sDataOut (n : BitVec 10) (dst count : Half) : State :=
  { withBd sConf 0 .out .even ⟨false, true, false, false, false, n, 0x0500⟩ with
    ctx := ⟨.dataOut, count, 0, .rom, false, dst⟩, tq := [⟨0, .out, .even, false, 0, 0⟩] }

def sDataIn (remaining src : Half) : State :=
  { sConf with ctx := ⟨.dataIn, remaining, src, .rom, false, 0⟩, tq := [⟨0, .inn, .even, false, 0, 0⟩] }

/-- `ServiceCompletes`: all flags set, a hook that answers words and a data stage that passes the top of memory; the block off. -/
theorem witness_ServiceCompletes :
    (let s := { sDataIn 9 0xFFF9 with
        ir := ⟨false, true, true, true⟩, hookTape := [⟨false, [0x4C10000000000000]⟩] };
      s.busy = false ∧ s.usbEn = true ∧ s.devState ≠ .detached ∧ s.tq ≠ []) ∧
    (State.reset.busy = false ∧ State.reset.usbEn = false) := by decide

theorem witness_NotificationArms : sConf.hookTape = [] := by decide

theorem witness_HookWordIsCommand :
    reentrantOpcode 0x4410020000400000 = false ∧ reentrantOpcode 0x0C00000000000000 = true := by decide

/-- A record of a class endpoint; the hook silent, absent, and answering. -/
def sClass : State := { sConf with tq := [⟨2, .inn, .even, false, 0, 0⟩] }

theorem witness_ClassCompletion :
    sClass.tq = ⟨2, .inn, .even, false, 0, 0⟩ :: [] ∧ (⟨2, .inn, .even, false, 0, 0⟩ : Completion).ep ≠ 0 ∧ sClass.hookTape = [] ∧
    ({ Params.defaults with hooks := { HookSet.allPresent with trn := false } } : Params).hooks.trn = false := by decide

theorem witness_HeldEp0 :
    let s := { sDataIn 9 0x2000 with setupHold := true }
    s.tq = ⟨0, .inn, .even, false, 0, 0⟩ :: [] ∧ s.setupHold = true := by decide

/-- `StageTable`: each entry of the table but the data entries. -/
def sStage (st : Stage) (dir : Dir) : State :=
  { sConf with ctx := { sConf.ctx with stage := st }, tq := [⟨0, dir, .even, false, 0, 0⟩] }

theorem witness_StageTable :
    (∀ st ∈ [Stage.idle, .setup, .dataOut, .statusOut], (sStage st .inn).ctx.stage = st ∧
      (sStage st .inn).tq = ⟨0, .inn, .even, false, 0, 0⟩ :: [] ∧ (sStage st .inn).setupHold = false) ∧
    (∀ st ∈ [Stage.idle, .setup, .statusIn, .statusOut, .dataIn], (sStage st .out).ctx.stage = st ∧
      (sStage st .out).tq = ⟨0, .out, .even, false, 0, 0⟩ :: [] ∧ (sStage st .out).setupHold = false) := by decide

theorem witness_StatusDoneRule :
    let s := { sStage .statusIn .inn with addrPending := true, newAddr := 9 }
    s.tq = ⟨0, .inn, .even, false, 0, 0⟩ :: [] ∧ s.setupHold = false ∧ s.ctx.stage = .statusIn ∧ s.addrPending = true := by decide

/-- Nothing left; chunks that end at the last byte of memory and one past it; EP0 IN hardware-owned. -/
theorem witness_DataInRule :
    ((sDataIn 0 0x2000).ctx.remaining = 0 ∧ (sDataIn 0 0x2000).ctx.zlp = false) ∧
    ¬ ((sDataIn 9 0xFFF8).ctx.remaining = 0 ∧ (sDataIn 9 0xFFF8).ctx.zlp = false) ∧
    ¬ ((sDataIn 9 0xFFF9).ctx.remaining = 0 ∧ (sDataIn 9 0xFFF9).ctx.zlp = false) ∧
    (let u := (onComplete 0 .inn .even { sDataIn 9 0xFFF9 with tq := [] }).2;
      (u.bd 0 .inn (u.nextSlot 0 .inn)).own = false) ∧
    (let u := (onComplete 0 .inn .even (withBd { sDataIn 9 0xFFF9 with tq := [] } 0 .inn .even (armedBd 8 0x500))).2;
      (u.bd 0 .inn (u.nextSlot 0 .inn)).own = true) := by decide

/-- A chunk of the whole declared length whose destination passes the top of memory, EP0 IN free, and one inside memory, EP0
IN hardware-owned; one byte short of it, and one byte longer. -/
theorem witness_DataOutRule :
    ((sDataOut 8 0xFFF9 8).tq = ⟨0, .out, .even, false, 0, 0⟩ :: [] ∧ (sDataOut 8 0xFFF9 8).ctx.stage = .dataOut ∧
      ((sDataOut 8 0xFFF9 8).bd 0 .out .even).cnt.toNat = (sDataOut 8 0xFFF9 8).ctx.remaining.toNat ∧
      (let v := (onComplete 0 .out .even { sDataOut 8 0xFFF9 8 with tq := [] }).2.consumed 8;
        (v.bd 0 .inn (v.nextSlot 0 .inn)).own = false)) ∧
    (let s := withBd (sDataOut 8 0x0600 8) 0 .inn .even ⟨true, true, false, false, false, 8, 0x0500⟩;
      let v := (onComplete 0 .out .even { s with tq := [] }).2.consumed 8;
      s.tq = ⟨0, .out, .even, false, 0, 0⟩ :: [] ∧ s.ctx.stage = .dataOut ∧ s.ctx.remaining.toNat = 8 ∧
      (s.bd 0 .out .even).cnt.toNat = 8 ∧ (v.bd 0 .inn (v.nextSlot 0 .inn)).own = true) ∧
    (sDataOut 7 0x0600 8).ctx.remaining.toNat = 8 ∧
    (sDataOut 8 0x0600 7).ctx.remaining.toNat < ((sDataOut 8 0x0600 7).bd 0 .out .even).cnt.toNat := by decide

/-- A SETUP record for SET_ADDRESS(5), its 8 bytes in the EP0 buffer. -/
def sSetup (n : BitVec 10) : State :=
  let s := withBd sDefault 0 .out .even ⟨false, false, false, false, false, n, 0x0500⟩
  { s with tq := [setupRecord s.cfg], setupHold := true, ram := s.ram.writeBytes 0x500 [0x00, 0x05, 0x05, 0, 0, 0, 0, 0] }

theorem witness_SetupDispatch :
    let s := sSetup 8
    let p := ((onComplete 0 .out .even { s with tq := [] }).2.setupPrologue).latchSetup
    s.tq = ⟨0, .out, .even, true, 0x500, 8⟩ :: [] ∧ (s.bd 0 .out .even).cnt = 8 ∧ s.fault = FaultBits.none ∧
    decodeReq p.setup = .ok (.setAddress 0 5 0 0) ∧
    exec (.setAddress 0 5 0 0) p = .next (after (exec (.setAddress 0 5 0 0) p)) ∧
    (after (exec (.setAddress 0 5 0 0) p)).fault = FaultBits.none :=
  ⟨by decide, by decide, by decide, by decide, next_after (by decide), by decide⟩

theorem witness_SetupLength :
    (sSetup 7).tq = ⟨0, .out, .even, true, 0x500, 8⟩ :: [] ∧ ((sSetup 7).bd 0 .out .even).cnt ≠ 8 := by decide

/-- A class request: hook absent; hook answering "handled" and "unhandled". -/
theorem witness_ClassRequestRule :
    let s := { sServe sConf with setup := 0x0000000002000921 }
    decodeReq s.setup = .error .notStandard ∧
    ({ Params.defaults with hooks := { HookSet.allPresent with req := false } } : Params).hooks.req = false ∧ s.cfg.hooks.req = true ∧
    (∀ h, ({ s with hookTape := [⟨h, []⟩] } : State).hookTape = ⟨h, []⟩ :: []) := by
  refine ⟨by decide, by decide, by decide, fun h => rfl⟩

theorem witness_ClassRequestRule_serving : ({ sServe sConf with setup := 0x0000000002000921 } : State).serving :=
  ⟨wf_defaults, rfl, by decide⟩

/-- GET_STATUS of the device, of interface 0, of endpoint 2 IN; and a form that is none of them (interface 1). -/
theorem witness_GetStatusRule :
    ((0x80 : Byte).getLsbD 7 = true ∧ ((0x80 : Byte).extractLsb' 0 5).toNat = 0) ∧
    (((0x81 : Byte).extractLsb' 0 5).toNat = 1 ∧ ifOk (sServe sConf) 0 = true) ∧
    (((0x82 : Byte).extractLsb' 0 5).toNat = 2 ∧ epOk (sServe sConf) 0x82 = true) ∧
    ifOk (sServe sConf) 1 = false ∧ epOk (sServe sConf) 3 = false ∧ epOk (sServe sAddress) 0x81 = false := by decide

theorem witness_OneByteReplies :
    ((0x80 : Byte).getLsbD 7 = true ∧ ((0x80 : Byte).extractLsb' 0 5).toNat = 0) ∧
    ((0x81 : Byte).getLsbD 7 = true ∧ ((0x81 : Byte).extractLsb' 0 5).toNat = 1 ∧ ifOk (sServe sConf) 0 = true) ∧
    ((0x00 : Byte).getLsbD 7 = false ∧ ifOk (sServe sAddress) 0 = false) := by decide

/-- ENDPOINT_HALT of endpoint 0 and of endpoint 1; the OUT descriptor's address past the top; a form that is rejected. -/
theorem witness_ClearFeatureRule :
    ((2 : Byte).getLsbD 7 = false ∧ ((2 : Byte).extractLsb' 0 5).toNat = 2) ∧
    (epOk (sServe sConf) 0x80 = true ∧ indexEp 0x80 = 0) ∧ (epOk (sServe sConf) 0x01 = true ∧ indexEp 0x01 ≠ 0) ∧
    (after (exec (.clearStall 1 .out) (sServe sConf))).fault = (sServe sConf).fault ∧
    (let s := withBd (sServe sConf) 1 .out .even (armedBd 8 0xFFC1);
      (after (exec (.clearStall (indexEp 1) (indexDir 1)) s)).fault ≠ s.fault) ∧
    epOk (sServe sConf) 3 = false := by decide

theorem witness_ClearFeatureRule_serving : (withBd (sServe sConf) 1 .out .even (armedBd 8 0xFFC1)).serving :=
  ⟨wf_defaults, rfl, by decide⟩

theorem witness_SetFeatureRule :
    (2 : Byte).getLsbD 7 = false ∧ epOk (sServe sConf) 0x82 = true ∧ indexEp 0x82 ≠ 0 ∧ indexEp 0x80 = 0 := by decide

/-- The largest address; the first that is none; in Configured. -/
theorem witness_SetAddressRule :
    ((0 : Byte).getLsbD 7 = false ∧ ((0 : Byte).extractLsb' 0 5).toNat = 0 ∧ (0x7F : Half).toNat ≤ 127 ∧
      (sServe sDefault).devState ≠ .configured) ∧
    ¬ ((0x80 : Half).toNat ≤ 127) ∧ (sServe sConf).devState = .configured := by decide

/-- A provider with two descriptors: one whose bytes fit, one that passes the top of memory. -/
def sProvider : State :=
  sServe { sDefault with cfg := { Params.defaults with
    descs := [⟨1, 0, none, .rom, 0x1000, 18⟩, ⟨2, 0, some 0x0409, .rom, 0xFFF0, 17⟩] } }

theorem witness_GetDescriptorRule :
    descLookup sProvider.cfg ((0x0100 : Half).extractLsb' 8 8) ((0x0100 : Half).extractLsb' 0 8) 0 = some (.rom, 0x1000, 18) ∧
    descLookup sProvider.cfg ((0x0200 : Half).extractLsb' 8 8) ((0x0200 : Half).extractLsb' 0 8) 0x0409 =
      some (.rom, 0xFFF0, 17) ∧
    ¬ (min (17 : Half).toNat (17 : Half).toNat = 0 ∨ (0xFFF0 : Half).toNat + min (17 : Half).toNat (17 : Half).toNat ≤ 0x10000) ∧
    (min (17 : Half).toNat (16 : Half).toNat = 0 ∨ (0xFFF0 : Half).toNat + min (17 : Half).toNat (16 : Half).toNat ≤ 0x10000) ∧
    descLookup sProvider.cfg ((0x0101 : Half).extractLsb' 8 8) ((0x0101 : Half).extractLsb' 0 8) 0 = none := by decide

theorem witness_GetDescriptorRule_serving : sProvider.serving := ⟨by decide, rfl, by decide⟩

/-- Configurations 1 and 0; one that does not exist; the hook silent or absent. -/
theorem witness_SetConfigurationRule :
    ((1 : Half).toNat ≤ (sServe sAddress).cfg.numConfig ∧ (sServe sAddress).devState = .address) ∧
    ((0 : Half).toNat ≤ (sServe sConf).cfg.numConfig ∧ (sServe sConf).devState = .configured) ∧
    ¬ ((2 : Half).toNat ≤ (sServe sAddress).cfg.numConfig) ∧ (sServe sDefault).devState = .default ∧
    (sServe sAddress).hookTape = [] := by decide

theorem witness_SetInterfaceRule :
    ((1 : Byte).getLsbD 7 = false ∧ ((1 : Byte).extractLsb' 0 5).toNat = 1 ∧ ifOk (sServe sConf) 0 = true) ∧
    ifOk (sServe sConf) 1 = false := by decide

/-- Accepted on the last endpoint; not accepted: another address, a pending reset, an endpoint that does not exist. -/
theorem witness_TokenNotAccepted :
    sConf.accepts 5 2 = true ∧ sConf.accepts 0 2 = false ∧ sConf.accepts 5 3 = false ∧
    ({ sConf with ir := ⟨true, false, false, false⟩ } : State).accepts 5 0 = false := by decide

/-- Endpoint 1 OUT armed for 64 bytes that end at the last byte of memory, and one past it. -/
def sArmedOut : State := withBd sConf 1 .out .even (armedBd 64 0xFFC0)
def sArmedPast : State := withBd sConf 1 .out .even (armedBd 64 0xFFC1)

/-- `TokOutRule`: not armed; stalled; queue full; retransmission; the longest packet. -/
theorem witness_TokOutRule :
    sArmedOut.accepts 5 1 = true ∧ (sConf.bd 1 .out (sConf.engSlot 1 .out)).own = false ∧
    (let b := (withBd sConf 1 .out .even { armedBd 64 0xFFC0 with stall := true }).bd 1 .out .even;
      b.own = true ∧ b.stall = true) ∧
    (let s := { sArmedOut with tq := [⟨1, .inn, .even, false, 0, 0⟩, ⟨1, .inn, .even, false, 0, 0⟩, ⟨2, .inn, .even, false, 0, 0⟩, ⟨2, .inn, .even, false, 0, 0⟩] };
      s.cfg.tqDepth ≤ s.tq.length) ∧
    (∀ s ∈ [sArmedOut, sArmedPast],
      let b := s.bd 1 .out (s.engSlot 1 .out);
      s.accepts 5 1 = true ∧ b.own = true ∧ b.stall = false ∧ s.tq.length < s.cfg.tqDepth ∧ true ≠ b.dts ∧
      false = b.dts ∧ b.cnt.toNat = 64 ∧
      disjointRanges b.addr.toNat 64 s.cfg.bdtBase.toNat (16 * s.cfg.nep)) := by decide

theorem witness_TokOutRule_held : { sConf with setupHold := true }.accepts 5 0 = true ∧
    ({ sConf with setupHold := true } : State).setupHold = true := by decide

theorem witness_TokSetupRule :
    sDefault.accepts 0 0 = true ∧ sDefault.setupHold = false ∧
    (let b := sDefault.bd 0 .out (sDefault.engSlot 0 .out);
      b.own = true ∧ b.cnt.toNat = 8 ∧
      disjointRanges b.addr.toNat 8 sDefault.cfg.bdtBase.toNat (16 * sDefault.cfg.nep)) ∧
    sDefault.tq.length < sDefault.cfg.tqDepth ∧ ({ sDefault with setupHold := true } : State).accepts 0 0 = true := by decide

theorem witness_TokInRule :
    (sConf.accepts 5 2 = true ∧ (sConf.bd 2 .inn (sConf.engSlot 2 .inn)).own = false) ∧
    (let s := withBd sConf 2 .inn .even (armedBd 64 0xFFC1);
      s.accepts 5 2 = true ∧ (s.bd 2 .inn .even).own = true ∧ (s.bd 2 .inn .even).stall = false ∧
      s.tq.length < s.cfg.tqDepth) ∧
    ((withBd sConf 2 .inn .even { armedBd 64 0xFFC0 with stall := true }).bd 2 .inn .even).stall = true := by decide

theorem witness_BusConditions : sConf.usbEn = true ∧ State.reset.usbEn = false := by decide

/-- `EngineFrame`: a reception, a byte it may write and one it may not. -/
theorem witness_EngineFrame :
    decodeBus ⟨0, 5, 1, false, [0x41], false⟩ = .ok (.tokOut 5 1 false [0x41]) ∧
    exec (.tokOut 5 1 false [0x41]) sArmedOut = .next (after (exec (.tokOut 5 1 false [0x41]) sArmedOut)) ∧
    sArmedOut.engMayWrite (.tokOut 5 1 false [0x41]) 0xFFC0 ∧ ¬ sArmedOut.engMayWrite (.tokOut 5 1 false [0x41]) 0xFFC1 :=
  ⟨by decide, next_after (by decide), by unfold State.engMayWrite; decide, by unfold State.engMayWrite; decide⟩

theorem witness_CommandFrame :
    decodeCmd 0x4C10000000000000 = .ok (.clearStall 1 .out) ∧ reentrantOpcode 0x4C10000000000000 = false := by decide

theorem witness_StepRunsDecoded :
    (({ sConf with sched := [.cmd 0x1000000000000000] } : State).sched = .cmd 0x1000000000000000 :: [] ∧ sConf.busy = false ∧
      decodeCmd 0x1000000000000000 = .ok .getState) ∧
    ({ sConf with sched := [.bus (.only 6)] } : State).sched = .bus (.only 6) :: [] ∧ decodeBus (.only 6) = .ok .busSof ∧
    ({ sConf with sched := [.mem 0xFFFF 1] } : State).sched = .mem 0xFFFF 1 :: [] := by decide

/-- `EveryStepDefined`: a SERVICE of a data stage that passes the top of memory completes (R357); the last store of the
register block and an event of the bus are elements it speaks of. -/
theorem witness_EveryStepDefined :
    (let t := after (exec .service (sDataOut 8 0xFFF9 8)); t.ctx.stage = .statusIn ∧ t.busy = false) ∧
    (BusRecord.only 3).code ≠ 7 ∧
    (sConf.cfg.csrBase.toNat ≤ (sConf.cfg.csrBase + 0x41).toNat ∧
      (sConf.cfg.csrBase + 0x41).toNat < sConf.cfg.csrBase.toNat + 0x42) := by decide

/-- `CommandRegister`: the offsets next to the command register, and the last of the block. -/
theorem witness_CommandRegister : (0x17 < 0x18 ∨ (0x20 ≤ 0x17 ∧ 0x17 < 0x42)) ∧ (0x20 < 0x18 ∨ (0x20 ≤ 0x20 ∧ 0x20 < 0x42)) ∧
    (0x41 < 0x18 ∨ (0x20 ≤ 0x41 ∧ 0x41 < 0x42)) := by decide

/-- `RegisterBlock`: the queue empty and not; the last offset of each row and the first past the block. -/
theorem witness_RegisterBlock :
    sConf.tq = [] ∧ sClass.tq = ⟨2, .inn, .even, false, 0, 0⟩ :: [] ∧ sClass.csrRead 0x01 = some 0x14 ∧
    sClass.csrRead 0x00 = some 0x10 ∧ sConf.csrRead 0x3F = some 0x04 ∧ sConf.csrRead 0x41 = some 0x00 ∧
    sConf.csrRead 0x42 = none := by decide

/-- The invariant holds in Configured with a completion queued, not only at reset. -/
theorem witness_StepKeepsInvariant : sClass.Inv where
  params := wf_defaults
  ram := by decide
  rom := by decide
  busy := rfl
  queue := by decide
  records := by decide
  active := fun _ => .inr (.inr rfl)
  enables := fun i hi => by
    have hi : 3 ≤ i := hi
    show (7 : Half).getLsbD i = false
    by_cases h : i < 16
    · interval_cases i <;> rfl
    · exact BitVec.getLsbD_of_ge _ _ (by omega)
  attached := by decide
  enabled := by decide
  configured := by decide
  address := by decide
  pending := fun h => by cases h
  pointers := fun ep dir h => by
    have : pp Params.defaults ep dir = true := h
    simp [pp, Params.defaults] at this

/-- A step from there: the SERVICE of the queued completion (`StepKeepsFaults`, `StepKeepsInvariant`, `DeviceTransitions`). -/
theorem witness_steps :
    step { sClass with sched := [.cmd serviceWord] } = .next (after (step { sClass with sched := [.cmd serviceWord] })) ∧
    (after (step { sClass with sched := [.cmd serviceWord] })).tq = [] ∧
    (after (step { sClass with fault := ⟨true, true, true, true⟩, sched := [.cmd serviceWord] })).fault.byte = 0x0F :=
  ⟨next_after (by decide), by decide, by decide⟩

/-- `DeviceTransitions`: an event of the bus and a store, from a state that meets the invariant. -/
theorem witness_DeviceTransitions :
    step { sClass with sched := [.bus (.only 3)] } = .next (after (step { sClass with sched := [.bus (.only 3)] })) ∧
    step { sClass with sched := [.mem 0x0600 1] } = .next (after (step { sClass with sched := [.mem 0x0600 1] })) :=
  ⟨next_after (by decide), next_after (by decide)⟩

end Sys2Proof.Tests
end

section
/-! PROOFS. What a held EP0 ignores (R52, R172), what a command word may write (R48, R96), what no step changes (R43, R80). -/

open Sys2Proof Sys2Proof.Machine

namespace Sys2Proof.Machine

/-- While EP0 is held its event does nothing for a record that is no SETUP (R172). -/
theorem ctEvent_held {r : Completion} {s : State} (hr : r.dir = .inn ∨ r.setup = false) (hs : s.setupHold = true)
    (count : BitVec 10) : ctEvent r count s = .ok () s := by
  have h : (r.dir = .out && r.setup) = false := by rcases hr with h | h <;> simp [h]
  unfold ctEvent
  rw [h, hs]
  rfl

/-- A decoded command word other than INIT, SERVICE and SHUTDOWN does what a hook's word does (R267). -/
theorem exec_eq_hookCommand {w : Word64} {i : Instr} (hd : decodeCmd w = .ok i) (hr : reentrantOpcode w = false)
    (s : State) : exec i s = (hookCommand i s).toOutcome := by
  obtain ⟨hi, hsv, hsh⟩ := reentrantOpcode_false hd hr
  rcases hookCommand_exec hd with h | h | h | h
  · exact absurd h hi
  · exact absurd h hsv
  · exact absurd h hsh
  · exact (h s).symm

/-- A step keeps what lasts, with an element to run or without one. -/
theorem step_lasting {s t : State} (h : step s = .next t) : LastingFrom s t := by
  unfold step at h
  split at h
  · cases h
    exact .refl s
  · exact (runInput_lasting h).since rfl rfl rfl

end Sys2Proof.Machine

/-- Settles O26: SVC_TRN pops the record and books it, and `CtEvent` ignores it. -/
theorem heldEp0 : Obligations.HeldEp0 := by
  unfold Obligations.HeldEp0
  intro r rest s hq h0 hr hs
  have hu : (onComplete r.ep r.dir r.slot { s with tq := rest }).2.setupHold = true := hs
  show (svcTrnOp s).toOutcome = _
  rw [svcTrnOp_cons s r rest hq, if_pos h0, ctEvent_held hr hu, h0]
  rfl

/-- Settles O51: such a word is an operation that a hook may perform, and `CommandFrom` is the frame of each. -/
theorem commandFrame : Obligations.CommandFrame := by
  unfold Obligations.CommandFrame
  intro w i s hd hr
  rw [exec_eq_hookCommand hd hr]
  obtain ⟨t, ht, hf⟩ := (hookCommand_ends i s).exists_next
  exact ⟨t, ht, hf.frame⟩

/-- Settles O56: what lasts, field by field. -/
theorem stepKeepsFaults : Obligations.StepKeepsFaults := by
  unfold Obligations.StepKeepsFaults
  intro s t h
  obtain ⟨hcfg, hrom, hdarm, hbadparam, hbadcmd, hreentry⟩ := step_lasting h
  exact ⟨hcfg, hrom, hdarm, hbadparam, hbadcmd, hreentry⟩
end

section
/-! PROOFS. The register block: stores to the command register and to the others (R45, R47), and what each offset
reads (R27, R39, R41, R43, R47, R52). -/

open Sys2Proof Sys2Proof.Machine

namespace Sys2Proof.Machine

/-! ### Stores -/

@[simp] theorem andThen_next (s : State) (f : State → Host.Outcome State Fault Refusal) : andThen (.next s) f = f s := rfl

/-- The register block lies inside REG, so an offset into it does not wrap (R47, R60). -/
theorem csrAddress_toNat {c : Params} (hc : c.wf) {k : Nat} (hk : k < 0x42) :
    (c.csrBase + .ofNat 16 k).toNat = c.csrBase.toNat + k := by
  have h := Params.wf_csr hc
  simp only [spaceSize] at h
  rw [BitVec.toNat_add, BitVec.toNat_ofNat]
  omega

/-- A store to the register block, by its offset (R45, R47). -/
theorem runInput_csr {s : State} (hc : s.cfg.wf) {k : Nat} (hk : k < 0x42) (v : Byte) :
    runInput (.csr (s.cfg.csrBase + .ofNat 16 k) v) s =
      if k < 0x18 ∨ 0x20 ≤ k then .next s
      else if k = 0x1F then runCommand (setCmdByte s.cmd (k - 0x18) v) s
      else .next { s with cmd := setCmdByte s.cmd (k - 0x18) v } := by
  show storeCsr _ v s = _
  unfold storeCsr
  rw [csrAddress_toNat hc hk, if_neg (by omega), Nat.add_sub_cancel_left]

/-- Byte `k` of a word replaced, bit by bit (R62). -/
theorem getLsbD_setCmdByte (w : Word64) (k : Nat) (v : Byte) {i : Nat} (hi : i < 64) :
    (setCmdByte w k v).getLsbD i = if 8 * k ≤ i ∧ i < 8 * k + 8 then v.getLsbD (i - 8 * k) else w.getLsbD i := by
  have hff : (0xFF : Word64).getLsbD (i - 8 * k) = decide (i - 8 * k < 8) := Nat.testBit_two_pow_sub_one 8 (i - 8 * k)
  simp only [setCmdByte, BitVec.getLsbD_or, BitVec.getLsbD_and, BitVec.getLsbD_not, BitVec.getLsbD_shiftLeft,
    BitVec.getLsbD_setWidth, hff, hi, show i - 8 * k < 64 by omega, decide_true, Bool.true_and]
  by_cases hlo : i < 8 * k
  · simp [hlo, show ¬ 8 * k ≤ i by omega]
  · by_cases hhi : i < 8 * k + 8
    · simp [hlo, hhi, show 8 * k ≤ i by omega, show i - 8 * k < 8 by omega]
    · simp [hlo, hhi, show ¬ i - 8 * k < 8 by omega, BitVec.getLsbD_of_ge v (i - 8 * k) (by omega)]

/-- The word in `CMD` once the first `k` bytes of `w` are stored over `c`, low byte first (R45). -/
def storedBytes (c w : Word64) : Nat → Word64
  | 0 => c
  | k + 1 => setCmdByte (storedBytes c w k) k (byteOf w k)

theorem getLsbD_storedBytes (c w : Word64) (k : Nat) {i : Nat} (hi : i < 64) :
    (storedBytes c w k).getLsbD i = if i < 8 * k then w.getLsbD i else c.getLsbD i := by
  induction k with
  | zero => rfl
  | succ k ih =>
    rw [storedBytes, getLsbD_setCmdByte _ _ _ hi, ih]
    by_cases hlo : i < 8 * k
    · rw [if_neg (by omega), if_pos hlo, if_pos (by omega)]
    · by_cases hhi : i < 8 * k + 8
      · rw [if_pos (by omega), if_pos (by omega), byteOf, BitVec.getLsbD_extractLsb', Nat.add_sub_cancel' (by omega)]
        simp [show i - 8 * k < 8 by omega]
      · rw [if_neg (by omega), if_neg hlo, if_neg (by omega)]

/-- Eight bytes make the whole word, whatever stood there. -/
theorem storedBytes_eight (c w : Word64) : storedBytes c w 8 = w := by
  apply BitVec.eq_of_getLsbD_eq
  intro i hi
  rw [getLsbD_storedBytes c w 8 hi, if_pos hi]

/-- The state once the first `k` bytes of `w` are stored to `CMD`. -/
def State.withCmdBytes (s : State) (w : Word64) (k : Nat) : State := { s with cmd := storedBytes s.cmd w k }

/-- The next byte stored to `CMD`, but for the top one (R45). -/
theorem runInput_cmdByte {s : State} (hc : s.cfg.wf) (w : Word64) {k : Nat} (hk : k < 7) :
    runInput (.csr (s.cfg.csrBase + .ofNat 16 (0x18 + k)) (byteOf w k)) (s.withCmdBytes w k) =
      .next (s.withCmdBytes w (k + 1)) := by
  have h := runInput_csr (s := s.withCmdBytes w k) hc (k := 0x18 + k) (by omega) (byteOf w k)
  rw [if_neg (by omega), if_neg (by omega), Nat.add_sub_cancel_left] at h
  exact h

/-- The top byte stored to `CMD` executes the word (R45). -/
theorem runInput_cmdTopByte {s : State} (hc : s.cfg.wf) (w : Word64) :
    runInput (.csr (s.cfg.csrBase + .ofNat 16 (0x18 + 7)) (byteOf w 7)) (s.withCmdBytes w 7) = runCommand w s := by
  have h := runInput_csr (s := s.withCmdBytes w 7) hc (k := 0x18 + 7) (by omega) (byteOf w 7)
  have hw : setCmdByte (s.withCmdBytes w 7).cmd 7 (byteOf w 7) = w := storedBytes_eight s.cmd w
  rw [if_neg (by omega), if_pos rfl, Nat.add_sub_cancel_left, hw] at h
  exact h

/-! ### Reads -/

theorem State.irByte_bits (s : State) :
    s.irByte.toNat < 32 ∧ s.irByte.getLsbD 0 = s.ir.rst ∧ s.irByte.getLsbD 1 = s.ir.idle ∧
      s.irByte.getLsbD 2 = s.ir.act ∧ s.irByte.getLsbD 3 = s.ir.sof ∧ (s.irByte.getLsbD 4 = true ↔ s.tq ≠ []) := by
  have key : ∀ trn sof act idle rst : Bool,
      let b : Byte := 0#3 ++ BitVec.ofBool trn ++ BitVec.ofBool sof ++ BitVec.ofBool act ++ BitVec.ofBool idle ++
        BitVec.ofBool rst
      b.toNat < 32 ∧ b.getLsbD 0 = rst ∧ b.getLsbD 1 = idle ∧ b.getLsbD 2 = act ∧ b.getLsbD 3 = sof ∧
        b.getLsbD 4 = trn := by decide
  obtain ⟨hlt, h0, h1, h2, h3, h4⟩ := key s.trn s.ir.sof s.ir.act s.ir.idle s.ir.rst
  exact ⟨hlt, h0, h1, h2, h3, by rw [show s.irByte.getLsbD 4 = s.trn from h4, State.trn, decide_eq_true_iff]⟩

theorem dirBit_getLsbD (d : Dir) : (dirBit d).getLsbD 0 = true ↔ d = .inn := by cases d <;> decide
theorem slotBit_getLsbD (sl : Slot) : (slotBit sl).getLsbD 0 = true ↔ sl = .odd := by cases sl <;> decide
theorem kindBit_getLsbD (k : Kind) : (kindBit k).getLsbD 0 = true ↔ k = .ram := by cases k <;> decide

theorem Completion.byte_bits (r : Completion) :
    r.byte.getLsbD 7 = false ∧ r.byte.extractLsb' 3 4 = r.ep ∧ (r.byte.getLsbD 2 = true ↔ r.dir = .inn) ∧
      (r.byte.getLsbD 1 = true ↔ r.slot = .odd) ∧ r.byte.getLsbD 0 = r.setup := by
  have key : ∀ (ep : BitVec 4) (dir slot : BitVec 1) (setup : Bool),
      let b : Byte := 0#1 ++ ep ++ dir ++ slot ++ BitVec.ofBool setup
      b.getLsbD 7 = false ∧ b.extractLsb' 3 4 = ep ∧ b.getLsbD 2 = dir.getLsbD 0 ∧ b.getLsbD 1 = slot.getLsbD 0 ∧
        b.getLsbD 0 = setup := by decide
  obtain ⟨h7, hep, h2, h1, h0⟩ := key r.ep (dirBit r.dir) (slotBit r.slot) r.setup
  exact ⟨h7, hep, h2 ▸ dirBit_getLsbD r.dir, h1 ▸ slotBit_getLsbD r.slot, h0⟩

/-- `TSTAT` of an empty queue (R41). -/
theorem State.tstat_nil {s : State} (h : s.tq = []) : s.tstat = 0x00 := by
  rw [State.tstat, h]

/-- `TSTAT` shows the oldest record (R41). -/
theorem State.tstat_cons {s : State} {r : Completion} {rest : List Completion} (h : s.tq = r :: rest) :
    s.tstat = r.byte := by
  rw [State.tstat, h]

/-- A zero bit above an address adds nothing to it: the register DEVADDR (R47). -/
theorem toNat_zero_append (a : BitVec 7) : (0#1 ++ a : Byte).toNat = a.toNat :=
  (BitVec.toNat_append 0#1 a).trans (by simp)

theorem State.dstat_bits (s : State) :
    s.dstat.toNat < 64 ∧ s.dstat.extractLsb' 0 3 = s.devState.bits ∧ s.dstat.getLsbD 3 = s.suspended ∧
      s.dstat.getLsbD 4 = s.usbEn ∧ s.dstat.getLsbD 5 = s.setupHold := by
  have key : ∀ (hold en susp : Bool) (d : BitVec 3),
      let b : Byte := 0#2 ++ BitVec.ofBool hold ++ BitVec.ofBool en ++ BitVec.ofBool susp ++ d
      b.toNat < 64 ∧ b.extractLsb' 0 3 = d ∧ b.getLsbD 3 = susp ∧ b.getLsbD 4 = en ∧ b.getLsbD 5 = hold := by decide
  exact key s.setupHold s.usbEn s.suspended s.devState.bits

theorem State.newAddrByte_bits (s : State) :
    s.newAddrByte.extractLsb' 0 7 = s.newAddr ∧ s.newAddrByte.getLsbD 7 = s.addrPending := by
  have key : ∀ (p : Bool) (a : BitVec 7), (BitVec.ofBool p ++ a : Byte).extractLsb' 0 7 = a ∧
      (BitVec.ofBool p ++ a : Byte).getLsbD 7 = p := by decide
  exact key s.addrPending s.newAddr

theorem State.cstage_bits (s : State) :
    s.cstage.toNat < 32 ∧ s.cstage.extractLsb' 0 3 = s.ctx.stage.bits ∧ (s.cstage.getLsbD 3 = true ↔ s.ctx.kind = .ram) ∧
      s.cstage.getLsbD 4 = s.ctx.zlp := by
  have key : ∀ (zlp : Bool) (kind : BitVec 1) (stage : BitVec 3),
      let b : Byte := 0#3 ++ BitVec.ofBool zlp ++ kind ++ stage
      b.toNat < 32 ∧ b.extractLsb' 0 3 = stage ∧ b.getLsbD 3 = kind.getLsbD 0 ∧ b.getLsbD 4 = zlp := by decide
  obtain ⟨hlt, hst, h3, h4⟩ := key s.ctx.zlp (kindBit s.ctx.kind) s.ctx.stage.bits
  exact ⟨hlt, hst, h3 ▸ kindBit_getLsbD s.ctx.kind, h4⟩

theorem FaultBits.byte_bits (f : FaultBits) :
    f.byte.toNat < 16 ∧ f.byte.getLsbD 0 = f.darm ∧ f.byte.getLsbD 1 = f.badparam ∧ f.byte.getLsbD 2 = f.badcmd ∧
      f.byte.getLsbD 3 = f.reentry := by
  obtain ⟨darm, badparam, badcmd, reentry⟩ := f
  revert darm badparam badcmd reentry
  decide

theorem Eps.byte_bits (e : Eps) :
    e.byte.toNat < 8 ∧ e.byte.getLsbD 0 = e.toggle ∧ e.byte.getLsbD 1 = e.halt ∧
      (e.byte.getLsbD 2 = true ↔ e.last = .odd) := by
  obtain ⟨toggle, halt, last⟩ := e
  cases last <;> revert toggle halt <;> decide

/-- The two bytes of each 16-bit register (R47). -/
theorem State.csrRead_half (s : State) {k : Nat} (hk : k < 2) :
    s.csrRead (0x08 + k) = some (byteOf s.ctx.remaining k) ∧ s.csrRead (0x0A + k) = some (byteOf s.ctx.src k) ∧
      s.csrRead (0x0C + k) = some (byteOf s.ctx.dst k) ∧ s.csrRead (0x0E + k) = some (byteOf s.resp k) ∧
      s.csrRead (0x40 + k) = some (byteOf s.epen k) := by
  interval_cases k <;> exact ⟨rfl, rfl, rfl, rfl, rfl⟩

/-- The eight bytes of SETUP and of CMD (R47). -/
theorem State.csrRead_word (s : State) {k : Nat} (hk : k < 8) :
    s.csrRead (0x10 + k) = some (byteOf s.setup k) ∧ s.csrRead (0x18 + k) = some (byteOf s.cmd k) := by
  interval_cases k <;> exact ⟨rfl, rfl⟩

/-- The byte of each endpoint status record (R47). -/
theorem State.csrRead_eps (s : State) (ep : BitVec 4) (dir : Dir) :
    s.csrRead (0x20 + (2 * ep.toNat + if dir = .inn then 1 else 0)) = some (s.epsAt ep dir).byte := by
  have key : ∀ i : Fin 32, s.csrRead (0x20 + i.val) = some s.eps[i].byte := fun i => by
    rw [State.csrRead]
    iterate 14 rw [if_neg (by omega)]
    rw [if_pos (by omega), Nat.add_sub_cancel_left, Vector.getElem?_eq_getElem i.isLt]
    rfl
  have hix : (epIx ep dir).val = 2 * ep.toNat + if dir = .inn then 1 else 0 := by cases dir <;> rfl
  rw [← hix]
  exact key (epIx ep dir)

/-- No register stands past the block (R47). -/
theorem State.csrRead_past (s : State) {off : Nat} (h : 0x42 ≤ off) : s.csrRead off = none := by
  rw [State.csrRead]
  iterate 16 rw [if_neg (by omega)]

end Sys2Proof.Machine

/-- Settles O54: seven stores each replace a byte of `CMD`, the eighth completes the word and runs it. -/
theorem commandRegister : Obligations.CommandRegister := by
  unfold Obligations.CommandRegister
  intro w s hc put
  refine ⟨?_, fun k v hk => ?_⟩
  · have next : ∀ k < 7, put k (s.withCmdBytes w k) = .next (s.withCmdBytes w (k + 1)) :=
      fun k hk => runInput_cmdByte hc w hk
    have first : put 0 s = .next (s.withCmdBytes w 1) := next 0 (by decide)
    rw [first, andThen_next, next 1 (by decide), andThen_next, next 2 (by decide), andThen_next, next 3 (by decide),
      andThen_next, next 4 (by decide), andThen_next, next 5 (by decide), andThen_next, next 6 (by decide), andThen_next]
    exact runInput_cmdTopByte hc w
  · rw [runInput_csr hc (by omega), if_pos (by omega)]

/-- Settles O55: each register's lemma at its offset. -/
theorem registerBlock : Obligations.RegisterBlock := by
  unfold Obligations.RegisterBlock
  intro s
  refine ⟨⟨_, rfl, s.irByte_bits⟩, fun hq => congrArg some (State.tstat_nil hq),
    fun r rest hq => ⟨_, congrArg some (State.tstat_cons hq), r.byte_bits⟩, ⟨_, rfl, s.dstat_bits⟩, rfl,
    ⟨_, rfl, toNat_zero_append s.devAddr⟩, ⟨_, rfl, s.newAddrByte_bits⟩, ⟨_, rfl, s.cstage_bits⟩,
    ⟨_, rfl, s.fault.byte_bits⟩, fun k hk => s.csrRead_half hk, fun k hk => s.csrRead_word hk,
    fun ep dir => ⟨_, s.csrRead_eps ep dir, (s.epsAt ep dir).byte_bits⟩, fun off h => s.csrRead_past h⟩
end

section
/-! PROOFS. The step: the element it runs (R75, R96), the invariant it keeps, and the end of a SERVICE (R242, R246). -/

open Sys2Proof Sys2Proof.Machine

namespace Sys2Proof.Machine

/-- A step with an element to run (R355). -/
theorem step_cons {s : State} {x : Input} {rest : List Input} (h : s.sched = x :: rest) :
    step s = runInput x (s.begin rest) := by
  rw [step, h]

/-- A step with an empty schedule (log 8). -/
theorem step_nil {s : State} (h : s.sched = []) : step s = .next s := by
  rw [step, h]

/-- A legal command word outside a SERVICE (R96). -/
theorem runCommand_decoded {w : Word64} {i : Instr} {s : State} (hb : s.busy = false) (hd : decodeCmd w = .ok i) :
    runCommand w s = exec i { s with cmd := w, resp := 0x0000 } := by
  unfold runCommand
  simp [hb, hd]

/-- A bus-side event of a code that is not reserved (R106). -/
theorem runBus_decoded {r : BusRecord} {i : Instr} (hd : decodeBus r = .ok i) (s : State) : runBus r s = exec i s := by
  rw [runBus, hd]

/-- SERVICE with the block disabled or Detached does nothing (R242). -/
theorem serviceOp_disabled {s : State} (hb : s.busy = false) (h : ¬ (s.usbEn = true ∧ s.devState ≠ .detached)) :
    serviceOp s = .ok () s := by
  have hoff : (!s.usbEn || s.devState = .detached) = true := by
    by_cases hu : s.usbEn = true
    · simpa [hu] using h
    · simp [hu]
  rw [serviceOp, hb, if_neg Bool.false_ne_true, if_pos hoff]

end Sys2Proof.Machine

/-- Settles O58: a step runs nothing or one element of the schedule, and every element keeps the invariant. -/
theorem stepKeepsInvariant : Obligations.StepKeepsInvariant := by
  unfold Obligations.StepKeepsInvariant
  intro s t hs ht
  cases hq : s.sched with
  | nil =>
    rw [step_nil hq] at ht
    cases ht
    exact hs
  | cons x rest =>
    rw [step_cons hq] at ht
    exact (runInput_served (hs.begin rest) ht).1

/-- Settles O19: `ServiceFrom` says what an enabled SERVICE does at least; a disabled one does nothing. -/
theorem serviceCompletes : Obligations.ServiceCompletes := by
  unfold Obligations.ServiceCompletes
  intro s hb
  by_cases hon : s.usbEn = true ∧ s.devState ≠ .detached
  · obtain ⟨t, ht, hserved, hidle⟩ := (serviceOp_taken s hb hon.1 hon.2).exists_next
    exact ⟨t, ht, hidle, fun _ _ => ⟨hserved.ir, hserved.tq⟩⟩
  · have hnext : (serviceOp s).toOutcome = .next s := by rw [serviceOp_disabled hb hon, Res.toOutcome_ok]
    exact ⟨s, hnext, hb, fun hu hd => absurd ⟨hu, hd⟩ hon⟩

/-- Settles O52: one equation per kind of element. -/
theorem stepRunsDecoded : Obligations.StepRunsDecoded := by
  unfold Obligations.StepRunsDecoded
  intro s rest o
  refine ⟨fun w i hq hb hd => ?_, fun r i hq hd => ?_, fun a v hq => ?_, step_nil⟩
  · rw [step_cons hq]
    exact runCommand_decoded (s := o) hb hd
  · rw [step_cons hq]
    exact runBus_decoded hd o
  · exact ⟨_, step_cons hq, rfl, Memory.read_write_same _ _ _ a.isLt, fun x hx => Memory.read_write_other _ _ _ _ hx⟩
end

section
/-! PROOFS. The encodings (R90 to R106): decoding undoes encoding and encoding undoes decoding; illegal command words
(R93, R96, R98); requests that are not standard (R104, R175, R263). -/

open Sys2Proof Sys2Proof.Machine

namespace Sys2Proof

/-! ### Command words -/

/-- The fields of a command word are decoded as they were written (R91). -/
theorem decode_ofFields (f : CmdFields) : decode (.ofFields f) = decodeFields f := by
  show decodeFields (CmdFields.unpack f.pack) = _
  rw [CmdFields.unpack_pack]

/-- A word without a bit outside its kept fields is accepted (R93). -/
theorem CmdFields.checked_of_eq {f kept : CmdFields} {i j : Instr} (hf : f = kept) (hi : i = j) :
    f.checked kept i = .ok j := by
  rw [CmdFields.checked, if_pos hf, hi]

/-- SET_STAGE's stage is the 3 low bits of `N1` (R92). -/
theorem extractLsb'_setWidth_stage (stage : BitVec 3) : (stage.setWidth 16).extractLsb' 0 3 = stage := by
  rw [BitVec.extractLsb'_setWidth_of_le (by decide), BitVec.extractLsb'_eq_self]

/-- What a decoded command word says of its fields: the operation is well-formed, bit 48 is 0 and the fields are those
that the encoder writes (R92, R93). -/
structure CmdFields.Encodes (f : CmdFields) (i : Instr) : Prop where
  wf : i.wf = true
  rsv : f.rsv = 0
  encode_eq : encode i = .ofFields f

theorem CmdFields.Encodes.of_checked {f kept : CmdFields} {i j : Instr} (h : f.checked kept i = .ok j)
    (hwf : i.wf = true) (hrsv : kept.rsv = 0) (henc : encode i = .ofFields kept) : f.Encodes j := by
  obtain ⟨rfl, rfl⟩ := CmdFields.checked_ok h
  exact ⟨hwf, hrsv, henc⟩

/-- Each opcode's operands are written where they were read (R92, R95). -/
theorem CmdFields.Encodes.of_decodeFields {f : CmdFields} {i : Instr} (h : decodeFields f = .ok i) : f.Encodes i := by
  unfold decodeFields at h
  split at h
  case h_17 => cases h
  all_goals
    next hopc =>
      obtain ⟨-, hopc⟩ := BitVec.toNat_eq_nat.mp hopc
      refine .of_checked h rfl rfl ?_
      simp [encode, CmdFields.only, hopc, ofBool_flag, Dir.bit_ofBit, Slot.bit_ofBit]

/-- The opcodes of the map of R95. -/
def commandOpcodes : List Nat :=
  [0x01, 0x02, 0x03, 0x04, 0x05, 0x06, 0x07, 0x08, 0x09, 0x0A, 0x0B, 0x0C, 0x10, 0x11, 0x12, 0x13]

/-- An opcode outside the map is reserved (R98). -/
theorem decodeFields_reserved {f : CmdFields} (h : f.opc.toNat ∉ commandOpcodes) :
    decodeFields f = .error .reservedOpcode := by
  unfold decodeFields
  split
  case h_17 => rfl
  all_goals
    next hopc => exact absurd (by rw [hopc]; decide) h

/-- A word that decodes has bit 48 clear (R93). -/
theorem bit48_of_decodeCmd {w : Word64} {i : Instr} (h : decodeCmd w = .ok i) : w.getLsbD 48 = false := by
  have hrsv : w.extractLsb' 48 1 = 0 := (CmdFields.Encodes.of_decodeFields h).rsv
  simpa using congrArg (BitVec.getLsbD · 0) hrsv

/-! ### Setup packets -/

/-- The fields of a setup packet are decoded as they were written (R100). -/
theorem decode_ofSetup (code t : Byte) (v i l : Half) :
    decode (.ofSetup code t v i l) = decodeSetup ⟨t, code, v, i, l⟩ := by
  show decodeSetup (SetupFields.unpack (SetupFields.pack _)) = _
  rw [SetupFields.unpack_pack]

/-- A setup packet that selects a standard request is of type standard, and is the encoding of that request (R102). -/
theorem encode_of_decodeSetup {f : SetupFields} {i : Instr} (h : decodeSetup f = .ok i) :
    i.wf = true ∧ encode i = .req f.pack := by
  obtain ⟨t, code, v, ix, l⟩ := f
  unfold decodeSetup at h
  split at h
  case isFalse => cases h
  case isTrue htype =>
    have hwf : standardType t = true := decide_eq_true htype
    split at h
    case h_12 => cases h
    all_goals
      next hcode =>
        obtain ⟨-, rfl⟩ := BitVec.toNat_eq_nat.mp hcode
        cases h
        exact ⟨hwf, rfl⟩

/-! ### Servicing selectors -/

/-- Each of the five selectors is the encoding of its arm (R105). -/
theorem encode_of_decodeEvt {ir : Byte} {i : Instr} (h : decodeEvt ir = .ok i) :
    i.wf = true ∧ encode i = .evt ir := by
  unfold decodeEvt at h
  split at h
  case h_6 => cases h
  all_goals
    next hir =>
      obtain ⟨-, rfl⟩ := BitVec.toNat_eq_nat.mp hir
      cases h
      exact ⟨rfl, rfl⟩

namespace Machine

/-- An illegal command word outside a SERVICE (R96, R98). -/
theorem runCommand_illegal {w : Word64} {e : Reject} {s : State} (hb : s.busy = false) (hd : decodeCmd w = .error e) :
    runCommand w s = .next ({ s with cmd := w }.faulted .badcmd) := by
  unfold runCommand
  simp [hb, hd]

/-! ### Requests that are not standard -/

theorem dispatch_notStandard {s : State} {e : Reject} (h : decodeReq s.setup = .error e) :
    dispatch s = classRequest s := by
  rw [dispatch, h]

/-- Without HOOK_REQ the request is unhandled (R104). -/
theorem classRequest_absent {s : State} (h : s.cfg.hooks.req = false) :
    classRequest s = .ok () (s.requestError .unhandled) := by
  rw [classRequest, h, if_neg Bool.false_ne_true, conclude_reject]

/-- HOOK_REQ answers without a command word: its verdict concludes the request (R175, R263). -/
theorem classRequest_silent {s : State} {h : Bool} {tape : List HookAnswer} (hreq : s.cfg.hooks.req = true)
    (htape : s.hookTape = ⟨h, []⟩ :: tape) :
    classRequest s = conclude .unhandled h
      { s with hookTape := tape, trace := s.trace ++ [TraceItem.hookReq s.setup h] } := by
  obtain ⟨t, hcall, -, hsilent⟩ := callHook_ok (.hookReq s.setup) s
  rw [htape] at hcall hsilent
  rw [classRequest, if_pos hreq, hcall, hsilent rfl]
  rfl

end Machine
end Sys2Proof

/-- Settles O1: per format, the fields read are the fields written; a command's must-be-zero check and a request's type
check pass. -/
theorem decodeEncode : Obligations.DecodeEncode := by
  unfold Obligations.DecodeEncode
  intro i hwf
  cases i with
  | init | service | shutdown | getState | getConfig | armEp0In | xferRom | xferRam =>
    exact (decode_ofFields _).trans (CmdFields.checked_of_eq rfl rfl)
  | setStage stage =>
    have hstage := extractLsb'_setWidth_stage stage
    exact (decode_ofFields _).trans (CmdFields.checked_of_eq (by rw [hstage]; rfl) (by rw [hstage]))
  | armEp | armStatus | stallEp | arm | armOut | armIn | clearStall =>
    exact (decode_ofFields _).trans
      (CmdFields.checked_of_eq rfl (by simp only [flag_ofBool, Dir.ofBit_bit, Slot.ofBit_bit]))
  | getStatus | clearFeature | setFeature | setAddress | getDescriptor | setDescriptor | getConfiguration
  | setConfiguration | getInterface | setInterface | synchFrame =>
    exact (decode_ofSetup _ _ _ _ _).trans (if_pos (of_decide_eq_true hwf))
  | svcRst | svcIdle | svcAct | svcSof | svcTrn => rfl
  | tokOut | tokIn | tokSetup | busReset | busIdle | busActivity | busSof => rfl

/-- Settles O2: the inversion lemma of each format, and the word is its own fields. -/
theorem encodeDecode : Obligations.EncodeDecode := by
  unfold Obligations.EncodeDecode
  refine ⟨fun w i h => ?_, fun sp i h => ?_, fun ir i h => encode_of_decodeEvt h⟩
  · obtain ⟨hwf, -, henc⟩ := CmdFields.Encodes.of_decodeFields h
    exact ⟨hwf, by rw [henc, Code.ofFields, CmdFields.pack_unpack]⟩
  · obtain ⟨hwf, henc⟩ := encode_of_decodeSetup h
    exact ⟨hwf, by rw [henc, SetupFields.pack_unpack]⟩

/-- Settles O4: a reserved opcode, bit 48 set, and an illegal word run. -/
theorem illegalWords : Obligations.IllegalWords := by
  unfold Obligations.IllegalWords
  refine ⟨fun w h => decodeFields_reserved h, fun w h48 => ?_, fun w e s hb hd => runCommand_illegal hb hd⟩
  cases hd : decodeCmd w with
  | error e => exact ⟨e, rfl⟩
  | ok i => exact absurd h48 (by rw [bit48_of_decodeCmd hd]; decide)

/-- Settles O34: HOOK_REQ absent, and HOOK_REQ silent with either verdict. -/
theorem classRequestRule : Obligations.ClassRequestRule := by
  unfold Obligations.ClassRequestRule
  intro s e ⟨hc, hstage, hown⟩ hd
  rw [dispatch_notStandard hd]
  constructor
  · intro hreq
    exact ⟨_, classRequest_absent hreq, s.requestError_from hc _⟩
  · intro h tape hreq htape c
    rw [classRequest_silent hreq htape]
    cases h with
    | false => exact ⟨_, conclude_reject _ c, fun _ => c.requestError_from hc _, fun hh => Bool.noConfusion hh⟩
    | true =>
      obtain ⟨t, ht, harmed⟩ := conclude_accept .unhandled c hc hstage hown
      exact ⟨t, ht, fun hh => Bool.noConfusion hh, fun _ => harmed⟩

/-- Settles O3: seven closed words, decoded. -/
theorem decodeSomeWords : Obligations.DecodeSomeWords := by
  unfold Obligations.DecodeSomeWords
  decide
end

section
/-! PROOFS. The buffer model: arming (R131), completion (R137), halting an endpoint and clearing it (R139, R141, R143). -/

open Sys2Proof Sys2Proof.Machine

namespace Sys2Proof.Machine

/-- An arming leaves every other descriptor as it was (R131). -/
theorem ArmedFrom.bd_other {s t : State} {keep toi : Bool} {ep ep' : BitVec 4} {dir dir' : Dir} {slot slot' : Slot}
    {tgl : Bool} {buf n : Half} (h : ArmedFrom s t keep toi ep dir slot tgl buf n)
    (hne : ¬ (ep' = ep ∧ dir' = dir ∧ slot' = slot)) : t.bd ep' dir' slot' = s.bd ep' dir' slot' := by
  obtain ⟨hframe, -, -, -, hkept⟩ := h
  have hapart := bdAddr_apart s.cfg hne
  exact State.bd_congr (by rw [hframe]) _ _ _ fun i hi => hkept _ (by omega)

/-- ON_COMPLETE rewrites one status record (R137). -/
theorem State.epsAt_onComplete (s : State) (ep ep' : BitVec 4) (dir dir' : Dir) (slot : Slot) :
    (onComplete ep dir slot s).2.epsAt ep' dir' = if ep' = ep ∧ dir' = dir then
      { s.epsAt ep dir with
        toggle := if (s.bd ep dir slot).keep then (s.epsAt ep dir).toggle else !(s.epsAt ep dir).toggle
        last := if pp s.cfg ep dir then slot else (s.epsAt ep dir).last }
      else s.epsAt ep' dir' :=
  State.epsAt_setEps s ep ep' dir dir' _

/-! ### CLEAR_STALL -/

/-- CLEAR_STALL returns every descriptor of the endpoint direction before it arms one again (R141). -/
theorem State.bd_clearHalt_mem {s : State} (hc : s.cfg.wf) {ep : BitVec 4} {dir : Dir} (he : ep.toNat < s.cfg.nep)
    {slot : Slot} (hs : slot ∈ slots s.cfg ep dir) :
    (s.clearHalt ep dir).bd ep dir slot = (s.bd ep dir slot).returned := by
  rw [State.bd_clearHalt s hc ep dir he, if_pos ⟨rfl, rfl, hs⟩]

/-- What every accepted CLEAR_STALL leaves, whether it arms again or not (R141): the endpoint's status cleared; every
other status, and every byte but the `STAT` bytes and the next-slot descriptor, as before; every slot but the next one
returned. -/
def ClearedFrom (s t : State) (ep : BitVec 4) (dir : Dir) : Prop :=
  t.epsAt ep dir = { s.epsAt ep dir with toggle := false, halt := false } ∧ OtherEps s t ep dir ∧
  (∀ x, (∀ slot ∈ slots s.cfg ep dir, x ≠ bdAddr s.cfg ep dir slot) →
    (x < bdAddr s.cfg ep dir (s.nextSlot ep dir) ∨ bdAddr s.cfg ep dir (s.nextSlot ep dir) + 4 ≤ x) →
    t.ram.read x = s.ram.read x) ∧
  ∀ slot ∈ slots s.cfg ep dir, slot ≠ s.nextSlot ep dir → t.bd ep dir slot = (s.bd ep dir slot).returned

theorem State.clearHalt_clearedFrom {s : State} (hc : s.cfg.wf) {ep : BitVec 4} {dir : Dir}
    (he : ep.toNat < s.cfg.nep) : ClearedFrom s (s.clearHalt ep dir) ep dir := by
  refine ⟨?_, fun ep' dir' h => ?_, fun x hx _ => State.read_clearHalt s ep dir x hx,
    fun slot hs _ => State.bd_clearHalt_mem hc he hs⟩
  · rw [State.epsAt_clearHalt, if_pos ⟨rfl, rfl⟩]
  · rw [State.epsAt_clearHalt, if_neg h]

/-- An arming of the next-slot descriptor with DATA0 keeps what the clearing before it has left (R141). -/
theorem ClearedFrom.armed {s u t : State} {ep : BitVec 4} {dir : Dir} {buf n : Half} (h : ClearedFrom s u ep dir)
    (hcfg : u.cfg = s.cfg) (ht : ArmedFrom u t false false ep dir (s.nextSlot ep dir) false buf n) :
    ClearedFrom s t ep dir := by
  obtain ⟨heps, hother, hread, hbd⟩ := h
  have hbd' := fun slot => ht.bd_other (ep' := ep) (dir' := dir) (slot' := slot)
  obtain ⟨-, -, heps', hother', hkept⟩ := ht
  refine ⟨?_, fun ep' dir' hne => ?_, fun x hx hout => ?_, fun slot hs hne => ?_⟩
  · rw [heps', heps]
  · rw [hother' ep' dir' hne, hother ep' dir' hne]
  · rw [hkept x (hcfg ▸ hout), hread x hx hout]
  · rw [hbd' slot fun h => hne h.2.2, hbd slot hs hne]

end Sys2Proof.Machine

/-- Settles O5: the three answers of `armOp`. -/
theorem armRule : Obligations.ArmRule := by
  unfold Obligations.ArmRule
  intro keep toi ep dir slot tgl buf cnt s hc
  exact armOp_outcome s hc keep toi ep dir slot tgl buf cnt

/-- Settles O24: ON_COMPLETE reads the count and writes one status record. -/
theorem completionBookkeeping : Obligations.CompletionBookkeeping := by
  unfold Obligations.CompletionBookkeeping
  intro ep dir slot s
  have hself := State.epsAt_onComplete s ep ep dir dir slot
  rw [if_pos ⟨rfl, rfl⟩] at hself
  refine ⟨rfl, rfl, fun ep' dir' h => ?_, by rw [hself], by rw [hself], by rw [hself]⟩
  rw [State.epsAt_onComplete, if_neg h]

/-- Settles O9: `stallOp` refuses an endpoint that does not exist, else it is `stallEndpoint`, whose effect is
`StalledFrom`. -/
theorem stallEpRule : Obligations.StallEpRule := by
  unfold Obligations.StallEpRule
  intro ep dir s hc
  show (_ → ∃ t, (stallOp ep dir s).toOutcome = .next t ∧ _) ∧ (_ → (stallOp ep dir s).toOutcome = _)
  rw [stallOp_eq]
  refine ⟨fun he => ?_, fun he => ?_⟩
  · rw [if_pos he]
    exact ⟨_, rfl, s.stallEndpoint_from hc ep dir he⟩
  · rw [if_neg (Nat.not_lt.mpr he)]
    rfl

/-- Settles O10: an endpoint that does not exist; a class OUT endpoint armed again; one whose buffer passes the top of
memory, cleared and then refused; any other, only cleared. -/
theorem clearStallRule : Obligations.ClearStallRule := by
  unfold Obligations.ClearStallRule
  intro ep dir s hc
  show (_ → (clearStallOp ep dir s).toOutcome = _) ∧ (_ → ∃ t, (clearStallOp ep dir s).toOutcome = .next t ∧ _)
  rw [clearStallOp_eq ep dir s hc]
  refine ⟨fun he => ?_, fun he => ?_⟩
  · rw [if_neg (Nat.not_lt.mpr he)]
    rfl
  have hcleared : ClearedFrom s (s.clearHalt ep dir) ep dir := State.clearHalt_clearedFrom hc he
  have hframe := s.clearHalt_eq ep dir
  have hcfg : (s.clearHalt ep dir).cfg = s.cfg := by rw [hframe]
  rw [if_pos he]
  dsimp only
  by_cases hclass : dir = .out ∧ ep ≠ 0
  · rw [if_pos hclass]
    by_cases hfits : (s.bd ep dir (s.nextSlot ep dir)).addr.toNat + mps s.cfg ep dir ≤ 0x10000
    · rw [if_pos hfits]
      have harmed := (s.clearHalt ep dir).armed_armedFrom (hcfg ▸ hc) false false ep dir (s.nextSlot ep dir) false
        (s.bd ep dir (s.nextSlot ep dir)).addr (.ofNat 16 (mps s.cfg ep dir)) (hcfg ▸ he)
      obtain ⟨heps, hother, hread, hbd⟩ := hcleared.armed hcfg harmed
      obtain ⟨hframe', hnext, -⟩ := harmed
      refine ⟨_, rfl, heps, hother, hread, fun slot hs => ⟨?_, fun hno => ?_⟩, fun h => ?_, fun _ => ?_⟩
      · rintro ⟨-, -, rfl, -⟩
        rw [hnext, BitVec.setWidth_ofNat_of_le (by decide)]
      · exact hbd slot hs fun heq => hno ⟨hclass.1, hclass.2, heq, heq ▸ hfits⟩
      · exact absurd hfits (Nat.not_le.mpr h.2.2)
      · rw [hframe', hframe]
    · rw [if_neg hfits]
      obtain ⟨heps, hother, hread, -⟩ := hcleared
      refine ⟨_, rfl, heps, hother, hread, fun slot hs => ⟨?_, fun _ => State.bd_clearHalt_mem hc he hs⟩, fun _ => ?_,
        fun h => ?_⟩
      · rintro ⟨-, -, rfl, h⟩
        exact absurd h hfits
      · rw [hframe]
        rfl
      · exact absurd ⟨hclass.1, hclass.2, Nat.not_le.mp hfits⟩ h
  · rw [if_neg hclass]
    obtain ⟨heps, hother, hread, -⟩ := hcleared
    exact ⟨_, rfl, heps, hother, hread,
      fun slot hs => ⟨fun h => absurd ⟨h.1, h.2.1⟩ hclass, fun _ => State.bd_clearHalt_mem hc he hs⟩,
      fun h => absurd ⟨h.1, h.2.1⟩ hclass, fun _ => hframe⟩

/-- Settles O11: STALL_EP's rule, then CLEAR_STALL's on the state it leaves. -/
theorem stallClearRoundTrip : Obligations.StallClearRoundTrip := by
  unfold Obligations.StallClearRoundTrip
  intro ep dir s hc he
  obtain ⟨t, ht, hframe, hstalled, -⟩ := (stallEpRule ep dir s hc).1 he
  have hcfg : t.cfg = s.cfg := by rw [hframe]
  obtain ⟨u, hu, hcleared, -⟩ := (clearStallRule ep dir t (hcfg ▸ hc)).2 (hcfg ▸ he)
  exact ⟨t, u, ht, hu, by rw [hstalled], by rw [hstalled], by rw [hcleared], by rw [hcleared]⟩
end

section
/-! PROOFS. Automatic arming: the slot it selects (R150), its four commands (R152 to R158), and ARM_STATUS (R160). -/

open Sys2Proof Sys2Proof.Machine

namespace Sys2Proof

theorem Slot.other_ne (slot : Slot) : slot.other ≠ slot := by
  cases slot <;> decide

namespace Machine

/-! ### `NextSlot` -/

theorem State.nextSlot_of_single {s : State} {ep : BitVec 4} {dir : Dir} (h : pp s.cfg ep dir = false) :
    s.nextSlot ep dir = .even :=
  if_neg (Bool.eq_false_iff.mp h)

theorem State.nextSlot_of_double {s : State} {ep : BitVec 4} {dir : Dir} (h : pp s.cfg ep dir = true) :
    s.nextSlot ep dir = (s.epsAt ep dir).last.other :=
  if_pos h

/-- Once the endpoint records are reset, `last` is ODD, so an automatic arming starts with EVEN (R49, R150). -/
theorem RestartedFrom.nextSlot_even {s t : State} (h : RestartedFrom s t) (ep : BitVec 4) (dir : Dir) :
    t.nextSlot ep dir = .even := by
  obtain ⟨-, heps, -⟩ := h
  cases hpp : pp t.cfg ep dir with
  | false => exact State.nextSlot_of_single hpp
  | true => rw [State.nextSlot_of_double hpp, heps]; rfl

/-- ENG's pointers are reset to EVEN, where it starts (R42, R49). -/
theorem RestartedFrom.engSlot_even {s t : State} (h : RestartedFrom s t) (ep : BitVec 4) (dir : Dir) :
    t.engSlot ep dir = .even := by
  obtain ⟨-, -, hbit⟩ := h
  rw [State.engSlot, hbit, ite_self]

/-! ### The automatic arming -/

/-- What ARM_EP answers for either direction; ARM_OUT, ARM_IN and ARM_EP0_IN are cases of it (R156). -/
theorem armEpOp_outcome {s : State} (hc : s.cfg.wf) (keep toi : Bool) (ep : BitVec 4) (dir : Dir) (buf n : Half) :
    ArmOutcome s (armEpOp keep toi ep dir buf n s).toOutcome keep toi ep dir (s.nextSlot ep dir)
      (s.epsAt ep dir).toggle buf n := by
  rw [armEpOp_eq]
  exact armOp_outcome s hc keep toi ep dir _ _ buf n

/-! ### ARM_STATUS -/

/-- A free EP0 IN is armed with a zero-length DATA1 packet (R160, R161). -/
theorem armStatusOp_inn_free {s : State} (hc : s.cfg.wf) (ho : (s.bd 0 .inn (s.nextSlot 0 .inn)).own = false) :
    ∃ t, armStatusOp .inn s = .ok () t ∧
      ArmedFrom s t false false 0 .inn (s.nextSlot 0 .inn) true s.cfg.ep0Buf 0 := by
  have harmed := (s.setToggle 0 .inn true).armed_armedFrom hc false false 0 .inn (s.nextSlot 0 .inn) true
    s.cfg.ep0Buf 0 (Params.wf_nep_pos hc)
  rw [armStatusOp_inn s hc, ho]
  exact ⟨_, rfl, harmed.of_setToggle⟩

/-- A hardware-owned EP0 IN is refused after the toggle write (R160). -/
theorem armStatusOp_inn_owned {s : State} (hc : s.cfg.wf) (ho : (s.bd 0 .inn (s.nextSlot 0 .inn)).own = true) :
    armStatusOp .inn s = .raised ((s.setToggle 0 .inn true).faulted .darm) := by
  rw [armStatusOp_inn s hc, ho, if_pos rfl]

end Machine
end Sys2Proof

/-- Settles O6: each of the four commands is ARM_EP at a fixed direction, buffer or endpoint. -/
theorem automaticArming : Obligations.AutomaticArming := by
  unfold Obligations.AutomaticArming
  intro s hc
  have key := armEpOp_outcome hc
  exact ⟨fun keep toi ep buf n => key keep toi ep .out buf n, fun keep toi ep buf n => key keep toi ep .inn buf n,
    fun keep toi ep dir buf n => key keep toi ep dir buf n, fun n => key false false 0 .inn s.cfg.ep0Buf n⟩

/-- Settles O8: EP0 IN free, EP0 IN hardware-owned, and direction OUT, which is `Ep0OutRearm`. -/
theorem armStatusRule : Obligations.ArmStatusRule := by
  unfold Obligations.ArmStatusRule
  intro s hc
  refine ⟨fun ho => ?_, fun ho => ?_, ?_⟩
  · obtain ⟨t, ht, harmed⟩ := armStatusOp_inn_free hc ho
    exact ⟨t, congrArg Res.toOutcome ht, harmed⟩
  · exact congrArg Res.toOutcome (armStatusOp_inn_owned hc ho)
  · obtain ⟨t, ht, hrearmed⟩ := ep0OutRearm_ok true s hc
    exact ⟨t, congrArg Res.toOutcome ht, hrearmed⟩

/-- Settles O7: the two branches of `NextSlot`, and the slots that a restart leaves. -/
theorem nextSlotRule : Obligations.NextSlotRule := by
  unfold Obligations.NextSlotRule
  intro s ep dir
  refine ⟨State.nextSlot_of_single, fun hpp => ?_, fun t ht => ⟨ht.nextSlot_even ep dir, ht.engSlot_even ep dir⟩⟩
  rw [State.nextSlot_of_double hpp]
  exact Slot.other_ne _
end

section
/-! PROOFS. The data stage to the host and the stage command: XFER (R176, R177), the packets of a data stage (R179),
SET_STAGE (R184). -/

open Sys2Proof Sys2Proof.Machine

namespace Sys2Proof.Machine

/-! ### XFER -/

theorem exec_xferInstr (kind : Kind) (src avail req : Half) (s : State) :
    exec (xferInstr kind src avail req) s = (xferOp kind src avail req s).toOutcome := by
  cases kind <;> rfl

/-- An XFER that meets a hardware-owned EP0 IN has done everything but the arming (R176, R133). -/
theorem State.xferStaged_faulted (s : State) (hc : s.cfg.wf) (kind : Kind) (src avail req : Half)
    (hr : min avail.toNat req.toNat = 0 ∨ src.toNat + min avail.toNat req.toNat ≤ 0x10000) :
    let k := min (min avail.toNat req.toNat) (mps0 s.cfg)
    let t := ((s.xferStart kind src avail req).staged k).faulted .darm
    t = { s with
      ram := t.ram, eps := t.eps, ctx := xferCtx s kind src avail req
      fault := { s.fault with darm := true }, resp := 0xFFFF } ∧
    t.epsAt 0 .inn = { s.epsAt 0 .inn with toggle := true } ∧ OtherEps s t 0 .inn ∧
    StagedFrom s t kind src.toNat k ∧ KeptOutside s t s.cfg.ep0Buf.toNat k := by
  intro k t
  obtain ⟨-, hctx, hdraws⟩ := State.xferStart_from s hc kind src avail req hr
  have heps : ∀ ep dir, t.epsAt ep dir = (s.setToggle 0 .inn true).epsAt ep dir := fun ep dir => rfl
  refine ⟨?_, ?_, fun ep dir h => ?_, (s.xferStart kind src avail req).staged_stagedFrom hc k (Nat.min_le_right _ _),
    (s.xferStart kind src avail req).staged_keptOutside k⟩
  · calc t = { s with
          ram := t.ram, eps := t.eps, ctx := t.ctx, draws := t.draws
          fault := { s.fault with darm := true }, resp := 0xFFFF } := rfl
      _ = _ := by rw [show t.ctx = _ from hctx, show t.draws = _ from hdraws]
  · rw [heps, State.epsAt_setToggle, if_pos ⟨rfl, rfl⟩]
  · rw [heps, State.epsAt_setToggle, if_neg h]

/-- An XFER that is not refused is the first step of the data stage it sets up (R176). -/
theorem xferOp_eq_ctInStep {s : State} {kind : Kind} {src avail req : Half} (hst : s.ctx.stage = .setup)
    (hr : min avail.toNat req.toNat = 0 ∨ src.toNat + min avail.toNat req.toNat ≤ 0x10000) :
    xferOp kind src avail req s = ctInStep (s.xferStart kind src avail req) := by
  unfold xferOp
  rw [if_neg (by simpa using hst), if_neg (by simpa using (fits_iff _ _).mpr hr)]
  rfl

theorem State.remaining_xferStart (s : State) (kind : Kind) (src avail req : Half) :
    (s.xferStart kind src avail req).ctx.remaining.toNat = min avail.toNat req.toNat := by
  show (BitVec.ofNat 16 (min avail.toNat req.toNat)).toNat = _
  rw [BitVec.toNat_ofNat, Nat.mod_eq_of_lt (by omega)]

theorem State.nextSlot_xferStart (s : State) (kind : Kind) (src avail req : Half) (ep : BitVec 4) (dir : Dir) :
    (s.xferStart kind src avail req).nextSlot ep dir = s.nextSlot ep dir :=
  State.nextSlot_setToggle _ _ _ _ _ _

/-! ### The packets of a data stage -/

theorem Params.wf_mps0_pos {c : Params} (h : c.wf) : 0 < mps0 c := (Params.wf_mps_le h 0 .out).1

/-- How many packets carry `n` bytes in packets of at most `m`: one more when a zero-length packet is owed (R179). -/
def packetCount (m n : Nat) (owed : Bool) : Nat := if owed then n / m + 1 else (n + m - 1) / m

theorem packetCount_none {m : Nat} (hm : 0 < m) : packetCount m 0 false = 0 :=
  Nat.div_eq_of_lt (by omega)

/-- One packet less: what is owed stays owed after a full packet only (R178). -/
theorem packetCount_step {m n : Nat} {owed : Bool} (hm : 0 < m) (h : ¬ (n = 0 ∧ owed = false)) :
    packetCount m n owed = packetCount m (n - min n m) (owed && decide (min n m = m)) + 1 := by
  by_cases hfull : m ≤ n
  · rw [Nat.min_eq_right hfull, decide_eq_true rfl, Bool.and_true]
    cases owed with
    | true => exact congrArg (· + 1) (Nat.div_eq_sub_div hm hfull)
    | false =>
      show (n + m - 1) / m = (n - m + m - 1) / m + 1
      rw [Nat.div_eq_sub_div hm (by omega), show n + m - 1 - m = n - m + m - 1 by omega]
  · rw [Nat.min_eq_left (by omega), decide_eq_false (show n ≠ m by omega), Bool.and_false, Nat.sub_self,
      packetCount_none hm]
    cases owed with
    | true => exact congrArg (· + 1) (Nat.div_eq_of_lt (by omega))
    | false =>
      have hn : n ≠ 0 := fun h0 => h ⟨h0, rfl⟩
      show (n + m - 1) / m = 0 + 1
      rw [Nat.div_eq_sub_div hm (by omega), Nat.div_eq_of_lt (by omega)]

/-- The three cases of R179. -/
theorem packetCount_owesZlp (m n req : Nat) :
    packetCount m n (owesZlp n req m) =
      if n = 0 then 1 else if n % m = 0 ∧ n < req then n / m + 1 else (n + m - 1) / m := by
  by_cases hn : n = 0
  · simp [packetCount, owesZlp, hn]
  · simp [packetCount, owesZlp, hn]

/-- At most one packet is not full. -/
theorem packetCount_le (m n : Nat) (hm : 0 < m) (owed : Bool) : packetCount m n owed ≤ n / m + 1 := by
  cases owed with
  | true => exact Nat.le_refl _
  | false =>
    calc (n + m - 1) / m ≤ (n + m) / m := Nat.div_le_div_right (by omega)
      _ = n / m + 1 := Nat.add_div_right n hm

/-- `ks` are the byte counts of the packets that carry `n` bytes, at most `m` each (R179). -/
def Packets (m n : Nat) (owed : Bool) (ks : List Nat) : Prop :=
  ks.length = packetCount m n owed ∧ ks.sum = n ∧ ∀ k ∈ ks, k ≤ m

theorem Packets.nil {m : Nat} (hm : 0 < m) : Packets m 0 false [] :=
  ⟨(packetCount_none hm).symm, rfl, by simp⟩

theorem Packets.cons {m n : Nat} {owed : Bool} {ks : List Nat} (hm : 0 < m) (h : ¬ (n = 0 ∧ owed = false))
    (hks : Packets m (n - min n m) (owed && decide (min n m = m)) ks) : Packets m n owed (min n m :: ks) := by
  obtain ⟨hlen, hsum, hle⟩ := hks
  refine ⟨?_, ?_, fun k hk => ?_⟩
  · rw [List.length_cons, hlen, packetCount_step hm h]
  · rw [List.sum_cons, hsum]
    omega
  · rcases List.mem_cons.mp hk with rfl | hk
    · exact Nat.min_le_right _ _
    · exact hle k hk

theorem dataPackets_nil {t : State} (h : t.ctx.stage ≠ .dataIn) (fuel : Nat) : dataPackets fuel t = [] := by
  cases fuel with
  | zero => rfl
  | succ fuel => rw [dataPackets, if_neg h]

theorem dataPackets_cons {t v : State} (h : t.ctx.stage = .dataIn)
    (hv : ctInStep (t.overSlots 0 .inn Bd.disowned) = .ok () v) (fuel : Nat) :
    dataPackets (fuel + 1) t = (t.bd 0 .inn (t.nextSlot 0 .inn)).cnt.toNat :: dataPackets fuel v := by
  rw [dataPackets, if_pos h, hv]

/-- The slot that the sequencer will arm next is free once its completion is served. -/
theorem State.own_disowned {s : State} (hc : s.cfg.wf) :
    let u := s.overSlots 0 .inn Bd.disowned
    (u.bd 0 .inn (u.nextSlot 0 .inn)).own = false := by
  intro u
  have hmem : u.nextSlot 0 .inn ∈ slots u.cfg 0 .inn := u.nextSlot_mem 0 .inn
  rw [show u.cfg = s.cfg by simp [u]] at hmem
  rw [State.bd_overSlots s hc 0 .inn _ keepsBuffer_disowned (Params.wf_nep_pos hc), if_pos ⟨rfl, rfl, hmem⟩]
  rfl

/-- The last step of a data stage arms no packet of it (R178). -/
theorem dataPackets_done (fuel : Nat) {s : State} (hc : s.cfg.wf)
    (h : s.ctx.remaining.toNat = 0 ∧ s.ctx.zlp = false) :
    ∃ t, ctInStep s = .ok () t ∧ Packets (mps0 s.cfg) s.ctx.remaining.toNat s.ctx.zlp (dataPackets fuel t) := by
  obtain ⟨hn, hz⟩ := h
  obtain ⟨t, ht, hrearmed⟩ := ep0OutRearm_ok true { s with ctx := { s.ctx with stage := .statusOut } } hc
  refine ⟨t, (ctInStep_done s ⟨BitVec.eq_of_toNat_eq hn, hz⟩).trans ht, ?_⟩
  rw [dataPackets_nil (by rw [hrearmed.frame]; simp), hn, hz]
  exact .nil (Params.wf_mps0_pos hc)

/-- An arming writes the toggle of a record only, so the next slot is as before (R131, R150). -/
theorem State.nextSlot_armed (s : State) (keep toi : Bool) (ep : BitVec 4) (dir : Dir) (slot : Slot) (tgl : Bool)
    (buf n : Half) (ep' : BitVec 4) (dir' : Dir) :
    (s.armed keep toi ep dir slot tgl buf n).nextSlot ep' dir' = s.nextSlot ep' dir' :=
  State.nextSlot_setToggle _ _ _ _ _ _

/-- One more packet of a data stage: it is armed, and what is left is the context's to say (R178). -/
theorem ctInStep_packet {s : State} (hc : s.cfg.wf) (hst : s.ctx.stage = .dataIn)
    (ho : (s.bd 0 .inn (s.nextSlot 0 .inn)).own = false)
    (hmore : ¬ (s.ctx.remaining.toNat = 0 ∧ s.ctx.zlp = false)) :
    let n := s.ctx.remaining.toNat
    let k := min n (mps0 s.cfg)
    ∃ t, ctInStep s = .ok () t ∧ t.cfg = s.cfg ∧ t.ctx.stage = .dataIn ∧
      (t.bd 0 .inn (t.nextSlot 0 .inn)).cnt.toNat = k ∧
      t.ctx.remaining.toNat = n - k ∧ t.ctx.zlp = (s.ctx.zlp && decide (k = mps0 s.cfg)) := by
  intro n k
  have hlt := s.ctx.remaining.isLt
  have hk : k ≤ 64 := (Nat.min_le_right _ _).trans (Params.wf_mps_le hc 0 .out).2
  have hchunk := ctInStep_chunk s hc fun h => hmore ⟨by rw [h.1]; rfl, h.2⟩
  have hctx := s.staged_ctx k (Nat.min_le_left _ _) (Nat.min_le_right _ _)
  obtain ⟨-, -, hbd, -⟩ := s.staged_armed_from hc k (Nat.min_le_right _ _) (s.epsAt 0 .inn).toggle
  rw [ho] at hchunk
  refine ⟨_, hchunk, rfl, ?_, ?_, ?_, ?_⟩
  · exact (congrArg Ctx.stage hctx).trans hst
  · rw [State.nextSlot_armed, State.nextSlot_staged, hbd, BitVec.toNat_ofNat, Nat.mod_eq_of_lt (by omega)]
  · refine (congrArg (fun c => c.remaining.toNat) hctx).trans ?_
    rw [BitVec.toNat_ofNat, Nat.mod_eq_of_lt (by omega)]
  · exact congrArg Ctx.zlp hctx

/-- Each step of a data stage arms one packet, until nothing remains and none is owed (R178, R179). -/
theorem dataPackets_ctInStep (fuel : Nat) (s : State) (hc : s.cfg.wf) (hst : s.ctx.stage = .dataIn)
    (ho : (s.bd 0 .inn (s.nextSlot 0 .inn)).own = false)
    (hf : packetCount (mps0 s.cfg) s.ctx.remaining.toNat s.ctx.zlp ≤ fuel) :
    ∃ t, ctInStep s = .ok () t ∧ Packets (mps0 s.cfg) s.ctx.remaining.toNat s.ctx.zlp (dataPackets fuel t) := by
  induction fuel generalizing s with
  | zero =>
    refine dataPackets_done 0 hc (by_contra fun hmore => ?_)
    have := packetCount_step (Params.wf_mps0_pos hc) hmore
    omega
  | succ fuel ih =>
    by_cases hmore : s.ctx.remaining.toNat = 0 ∧ s.ctx.zlp = false
    · exact dataPackets_done (fuel + 1) hc hmore
    have hstep := packetCount_step (Params.wf_mps0_pos hc) hmore
    obtain ⟨t, ht, hcfg, hstage, hcnt, hrem, hzlp⟩ := ctInStep_packet hc hst ho hmore
    have hframe := t.overSlots_eq 0 .inn Bd.disowned
    have hucfg : (t.overSlots 0 .inn Bd.disowned).cfg = s.cfg := by rw [hframe, hcfg]
    have huctx : (t.overSlots 0 .inn Bd.disowned).ctx = t.ctx := by rw [hframe]
    obtain ⟨v, hv, hpackets⟩ := ih (t.overSlots 0 .inn Bd.disowned) (hucfg ▸ hc) (huctx ▸ hstage)
      (State.own_disowned (hcfg ▸ hc)) (by rw [hucfg, huctx, hrem, hzlp]; omega)
    rw [hucfg, huctx, hrem, hzlp] at hpackets
    exact ⟨t, ht, by rw [dataPackets_cons hstage hv, hcnt]; exact .cons (Params.wf_mps0_pos hc) hmore hpackets⟩

/-! ### SET_STAGE -/

/-- The six stages have the six lowest encodings (R37). -/
theorem Stage.exists_bits {b : BitVec 3} (h : b.toNat ≤ 5) : ∃ st : Stage, st.bits = b := by
  have key : ∀ b : BitVec 3, b.toNat ≤ 5 →
      ∃ st ∈ [Stage.idle, .setup, .dataIn, .dataOut, .statusIn, .statusOut], st.bits = b := by decide
  obtain ⟨st, -, hst⟩ := key b h
  exact ⟨st, hst⟩

theorem Stage.ofBits_reserved : ∀ {b : BitVec 3}, 5 < b.toNat → Stage.ofBits b = none := by
  decide

theorem Stage.bits_eq_three_iff (st : Stage) : st.bits.toNat = 3 ↔ st = .dataOut := by
  cases st <;> decide

theorem setStageOp_reserved {stage : BitVec 3} (h : 5 < stage.toNat) (dst count : Half) (s : State) :
    setStageOp stage dst count s = .raised (s.faulted .badparam) := by
  rw [setStageOp, Stage.ofBits_reserved h]
  rfl

theorem setStageOp_plain {st : Stage} (h : st ≠ .dataOut) (dst count : Half) (s : State) :
    setStageOp st.bits dst count s = .ok () { s with ctx := { s.ctx with stage := st } } := by
  cases st with
  | dataOut => exact absurd rfl h
  | idle | setup | dataIn | statusIn | statusOut => rfl

theorem setStageOp_dataOut (dst count : Half) (s : State) :
    setStageOp Stage.dataOut.bits dst count s =
      if count.toNat = 0 ∨ 0x10000 < dst.toNat + count.toNat then .raised (s.faulted .badparam)
      else .ok () { s with
        ctx := { s.ctx with stage := .dataOut, dst := dst, remaining := count, zlp := false } } := by
  show (if (count = 0 || !fits dst.toNat count.toNat) = true then _ else _) = _
  have hz : count = 0 ↔ count.toNat = 0 := BitVec.toNat_inj.symm
  have hfits := fits_iff dst.toNat count.toNat
  refine if_congr ?_ rfl rfl
  rw [Bool.or_eq_true, decide_eq_true_iff, hz, Bool.not_eq_true', ← Bool.not_eq_true, hfits]
  omega

end Sys2Proof.Machine

/-- Settles O12: refused, taken with EP0 IN free, taken with EP0 IN hardware-owned. -/
theorem xferRule : Obligations.XferRule := by
  unfold Obligations.XferRule
  intro kind src avail req s hc run inRange
  have hrun : run = (xferOp kind src avail req s).toOutcome := exec_xferInstr kind src avail req s
  rw [hrun]
  refine ⟨fun h => congrArg Res.toOutcome (xferOp_refused s kind src avail req h), fun hst hr ho => ?_,
    fun hst hr ho => ?_⟩
  · rw [xferOp_taken s hc kind src avail req hst hr, ho]
    exact ⟨_, rfl, State.xferStart_from s hc kind src avail req hr⟩
  · rw [xferOp_taken s hc kind src avail req hst hr, ho]
    exact ⟨_, rfl, State.xferStaged_faulted s hc kind src avail req hr⟩

/-- Settles O13: an XFER without a fault is the first step of its data stage, and each step arms one packet. -/
theorem transactionCount : Obligations.TransactionCount := by
  unfold Obligations.TransactionCount
  intro kind src avail req s t ⟨hc, hst, ho⟩ hrun hfault hbad n fuel hfuel
  have hm : 0 < mps0 s.cfg := Params.wf_mps0_pos hc
  rw [exec_xferInstr] at hrun
  have hr : n = 0 ∨ src.toNat + n ≤ 0x10000 := by
    by_contra hr
    rw [xferOp_refused s kind src avail req (.inr hr)] at hrun
    cases hrun
    exact Bool.noConfusion (hbad.symm.trans (congrArg FaultBits.badparam hfault).symm)
  have hrem := s.remaining_xferStart kind src avail req
  obtain ⟨t', ht', hlen, hsum, hle⟩ := dataPackets_ctInStep fuel (s.xferStart kind src avail req) hc rfl
    (by rw [State.nextSlot_xferStart]; exact ho)
    ((packetCount_le _ _ hm _).trans (hrem ▸ Nat.le_of_succ_le hfuel))
  rw [xferOp_eq_ctInStep hst hr, ht'] at hrun
  cases hrun
  refine ⟨?_, hsum.trans hrem, hle⟩
  rw [hlen, hrem]
  exact packetCount_owesZlp (mps0 s.cfg) n req.toNat

/-- Settles O14: the two encodings of no stage, DATA_OUT, and the five stages that take no operand. -/
theorem setStageRule : Obligations.SetStageRule := by
  unfold Obligations.SetStageRule
  intro stage dst count s fails
  show (_ → (setStageOp stage dst count s).toOutcome = _) ∧
    (_ → ∃ st : Stage, _ ∧ (setStageOp stage dst count s).toOutcome = _)
  by_cases h5 : 5 < stage.toNat
  · rw [setStageOp_reserved h5]
    exact ⟨fun _ => rfl, fun h => absurd (.inl h5) h⟩
  obtain ⟨st, rfl⟩ := Stage.exists_bits (Nat.not_lt.mp h5)
  by_cases hst : st = .dataOut
  · subst hst
    rw [setStageOp_dataOut]
    have hfails : fails ↔ count.toNat = 0 ∨ 0x10000 < dst.toNat + count.toNat :=
      ⟨fun h => (h.resolve_left h5).2, fun h => .inr ⟨rfl, h⟩⟩
    exact ⟨fun h => by rw [if_pos (hfails.mp h)]; rfl,
      fun h => ⟨.dataOut, rfl, by rw [if_neg (mt hfails.mpr h), if_pos rfl]; rfl⟩⟩
  · rw [setStageOp_plain hst]
    have h3 : st.bits.toNat ≠ 3 := mt st.bits_eq_three_iff.mp hst
    exact ⟨fun h => absurd h (by omega), fun _ => ⟨st, rfl, by rw [if_neg hst]; rfl⟩⟩
end

section
/-! PROOFS. EP0 completions other than SETUP: the stage table (R172), the status stage (R182) and the two data entries
(R178, R180). -/

open Sys2Proof Sys2Proof.Machine

namespace Sys2Proof.Machine

/-- The early status (R172): EP0 IN reclaimed, the context destroyed, EP0 OUT armed again. -/
theorem earlyStatus_from {s : State} (hc : s.cfg.wf) :
    ∃ v t, earlyStatus s = .ok () t ∧ RearmedFrom v t false ∧
      v = { s with ram := v.ram, ctx := ⟨.idle, 0, 0, .rom, false, 0⟩ } ∧
      (∀ slot ∈ slots s.cfg 0 .inn, v.bd 0 .inn slot = { s.bd 0 .inn slot with own := false }) ∧
      ∀ x, (∀ slot ∈ slots s.cfg 0 .inn, x ≠ bdAddr s.cfg 0 .inn slot) → v.ram.read x = s.ram.read x := by
  have hframe := s.overSlots_eq 0 .inn Bd.disowned
  obtain ⟨t, ht, hrearmed⟩ := ep0OutRearm_ok false (s.overSlots 0 .inn Bd.disowned).destroyCtx
    (show (s.overSlots 0 .inn Bd.disowned).cfg.wf by rw [hframe]; exact hc)
  refine ⟨_, t, ht, hrearmed, ?_, fun slot hs => ?_, fun x hx => s.read_overSlots 0 .inn Bd.disowned x hx⟩
  · rw [hframe]
    rfl
  · rw [State.bd_destroyCtx, State.bd_overSlots s hc 0 .inn _ keepsBuffer_disowned (Params.wf_nep_pos hc),
      if_pos ⟨rfl, rfl, hs⟩]
    rfl

/-- The end of a control transfer (R182): a pending address takes effect, the context is destroyed. -/
theorem State.statusDone_eq (s : State) :
    s.statusDone = { s with
      ctx := ⟨.idle, 0, 0, .rom, false, 0⟩
      devAddr := if s.addrPending then s.newAddr else s.devAddr
      devState := if s.addrPending then (if s.newAddr = 0 then .default else .address) else s.devState
      addrPending := false } := by
  unfold State.statusDone
  cases hp : s.addrPending with
  | false =>
    have hs : s = { s with addrPending := false } := by rw [← hp]
    rw [if_neg (by simp), if_neg (by simp), if_neg (by simp)]
    exact congrArg State.destroyCtx hs
  | true =>
    rw [if_pos rfl, if_pos rfl, if_pos rfl, ite_not]
    rfl

/-! ### The data stage from the host -/

theorem State.consumed_ctx {s : State} {count : BitVec 10} (h : count.toNat ≤ s.ctx.remaining.toNat) :
    (s.consumed count).ctx = { s.ctx with
      dst := .ofNat 16 (s.ctx.dst.toNat + count.toNat)
      remaining := .ofNat 16 (s.ctx.remaining.toNat - count.toNat) } := by
  have hcount : count.setWidth 16 = .ofNat 16 count.toNat := (BitVec.ofNat_toNat 16 count).symm
  rw [← half_add_ofNat, ← half_sub_ofNat _ _ h, ← hcount]
  rfl

/-- The copied bytes of a received chunk (R180, R67, log 11). -/
theorem State.read_consumed (s : State) (count : BitVec 10) {i : Nat} (hi : i < count.toNat)
    (hd : s.ctx.dst.toNat + i < 0x10000) :
    (s.consumed count).ram.read (s.ctx.dst.toNat + i) =
      if 0x10000 ≤ s.cfg.ep0Buf.toNat + i then freeByte s.draws (s.cfg.ep0Buf.toNat + i)
      else if s.ctx.dst.toNat ≤ s.cfg.ep0Buf.toNat + i ∧ s.cfg.ep0Buf.toNat + i < s.ctx.dst.toNat + i
      then (s.consumed count).ram.read (s.cfg.ep0Buf.toNat + i) else s.ram.read (s.cfg.ep0Buf.toNat + i) := by
  refine (read_copyBytes s.rom .ram s.draws count.toNat s.cfg.ep0Buf.toNat s.ctx.dst.toNat s.ram i hi hd).trans ?_
  simp only [true_and, srcByte]
  by_cases hsrc : 0x10000 ≤ s.cfg.ep0Buf.toNat + i
  · rw [if_neg (by omega), if_pos hsrc, Memory.fetch_of_le hsrc]
  · rw [if_neg hsrc, Memory.fetch_of_lt (Nat.not_le.mp hsrc)]
    rfl

/-- Nothing but the destination is written (R180). -/
theorem State.consumed_keptOutside (s : State) (count : BitVec 10) :
    KeptOutside s (s.consumed count) s.ctx.dst.toNat count.toNat := fun x hx =>
  read_copyBytes_outside _ _ _ _ _ _ _ x hx

theorem State.remaining_consumed {s : State} {count : BitVec 10} (h : count.toNat ≤ s.ctx.remaining.toNat) :
    (s.consumed count).ctx.remaining = 0 ↔ count.toNat = s.ctx.remaining.toNat := by
  have hlt := s.ctx.remaining.isLt
  rw [State.consumed_ctx h, ← BitVec.toNat_inj, BitVec.toNat_ofNat, Nat.mod_eq_of_lt (by omega)]
  show _ = 0 ↔ _
  omega

/-- A chunk longer than what is declared is a request error (R180, R302). -/
theorem ctOutData_overrun {s : State} (hc : s.cfg.wf) {count : BitVec 10} (h : s.ctx.remaining.toNat < count.toNat) :
    ∃ v t, ctOutData count s = .ok () t ∧ RequestErrorFrom s v .overrun ∧ RearmedFrom v t false := by
  obtain ⟨t, ht, hrearmed⟩ := ep0OutRearm_ok false (s.requestError .overrun) (by simpa using hc)
  exact ⟨_, t, (if_pos h).trans ht, s.requestError_from hc .overrun, hrearmed⟩

/-- A chunk within what is declared is consumed, and the last one is followed by the status stage (R180). -/
theorem ctOutData_consumed {s : State} {count : BitVec 10} (h : count.toNat ≤ s.ctx.remaining.toNat) :
    ctOutData count s =
      (if count.toNat = s.ctx.remaining.toNat then
        (armStatusOp .inn (s.consumed count)).bind fun _ s => .ok () { s with ctx := { s.ctx with stage := .statusIn } }
      else .ok () (s.consumed count)).bind fun _ s => ep0OutRearm false s := by
  unfold ctOutData
  rw [if_neg (Nat.not_lt.mpr h)]
  exact congrArg (Res.bind · _) (if_congr (State.remaining_consumed h) rfl rfl)

theorem ctOutData_more {s : State} (hc : s.cfg.wf) {count : BitVec 10} (h : count.toNat < s.ctx.remaining.toNat) :
    ∃ t, ctOutData count s = .ok () t ∧ RearmedFrom (s.consumed count) t false := by
  rw [ctOutData_consumed h.le, if_neg h.ne]
  exact ep0OutRearm_ok false (s.consumed count) hc

theorem ctOutData_last_free {s : State} (hc : s.cfg.wf) {count : BitVec 10} (h : count.toNat = s.ctx.remaining.toNat)
    (ho : ((s.consumed count).bd 0 .inn ((s.consumed count).nextSlot 0 .inn)).own = false) :
    ∃ w t, ctOutData count s = .ok () t ∧ StatusArmedFrom (s.consumed count) w ∧ RearmedFrom w t false := by
  obtain ⟨w, hw, hstatus⟩ := armStatus_from (s.consumed count) hc ho
  obtain ⟨t, ht, hrearmed⟩ := ep0OutRearm_ok false w (by rw [hstatus.1]; exact hc)
  rw [ctOutData_consumed h.le, if_pos h, hw]
  exact ⟨w, t, ht, hstatus, hrearmed⟩

theorem ctOutData_last_owned {s : State} (hc : s.cfg.wf) {count : BitVec 10} (h : count.toNat = s.ctx.remaining.toNat)
    (ho : ((s.consumed count).bd 0 .inn ((s.consumed count).nextSlot 0 .inn)).own = true) :
    ctOutData count s = .raised (((s.consumed count).setToggle 0 .inn true).faulted .darm) := by
  rw [ctOutData_consumed h.le, if_pos h, armStatusOp_inn_owned (s := s.consumed count) hc ho]
  rfl

end Sys2Proof.Machine

/-- Settles O27: each entry of the table is one arm of `CtEvent`. -/
theorem stageTable : Obligations.StageTable := by
  unfold Obligations.StageTable
  intro r rest s hc hq h0 hr hh u
  have key := svcTrnOp_ep0 s r rest hq h0 hr hh u rfl
  refine ⟨fun hd hst => ?_, fun hd hst => ?_, fun hd hst => ?_, fun hd hst => ?_⟩ <;> rw [hd] at key
  · rcases hst with h | h | h | h <;> rw [h] at key <;> exact congrArg Res.toOutcome key
  · obtain ⟨t, ht, hrearmed⟩ := ep0OutRearm_ok false u hc
    rcases hst with h | h | h <;> rw [h] at key <;>
      exact ⟨t, congrArg Res.toOutcome (key.trans ht), hrearmed⟩
  · obtain ⟨t, ht, hrearmed⟩ := ep0OutRearm_ok false u.destroyCtx hc
    rw [hst] at key
    exact ⟨t, congrArg Res.toOutcome (key.trans ht), hrearmed⟩
  · obtain ⟨v, t, ht, hrearmed, hframe, hbd, hread⟩ := earlyStatus_from (s := u) hc
    rw [hst] at key
    exact ⟨v, t, congrArg Res.toOutcome (key.trans ht), hrearmed, hframe, hbd, hread⟩

/-- Settles O28: the entry STATUS_IN/IN is `CtStatusDone`. -/
theorem statusDoneRule : Obligations.StatusDoneRule := by
  unfold Obligations.StatusDoneRule
  intro r rest s hq h0 hd hh hst u
  have key := svcTrnOp_ep0 s r rest hq h0 (.inl hd) hh u (by rw [hd])
  rw [hd, hst] at key
  exact congrArg Res.toOutcome (key.trans (congrArg (Res.ok ()) u.statusDone_eq))

/-- Settles O29: nothing left to send, a packet armed, and a packet that meets a hardware-owned EP0 IN. -/
theorem dataInRule : Obligations.DataInRule := by
  unfold Obligations.DataInRule
  intro r rest s hc hq h0 hd hh hst u k
  have key := svcTrnOp_ep0 s r rest hq h0 (.inl hd) hh u (by rw [hd])
  rw [hd, hst] at key
  have hrun : exec .svcTrn s = (ctInStep u).toOutcome := congrArg Res.toOutcome key
  have hk : k ≤ mps0 s.cfg := Nat.min_le_right _ _
  have hctx := u.staged_ctx k (Nat.min_le_left _ _) hk
  rw [hrun]
  refine ⟨fun hdone => ?_, fun hmore => ⟨fun ho => ?_, fun ho => ?_⟩⟩
  · rw [ctInStep_done u hdone]
    obtain ⟨t, ht, hrearmed⟩ := ep0OutRearm_ok true { u with ctx := { s.ctx with stage := .statusOut } } hc
    exact ⟨t, congrArg Res.toOutcome ht, hrearmed⟩
  · rw [ctInStep_chunk u hc hmore, ho]
    exact ⟨_, rfl, u.staged_armed_from hc k hk _, hctx⟩
  · rw [ctInStep_chunk u hc hmore, ho]
    exact ⟨_, rfl, congrArg (fun c => ({ (u.staged k).faulted .darm with ctx := c } : State)) hctx,
      u.staged_stagedFrom hc k hk, u.staged_keptOutside k⟩

/-- Settles O30: a chunk too long, a chunk with more to come, and the last one with EP0 IN free or hardware-owned. -/
theorem dataOutRule : Obligations.DataOutRule := by
  unfold Obligations.DataOutRule
  intro r rest s hc hq h0 hd hset hh hst u n src dst
  have key := svcTrnOp_ep0 s r rest hq h0 (.inr hset) hh u (by rw [hd])
  rw [hd, hst] at key
  have hrun : ∀ {x : Res Unit}, ctOutData (s.bd 0 .out r.slot).cnt u = x → exec .svcTrn s = x.toOutcome :=
    fun hx => congrArg Res.toOutcome (key.trans hx)
  refine ⟨fun hover => ?_, fun hle => ⟨u.consumed (s.bd 0 .out r.slot).cnt, ?_, u.consumed_keptOutside _,
    fun i hi hd => u.read_consumed _ hi hd, fun hmore => ?_, fun hlast ho => ?_, fun hlast ho => ?_⟩⟩
  · obtain ⟨v, t, ht, herror, hrearmed⟩ := ctOutData_overrun (s := u) hc hover
    exact ⟨v, t, hrun ht, herror, hrearmed⟩
  · exact congrArg (fun c => ({ u.consumed (s.bd 0 .out r.slot).cnt with ctx := c } : State))
      (State.consumed_ctx (s := u) hle)
  · obtain ⟨t, ht, hrearmed⟩ := ctOutData_more (s := u) hc hmore
    exact ⟨t, hrun ht, hrearmed⟩
  · obtain ⟨w, t, ht, hstatus, hrearmed⟩ := ctOutData_last_free (s := u) hc hlast ho
    exact ⟨w, t, hrun ht, hstatus, hrearmed⟩
  · exact hrun (ctOutData_last_owned (s := u) hc hlast ho)
end

section
/-! PROOFS. SETUP records: the prologue (R173, R174), the dispatch of a standard request (R175), a packet of another
length than 8 bytes (R301). -/

open Sys2Proof Sys2Proof.Machine

namespace Sys2Proof.Machine

/-- Each byte of eight in a row (R62, R100). -/
theorem extractLsb'_eightBytes (m : Nat → Byte) {k : Nat} (hk : k < 8) :
    (m 7 ++ m 6 ++ m 5 ++ m 4 ++ m 3 ++ m 2 ++ m 1 ++ m 0).extractLsb' (8 * k) 8 = m k := by
  interval_cases k <;> simp only [Nat.reduceMul, Nat.reduceSub, Nat.reduceLeDiff, BitVec.extractLsb'_append_eq_of_le,
    BitVec.extractLsb'_append_eq_right, BitVec.extractLsb'_eq_self]

/-- No `STAT` byte lies in the EP0 buffer (R67). -/
theorem bdAddr_ne_ep0Buf {c : Params} (hc : c.wf) {k : Nat} (hk : k < mps0 c) (dir : Dir) (slot : Slot) :
    c.ep0Buf.toNat + k ≠ bdAddr c 0 dir slot := by
  have hb := bdAddr_bounds c 0 dir slot (Params.wf_nep_pos hc)
  have hd := Params.wf_table_ep0 hc
  unfold disjointRanges at hd
  omega

/-- The latch holds the 8 bytes that stood at `EP0_BUF` before the prologue (R35, R174). -/
theorem State.latchSetup_prologue {s : State} (hc : s.cfg.wf) {k : Nat} (hk : k < 8) :
    s.setupPrologue.latchSetup.setup.extractLsb' (8 * k) 8 = s.ram.read (s.cfg.ep0Buf.toNat + k) := by
  have hk' : k < mps0 s.cfg := by rcases Params.wf_mps0_cases hc with h | h | h | h <;> omega
  refine (extractLsb'_eightBytes (fun j => s.setupPrologue.ram.read (s.setupPrologue.cfg.ep0Buf.toNat + j)) hk).trans ?_
  rw [show s.setupPrologue.cfg = s.cfg by simp]
  exact s.read_setupPrologue _ fun dir slot _ => bdAddr_ne_ep0Buf hc hk' dir slot

/-- A setup packet that decodes is dispatched as its instruction; without a fault the dispatch completes (R175). -/
theorem dispatch_standard {p u : State} {i : Instr} (hd : decodeReq p.setup = .ok i) (hx : exec i p = .next u)
    (hf : u.fault = FaultBits.none) : dispatch p = .ok () u ∧ RequestFrom p u := by
  obtain ⟨handler, hi, hexec⟩ := decodeReq_handler hd
  rw [hexec] at hx
  have hall := serve_all hi p
  obtain ⟨⟨⟩, hserve⟩ := hall.ok_of_faultFree hx hf
  refine ⟨?_, hall.next hx⟩
  simp only [dispatch, hd, hi]
  exact hserve

/-- However the packet was taken, EP0 OUT is armed with DATA1 and the hold is cleared (R174). -/
theorem ctSetup_from {s u : State} (hc : u.cfg.wf) {count : BitVec 10}
    (hu : (if count ≠ 8 then .ok () (s.setupPrologue.requestError .setupLen)
      else dispatch s.setupPrologue.latchSetup) = .ok () u) :
    ∃ v, ctSetup count s = .ok () { v with setupHold := false } ∧ RearmedFrom u v true := by
  obtain ⟨v, hv, hrearmed⟩ := ep0OutRearm_ok true u hc
  refine ⟨v, ?_, hrearmed⟩
  unfold ctSetup
  dsimp only
  rw [hu, Res.bind_ok, hv]
  rfl

/-- A packet of any other length than 8 bytes is a request error (R174, R301). -/
theorem ctSetup_badLength {s : State} (hc : s.cfg.wf) {count : BitVec 10} (h : count ≠ 8) :
    ∃ u v, ctSetup count s = .ok () { v with setupHold := false } ∧
      RequestErrorFrom s.setupPrologue u .setupLen ∧ RearmedFrom u v true := by
  have hp : s.setupPrologue.cfg.wf := by simpa using hc
  obtain ⟨v, hv, hrearmed⟩ := ctSetup_from (s := s) (by simpa using hc) (if_pos h)
  exact ⟨_, v, hv, s.setupPrologue.requestError_from hp .setupLen, hrearmed⟩

end Sys2Proof.Machine

/-- Settles O31: the prologue's own lemmas, field by field. -/
theorem prologueRule : Obligations.PrologueRule := by
  unfold Obligations.PrologueRule
  intro s hc p
  refine ⟨s.setupPrologue_eq, fun dir => ?_, fun ep dir h => ?_, fun dir slot hs => ?_,
    fun x hx => s.read_setupPrologue x hx⟩
  · rw [State.epsAt_setupPrologue, if_pos rfl]
  · rw [State.epsAt_setupPrologue, if_neg h]
  · rw [State.bd_setupPrologue s hc, if_pos ⟨rfl, hs⟩]
    rfl

/-- Settles O32: the record is booked, and `CtSetup` dispatches its packet. -/
theorem setupDispatch : Obligations.SetupDispatch := by
  unfold Obligations.SetupDispatch
  intro slot addr armed rest s u i hc hq hcnt _ p hd hx hf
  obtain ⟨hdispatch, hrequest⟩ := dispatch_standard hd hx hf
  have hcfg : u.cfg = s.cfg := by
    rw [hrequest.frame]
    exact (onComplete 0 .out slot { s with tq := rest }).2.setupPrologue_frame.1
  obtain ⟨v, hv, hrearmed⟩ := ctSetup_from (count := 8) (hcfg ▸ hc) ((if_neg (by simp)).trans hdispatch)
  have key := svcTrnOp_setup s slot addr armed rest hq
  rw [hcnt] at key
  exact ⟨State.serving_prologue _ hc,
    fun k hk => State.latchSetup_prologue (s := (onComplete 0 .out slot { s with tq := rest }).2) hc hk, v,
    congrArg Res.toOutcome (key.trans hv), hrearmed⟩

/-- Settles O33: the record is booked, and `CtSetup` refuses its packet; nothing after that writes the latch. -/
theorem setupLength : Obligations.SetupLength := by
  unfold Obligations.SetupLength
  intro slot addr armed rest s hc hq hcnt p
  obtain ⟨u, v, hv, herror, hrearmed⟩ :=
    ctSetup_badLength (s := (onComplete 0 .out slot { s with tq := rest }).2) hc hcnt
  refine ⟨u, v, congrArg Res.toOutcome ((svcTrnOp_setup s slot addr armed rest hq).trans hv), herror, hrearmed, ?_⟩
  calc v.setup = u.setup := by rw [hrearmed.frame]
    _ = p.setup := by rw [herror.1]
    _ = s.setup := by simp [p, onComplete]
end

section
/-! PROOFS. The standard requests: the recipient checks (R211), the handlers' two answers, and what a request that ran
STALL_EP, CLEAR_STALL or `ReinitEndpoints` leaves of EP0 IN, on which the status stage is armed (R212 to R232). -/

open Sys2Proof Sys2Proof.Machine

namespace Sys2Proof.Machine

/-! ### EP0 IN under a handler -/

/-- Serving a request rests on the parameters, the stage and EP0 IN only (R174, R175). -/
theorem State.serving.congr {s t : State} (hs : s.serving) (hcfg : t.cfg = s.cfg) (hctx : t.ctx = s.ctx)
    (hlast : (t.epsAt 0 .inn).last = (s.epsAt 0 .inn).last) (hbd : ∀ slot, t.bd 0 .inn slot = s.bd 0 .inn slot) :
    t.serving := by
  obtain ⟨hwf, hstage, hfree⟩ := hs
  have hslot : t.nextSlot 0 .inn = s.nextSlot 0 .inn := by unfold State.nextSlot; rw [hcfg, hlast]
  exact ⟨hcfg ▸ hwf, hctx ▸ hstage, by rw [hslot, hbd, hfree]⟩

/-- What is written to the record and the descriptors of another endpoint leaves a request as it was served. -/
theorem State.serving.of_classEndpoint {s t : State} (hs : s.serving) (hcfg : t.cfg = s.cfg) (hctx : t.ctx = s.ctx)
    {ep : BitVec 4} {dir : Dir} (h0 : ep ≠ 0) (heps : OtherEps s t ep dir)
    (hread : ∀ x, (∀ slot, x < bdAddr s.cfg ep dir slot ∨ bdAddr s.cfg ep dir slot + 4 ≤ x) →
      t.ram.read x = s.ram.read x) : t.serving := by
  have hne : ¬ ((0 : BitVec 4) = ep ∧ Dir.inn = dir) := fun h => h0 h.1.symm
  refine hs.congr hcfg hctx (by rw [heps 0 .inn hne]) fun slot => State.bd_congr hcfg _ _ _ fun i hi => hread _ ?_
  intro slot'
  have := bdAddr_apart s.cfg (slot := slot') (slot' := slot) fun h => hne ⟨h.1, h.2.1⟩
  omega

/-- STALL_EP of another endpoint leaves a request as it was served (R139, R216). -/
theorem State.serving.stallEndpoint {s : State} (hs : s.serving) {ep : BitVec 4} {dir : Dir} (h0 : ep ≠ 0)
    (he : ep.toNat < s.cfg.nep) : (s.stallEndpoint ep dir).serving := by
  obtain ⟨hframe, -, heps, -, hread⟩ := s.stallEndpoint_from hs.1 ep dir he
  refine hs.of_classEndpoint (by rw [hframe]) (by rw [hframe]) h0 heps fun x hx => hread x fun slot _ => ?_
  have := hx slot
  omega

/-- What an accepted CLEAR_STALL of another endpoint leaves is a request as it was served (R141, R214). -/
theorem State.serving.of_clearedFrom {s t : State} (hs : s.serving) (hcfg : t.cfg = s.cfg) (hctx : t.ctx = s.ctx)
    {ep : BitVec 4} {dir : Dir} (h0 : ep ≠ 0) (h : ClearedFrom s t ep dir) : t.serving := by
  obtain ⟨-, heps, hread, -⟩ := h
  refine hs.of_classEndpoint hcfg hctx h0 heps fun x hx => hread x (fun slot _ => ?_) (hx _)
  have := hx slot
  omega

/-- CLEAR_STALL under a handler: done, with EP0 IN as it was, or abandoned with `BADPARAM` (R141, R214). -/
theorem clearStallOp_serving {s : State} (hs : s.serving) {ep : BitVec 4} {dir : Dir} (h0 : ep ≠ 0)
    (he : ep.toNat < s.cfg.nep) :
    (∃ c, clearStallOp ep dir s = .ok () c ∧ c.fault = s.fault ∧ c.serving) ∨
      ∃ c, clearStallOp ep dir s = .raised c ∧ c.fault.badparam = true := by
  have hcleared : ClearedFrom s (s.clearHalt ep dir) ep dir := State.clearHalt_clearedFrom hs.1 he
  rw [clearStallOp_eq ep dir s hs.1, if_pos he]
  dsimp only
  split
  · split
    · have harmed := (s.clearHalt ep dir).armed_armedFrom (by simpa using hs.1) false false ep dir (s.nextSlot ep dir) false
        (s.bd ep dir (s.nextSlot ep dir)).addr (.ofNat 16 (mps s.cfg ep dir)) (by simpa using he)
      exact .inl ⟨_, rfl, by simp, hs.of_clearedFrom (by simp) (by simp) h0 (hcleared.armed (by simp) harmed)⟩
    · exact .inr ⟨_, rfl, rfl⟩
  · exact .inl ⟨_, rfl, by simp, hs.of_clearedFrom (by simp) (by simp) h0 hcleared⟩

/-- `ReinitEndpoints` leaves EP0 IN to the request that runs it (R226, R249). -/
theorem State.serving.configured {s : State} (hs : s.serving) (n : Byte) : (s.configured n).serving := by
  obtain ⟨hframe, -⟩ := s.reinitEndpoints_eq
  have hlast : (s.reinitEndpoints.epsAt 0 .inn).last = (s.epsAt 0 .inn).last := by
    rw [State.epsAt_reinitEndpoints, if_neg (by simp)]
  refine hs.congr (t := s.configured n) ?_ ?_ hlast fun slot => ?_
  · show s.reinitEndpoints.cfg = s.cfg
    rw [hframe]
  · show s.reinitEndpoints.ctx = s.ctx
    rw [hframe]
  · show s.reinitEndpoints.bd 0 .inn slot = _
    rw [(s.ram_reinitEndpoints hs.1).1, if_neg (by simp)]

/-- A handler abandoned by a fault ends the request with it (R175, R303). -/
theorem serve_raised {s t : State} {handler : State → Res Bool} (h : handler s = .raised t) :
    (serve handler s).toOutcome = .next t := by
  unfold serve
  rw [h]; rfl

/-! ### The recipient checks -/

theorem epOk_iff (s : State) (i : Half) :
    epOk s i = true ↔ highByte i = 0 ∧ i.extractLsb' 4 3 = 0 ∧ (indexEp i).toNat < s.cfg.nep ∧
      (indexEp i = 0 ∨ s.devState = .configured ∧ s.epen.getLsbD (indexEp i).toNat = true) := by
  simp [epOk, and_assoc]

theorem ifOk_iff (s : State) (i : Half) : ifOk s i = true ↔ s.devState = .configured ∧ i.toNat < s.cfg.numIface := by
  simp [ifOk]

/-- `EpOk` names an endpoint that exists (R211). -/
theorem indexEp_lt_of_epOk {s : State} {i : Half} (h : epOk s i = true) : (indexEp i).toNat < s.cfg.nep := by
  obtain ⟨-, -, he, -⟩ := (epOk_iff s i).mp h
  exact he

/-! ### The handlers' answers -/

theorem statusByte_device {t : Byte} (h : recipient t = 0) (i : Half) (s : State) :
    statusByte t i s = if i = 0 then some (boolByte s.cfg.selfPowered) else none := by
  simp [statusByte, h]

theorem statusByte_interface {t : Byte} (h : recipient t = 1) (i : Half) (s : State) :
    statusByte t i s = if ifOk s i then some 0 else none := by
  simp [statusByte, h]

theorem statusByte_endpoint {t : Byte} (h : recipient t = 2) (i : Half) (s : State) :
    statusByte t i s = if epOk s i then some (boolByte (s.epsAt (indexEp i) (indexDir i)).halt) else none := by
  simp [statusByte, h]

/-- No other recipient, index or endpoint has a status byte (R212). -/
theorem statusByte_none {t : Byte} {i : Half} {s : State} (h : ¬ ((recipient t = 0 ∧ i = 0) ∨
    (recipient t = 1 ∧ ifOk s i = true) ∨ (recipient t = 2 ∧ epOk s i = true))) : statusByte t i s = none := by
  by_cases h0 : recipient t = 0
  · rw [statusByte_device h0, if_neg fun hi => h (.inl ⟨h0, hi⟩)]
  by_cases h1 : recipient t = 1
  · rw [statusByte_interface h1, if_neg fun hi => h (.inr (.inl ⟨h1, hi⟩))]
  by_cases h2 : recipient t = 2
  · rw [statusByte_endpoint h2, if_neg fun hi => h (.inr (.inr ⟨h2, hi⟩))]
  · simp [statusByte]

/-- A status byte is answered (R212). -/
theorem stdGetStatus_some {t b : Byte} {v i : Half} {s : State} (hd : d2h t = true) (hv : v = 0)
    (hb : statusByte t i s = some b) (l : Half) : stdGetStatus t v i l s = answerScratch [b, 0x00] l s := by
  simp [stdGetStatus, hd, hv, hb]

/-- Without a status byte, in a host-to-device form or with a value, GET_STATUS is rejected (R212). -/
theorem stdGetStatus_none {t : Byte} {v i : Half} {s : State}
    (h : d2h t = true → v = 0 → statusByte t i s = none) (l : Half) : stdGetStatus t v i l s = reject s := by
  by_cases hform : d2h t = true ∧ v = 0
  · obtain ⟨hd, hv⟩ := hform
    simp [stdGetStatus, hd, hv, h hd hv]
  · unfold stdGetStatus
    rw [if_pos (by simpa [imp_iff_not_or] using hform)]

/-! Six more handlers are one test, the form they accept, else the rejection. The checks that the model makes one after the
other are the conjuncts of that form; a check that is made for the negation swaps its branches. -/

theorem ite_false_swap {α : Type} (b : Bool) (x y : α) : (if b = false then x else y) = if b = true then y else x := by
  cases b <;> rfl

theorem ite_lt_swap {α : Type} (m n : Nat) (x y : α) : (if m < n then x else y) = if n ≤ m then y else x := by
  simp only [← Nat.not_le, ite_not]

theorem stdGetConfiguration_eq (t : Byte) (v i l : Half) (s : State) :
    stdGetConfiguration t v i l s =
      if d2h t = true ∧ recipient t = 0 ∧ v = 0 ∧ i = 0 then answerScratch [s.config] l s else reject s := by
  simp [stdGetConfiguration, ite_and, ite_or, ite_false_swap]

theorem stdGetInterface_eq (t : Byte) (v i l : Half) (s : State) :
    stdGetInterface t v i l s =
      if d2h t = true ∧ recipient t = 1 ∧ v = 0 ∧ ifOk s i = true then answerScratch [0x00] l s else reject s := by
  simp [stdGetInterface, ite_and, ite_or, ite_false_swap]

theorem stdClearFeature_eq (t : Byte) (v i l : Half) (s : State) :
    stdClearFeature t v i l s =
      if d2h t = false ∧ l = 0 ∧ recipient t = 2 ∧ v = 0 ∧ epOk s i = true then
        if indexEp i = 0 then accept s else (clearStallOp (indexEp i) (indexDir i) s).bind fun _ s => accept s
      else reject s := by
  simp [stdClearFeature, ite_and, ite_or, ite_false_swap]

theorem stdSetFeature_eq (t : Byte) (v i l : Half) (s : State) :
    stdSetFeature t v i l s =
      if d2h t = false ∧ l = 0 ∧ recipient t = 2 ∧ v = 0 ∧ epOk s i = true ∧ indexEp i ≠ 0 then
        (stallOp (indexEp i) (indexDir i) s).bind fun _ s => accept s
      else reject s := by
  simp [stdSetFeature, ite_and, ite_or, ite_false_swap]

theorem stdSetAddress_eq (t : Byte) (v i l : Half) (s : State) :
    stdSetAddress t v i l s =
      if d2h t = false ∧ recipient t = 0 ∧ i = 0 ∧ l = 0 ∧ v.toNat ≤ 127 ∧ s.devState ≠ .configured then
        accept { s with newAddr := .ofNat 7 v.toNat, addrPending := true }
      else reject s := by
  have hv : v.extractLsb' 0 7 = .ofNat 7 v.toNat := rfl
  simp [stdSetAddress, ite_and, ite_or, ite_false_swap, ite_lt_swap, hv]

theorem stdSetInterface_eq (t : Byte) (v i l : Half) (s : State) :
    stdSetInterface t v i l s =
      if d2h t = false ∧ recipient t = 1 ∧ l = 0 ∧ ifOk s i = true ∧ v = 0 then accept s else reject s := by
  simp [stdSetInterface, ite_and, ite_or, ite_false_swap]

/-! ### GET_DESCRIPTOR -/

theorem stdGetDescriptor_some {t : Byte} {v i : Half} {s : State} {kind : Kind} {addr len : Half} (hd : d2h t = true)
    (h : descLookup s.cfg (highByte v) (lowByte v) i = some (kind, addr, len)) (l : Half) :
    stdGetDescriptor t v i l s = (xferOp kind addr len l s).bind fun _ s => accept s := by
  simp [stdGetDescriptor, hd, h]

theorem stdGetDescriptor_none {t : Byte} {v i : Half} {s : State}
    (h : d2h t = false ∨ descLookup s.cfg (highByte v) (lowByte v) i = none) (l : Half) :
    stdGetDescriptor t v i l s = reject s := by
  rcases h with h | h <;> simp [stdGetDescriptor, h]

/-- An XFER under a handler finds EP0 IN free (R174, R176). -/
theorem xferOp_serving {s : State} (hs : s.serving) {kind : Kind} {src avail req : Half}
    (hr : min avail.toNat req.toNat = 0 ∨ src.toNat + min avail.toNat req.toNat ≤ 0x10000) :
    ∃ u, xferOp kind src avail req s = .ok () u ∧ XferFrom s u kind src avail req := by
  obtain ⟨hc, hstage, hfree⟩ := hs
  rw [xferOp_taken s hc kind src avail req hstage hr, hfree]
  exact ⟨_, rfl, State.xferStart_from s hc kind src avail req hr⟩

/-- A request that began a data stage by an XFER completes with it (R175, R220). -/
theorem serve_xfer {s u : State} {kind : Kind} {src avail req : Half} (h : XferFrom s u kind src avail req)
    {handler : State → Res Bool} (hu : handler s = accept u) : (serve handler s).toOutcome = .next u := by
  obtain ⟨-, hctx, -⟩ := h
  unfold serve
  rw [hu]
  exact congrArg Res.toOutcome (conclude_accept_data _ u (by rw [hctx]; exact Stage.noConfusion))

/-! ### SET_CONFIGURATION -/

theorem highByte_eq_zero_iff (v : Half) : highByte v = 0 ↔ v.toNat < 256 := by
  rw [highByte, ← BitVec.toNat_inj, BitVec.extractLsb'_toNat, Nat.shiftRight_eq_div_pow]
  have := v.isLt
  simp only [BitVec.ofNat_eq_ofNat, BitVec.toNat_ofNat]
  omega

theorem toNat_lowByte (v : Half) : (lowByte v).toNat = v.toNat % 256 := by
  rw [lowByte, BitVec.extractLsb'_toNat, Nat.shiftRight_zero]

theorem lowByte_eq_zero_iff {v : Half} (h : v.toNat < 256) : lowByte v = 0 ↔ v = 0 := by
  rw [← BitVec.toNat_inj, ← BitVec.toNat_inj, toNat_lowByte, Nat.mod_eq_of_lt h]
  rfl

theorem stdSetConfiguration_eq (t : Byte) (v i l : Half) (s : State) :
    stdSetConfiguration t v i l s =
      if d2h t = false ∧ recipient t = 0 ∧ i = 0 ∧ l = 0 ∧ v.toNat ≤ s.cfg.numConfig ∧ v.toNat < 256 ∧
          (s.devState = .address ∨ s.devState = .configured) then
        (notifyHook s.cfg.hooks.config (.hookConfig (lowByte v)) (s.configured (lowByte v))).bind fun _ s => accept s
      else reject s := by
  by_cases hv : v.toNat < 256
  · have hhigh : highByte v = 0 := (highByte_eq_zero_iff v).mpr hv
    have hlow : (lowByte v).toNat = v.toNat := by rw [toNat_lowByte, Nat.mod_eq_of_lt hv]
    simp [stdSetConfiguration, ite_and, ite_or, ite_false_swap, ite_lt_swap, hhigh, hlow, hv]
  · have hhigh : highByte v ≠ 0#8 := mt (highByte_eq_zero_iff v).mp hv
    simp [stdSetConfiguration, hhigh, hv]

/-- What the configuring writes (R226, R249). -/
theorem State.configured_eq (s : State) (n : Byte) :
    s.configured n = { s with
      ram := s.reinitEndpoints.ram, eps := s.reinitEndpoints.eps, tq := s.tq.filter fun r => r.ep = 0, config := n
      devState := if n = 0 then .address else .configured
      epen := if n = 0 then 0x0001 else 0x0001 ||| cfgEps s.cfg n } := by
  obtain ⟨hframe, -⟩ := s.reinitEndpoints_eq
  unfold State.configured
  rw [hframe]
  simp only [ne_eq, ite_not]

end Sys2Proof.Machine

/-- Settles O35: the three recipients that have a status byte, and no other form has one. -/
theorem getStatusRule : Obligations.GetStatusRule := by
  unfold Obligations.GetStatusRule
  intro t v i l s hs ok reply
  have answered : ∀ {n : Nat} {b : Byte}, ok n → statusByte t i s = some b → reply b := fun ⟨hd, hv, _⟩ hb =>
    serve_reply s hs _ le_rfl l _ (stdGetStatus_some hd hv hb l)
  refine ⟨fun h hi => answered h ?_, fun h hi => answered h ?_, fun h he => answered h ?_,
    fun h => serve_reject s hs.1 _ (stdGetStatus_none (fun hd hv => statusByte_none fun hform => h ?_) l)⟩
  · obtain ⟨-, -, hr⟩ := h
    exact (statusByte_device hr i s).trans (if_pos hi)
  · obtain ⟨-, -, hr⟩ := h
    exact (statusByte_interface hr i s).trans (if_pos hi)
  · obtain ⟨-, -, hr⟩ := h
    exact (statusByte_endpoint hr i s).trans (if_pos he)
  · rcases hform with ⟨hr, hi⟩ | ⟨hr, hi⟩ | ⟨hr, he⟩
    · exact .inl ⟨⟨hd, hv, hr⟩, hi⟩
    · exact .inr (.inl ⟨⟨hd, hv, hr⟩, hi⟩)
    · exact .inr (.inr ⟨⟨hd, hv, hr⟩, he⟩)

/-- Settles O36: both checks in their own conjuncts; a field is 0 exactly when its value is. -/
theorem recipientChecks : Obligations.RecipientChecks := by
  unfold Obligations.RecipientChecks
  intro s i
  refine ⟨?_, ifOk_iff s i, ?_, ?_⟩
  · simp only [epOk_iff, highByte, indexEp, ← BitVec.toNat_inj]
    rfl
  · rw [indexEp, BitVec.extractLsb'_toNat, Nat.shiftRight_zero]
  · rw [indexDir]
    cases i.getLsbD 7 <;> decide

/-- Settles O37: each handler is one test, then a one-byte reply or the rejection. -/
theorem oneByteReplies : Obligations.OneByteReplies := by
  unfold Obligations.OneByteReplies
  intro t v i l s hs ok
  refine ⟨fun ⟨⟨hd, hr, hv⟩, hi⟩ => ?_, fun h => ?_, fun ⟨⟨hd, hr, hv⟩, hi⟩ => ?_, fun h => ?_⟩
  · exact serve_reply s hs _ one_le_two l _ ((stdGetConfiguration_eq t v i l s).trans (if_pos ⟨hd, hr, hv, hi⟩))
  · exact serve_reject s hs.1 _ ((stdGetConfiguration_eq t v i l s).trans
      (if_neg fun ⟨hd, hr, hv, hi⟩ => h ⟨⟨hd, hr, hv⟩, hi⟩))
  · exact serve_reply s hs _ one_le_two l _ ((stdGetInterface_eq t v i l s).trans (if_pos ⟨hd, hr, hv, hi⟩))
  · exact serve_reject s hs.1 _ ((stdGetInterface_eq t v i l s).trans
      (if_neg fun ⟨hd, hr, hv, hi⟩ => h ⟨⟨hd, hr, hv⟩, hi⟩))

/-- Settles O38: endpoint 0 is accepted as it is; another is cleared, which leaves EP0 IN free for the status stage or ends
with `BADPARAM`. -/
theorem clearFeatureRule : Obligations.ClearFeatureRule := by
  unfold Obligations.ClearFeatureRule
  intro t v i l s hs ok
  refine ⟨fun h h0 => ?_, fun h h0 => ?_, fun h => ?_⟩
  · exact serve_accept s s hs _ ((stdClearFeature_eq t v i l s).trans ((if_pos h).trans (if_pos h0)))
  · have hrun : stdClearFeature t v i l s = (clearStallOp (indexEp i) (indexDir i) s).bind fun _ s => accept s :=
      (stdClearFeature_eq t v i l s).trans ((if_pos h).trans (if_neg h0))
    obtain ⟨-, -, -, -, hep⟩ := h
    rcases clearStallOp_serving (dir := indexDir i) hs h0 (indexEp_lt_of_epOk hep) with
      ⟨c, hc, hkept, hserving⟩ | ⟨c, hc, hbad⟩
    · rw [hc] at hrun
      exact ⟨c, congrArg Res.toOutcome hc, fun _ _ => serve_accept s c hserving _ hrun, fun hne => absurd hkept hne⟩
    · rw [hc] at hrun
      refine ⟨c, congrArg Res.toOutcome hc, fun hkept hclear => ?_, fun _ => serve_raised hrun⟩
      rw [hkept, hclear] at hbad
      cases hbad
  · exact serve_reject s hs.1 _ ((stdClearFeature_eq t v i l s).trans (if_neg h))

/-- Settles O39: a valid endpoint is below `NEP`, so STALL_EP has no fault, and it leaves EP0 IN free for the status stage. -/
theorem setFeatureRule : Obligations.SetFeatureRule := by
  unfold Obligations.SetFeatureRule
  intro t v i l s hs ok
  refine ⟨fun h => ?_, fun h => serve_reject s hs.1 _ ((stdSetFeature_eq t v i l s).trans (if_neg h))⟩
  have hrun := (stdSetFeature_eq t v i l s).trans (if_pos h)
  obtain ⟨-, -, -, -, hep, h0⟩ := h
  have he := indexEp_lt_of_epOk hep
  have hstall : stallOp (indexEp i) (indexDir i) s = .ok () (s.stallEndpoint (indexEp i) (indexDir i)) := by
    rw [stallOp_eq, if_pos he]
  rw [hstall] at hrun
  obtain ⟨u, hu, harmed⟩ := serve_accept s _ (hs.stallEndpoint h0 he) _ hrun
  exact ⟨_, u, congrArg Res.toOutcome hstall, hu, harmed⟩

/-- Settles O40: the two address fields are no part of what serving a request rests on. -/
theorem setAddressRule : Obligations.SetAddressRule := by
  unfold Obligations.SetAddressRule
  intro t v i l s hs ok
  refine ⟨fun h => ?_, fun h => serve_reject s hs.1 _ ((stdSetAddress_eq t v i l s).trans (if_neg h))⟩
  obtain ⟨u, hu, harmed⟩ := serve_accept s { s with newAddr := .ofNat 7 v.toNat, addrPending := true } hs _
    ((stdSetAddress_eq t v i l s).trans (if_pos h))
  have ⟨hframe, _⟩ := harmed
  exact ⟨u, hu, harmed, by rw [hframe], by rw [hframe]⟩

/-- Settles O41: the provider's answer transferred, refused for its range, or none. -/
theorem getDescriptorRule : Obligations.GetDescriptorRule := by
  unfold Obligations.GetDescriptorRule
  intro t v i l s hs
  refine ⟨fun kind addr len hd hlookup => ?_, fun h => serve_reject s hs.1 _ (stdGetDescriptor_none h l)⟩
  have hrun := stdGetDescriptor_some hd hlookup l
  refine ⟨fun hr => ?_, fun hr => ?_⟩
  · obtain ⟨u, hu, hfrom⟩ := xferOp_serving hs hr
    rw [hu] at hrun
    exact ⟨u, serve_xfer hfrom hrun, hfrom⟩
  · rw [xferOp_refused s kind addr len l (.inr hr)] at hrun
    exact serve_raised hrun

/-- Settles O42: both handlers are the rejection. -/
theorem unsupportedRequests : Obligations.UnsupportedRequests := by
  unfold Obligations.UnsupportedRequests
  intro t v i l s hc
  exact ⟨serve_reject s hc (stdSetDescriptor t v i l) rfl, serve_reject s hc (stdSynchFrame t v i l) rfl⟩

/-- Settles O43: a silent HOOK_CONFIG leaves the configured state but for the trace, and EP0 IN in it is free. -/
theorem setConfigurationRule : Obligations.SetConfigurationRule := by
  unfold Obligations.SetConfigurationRule
  intro t v i l s hs n ok
  refine ⟨fun h hquiet => ?_, fun h => serve_reject s hs.1 _ ((stdSetConfiguration_eq t v i l s).trans (if_neg h))⟩
  have hrun := (stdSetConfiguration_eq t v i l s).trans (if_pos h)
  obtain ⟨-, -, -, -, -, hbyte, -⟩ := h
  have hframe := s.configured_eq n
  obtain ⟨c, hc, -, hsilent⟩ := notifyHook_ok s.cfg.hooks.config (.hookConfig n) (s.configured n)
  have hceq := hsilent (by rw [hframe]; exact hquiet)
  have hserving : c.serving := hceq ▸ hs.configured n
  rw [show lowByte v = n from rfl, hc] at hrun
  obtain ⟨u, hu, harmed⟩ := serve_accept s c hserving _ hrun
  have heps : ∀ ep dir, c.epsAt ep dir = s.reinitEndpoints.epsAt ep dir := fun ep dir => by rw [hceq]; rfl
  have hram : c.ram = s.reinitEndpoints.ram := by rw [hceq]; rfl
  obtain ⟨hbd, hread⟩ := s.ram_reinitEndpoints hs.1
  refine ⟨c, u, hu, harmed, ?_, fun ep dir => ?_, fun ep dir h0 he slot hslot => ?_, fun x hx => ?_⟩
  · have hzero : n = 0 ↔ v = 0 := lowByte_eq_zero_iff hbyte
    rw [hceq, hframe]
    simp only [hzero]
  · rw [heps, State.epsAt_reinitEndpoints]
    exact ⟨rfl, rfl, rfl⟩
  · have hcbd : c.bd ep dir slot = s.reinitEndpoints.bd ep dir slot := by rw [hceq]; rfl
    rw [hcbd, hbd, if_pos ⟨⟨h0, he⟩, hslot⟩]
    rfl
  · rw [hram, hread x hx]

/-- Settles O44: the handler is one test, and accepting changes nothing. -/
theorem setInterfaceRule : Obligations.SetInterfaceRule := by
  unfold Obligations.SetInterfaceRule
  intro t v i l s hs ok
  exact ⟨fun h => serve_accept s s hs _ ((stdSetInterface_eq t v i l s).trans (if_pos h)),
    fun h => serve_reject s hs.1 _ ((stdSetInterface_eq t v i l s).trans (if_neg h))⟩
end

section
/-! PROOFS. The device state machine: the moves of DEVSTATE (R270), INIT and SHUTDOWN (R240, R256), SERVICE and its arms
(R242 to R253), the hooks (R262, R267), the public reads (R258, R259). -/

open Sys2Proof Sys2Proof.Machine

namespace Sys2Proof.Machine

/-! ### INIT, SHUTDOWN and SVC_RST -/

theorem State.epsAt_clearEndpoints (s : State) (ep : BitVec 4) (dir : Dir) :
    s.clearEndpoints.epsAt ep dir = ⟨false, false, .odd⟩ := by
  simp [State.clearEndpoints, State.epsAt, Eps.initial]

theorem State.engSlotBit_clearEndpoints (s : State) (ep : BitVec 4) (dir : Dir) :
    s.clearEndpoints.engSlotBit ep dir = .even := by
  simp [State.clearEndpoints, State.engSlotBit]

theorem State.clearEndpoints_keptOutside (s : State) :
    KeptOutside s s.clearEndpoints s.cfg.bdtBase.toNat (16 * s.cfg.nep) := fun x hx =>
  (Memory.read_fillZero _ _ _ x).trans (if_neg (by omega))

/-- The whole descriptor table lies in memory (R65), so the reset clears all of it (R240). -/
theorem State.read_clearEndpoints {s : State} (hc : s.cfg.wf) {x : Nat} (hx : x < 16 * s.cfg.nep) :
    s.clearEndpoints.ram.read (s.cfg.bdtBase.toNat + x) = 0 :=
  (Memory.read_fillZero _ _ _ _).trans (if_pos (by have := Params.wf_table hc; omega))

/-- A cleared descriptor is software-owned (R21, R240). -/
theorem State.own_clearEndpoints {s : State} (hc : s.cfg.wf) {ep : BitVec 4} (he : ep.toNat < s.cfg.nep) (dir : Dir)
    (slot : Slot) : (s.clearEndpoints.bd ep dir slot).own = false := by
  have hb := bdAddr_bounds s.cfg ep dir slot he
  have hstat := State.read_clearEndpoints hc (x := bdAddr s.cfg ep dir slot - s.cfg.bdtBase.toNat) (by omega)
  rw [Nat.add_sub_cancel' hb.1] at hstat
  show (s.clearEndpoints.ram.read (bdAddr s.cfg ep dir slot)).getLsbD 7 = false
  rw [hstat]
  rfl

theorem State.restart_restartedFrom (s : State) (en : Bool) (d : DevState) : RestartedFrom s (s.restart en d) :=
  ⟨rfl, s.epsAt_clearEndpoints, s.engSlotBit_clearEndpoints⟩

theorem State.busResetValues_restartedFrom (s : State) : RestartedFrom s s.busResetValues :=
  ⟨rfl, s.epsAt_clearEndpoints, s.engSlotBit_clearEndpoints⟩

/-- An arming with DATA0 keeps the endpoint records at their reset values (R131, R248). -/
theorem RestartedFrom.armed {s u t : State} {keep toi : Bool} {ep : BitVec 4} {dir : Dir} {slot : Slot} {buf n : Half}
    (h : RestartedFrom s u) (ht : ArmedFrom u t keep toi ep dir slot false buf n) : RestartedFrom s t := by
  obtain ⟨hframe, heps, hpp⟩ := h
  obtain ⟨hframe', -, hself, hother, -⟩ := ht
  refine ⟨?_, fun ep' dir' => ?_, fun ep' dir' => ?_⟩
  · rw [hframe', hframe]
  · by_cases hm : ep' = ep ∧ dir' = dir
    · obtain ⟨rfl, rfl⟩ := hm
      rw [hself, heps]
    · rw [hother ep' dir' hm, heps]
  · rw [hframe']
    exact hpp ep' dir'

/-- EP0 OUT armed for the first setup packet after a bus reset (R248). -/
theorem svcRstOp_armed {s : State} (hc : s.cfg.wf) :
    ∃ t, svcRstOp s = .ok () t ∧
      ArmedFrom s.busResetValues t false false 0 .out .even false s.cfg.ep0Buf (.ofNat 16 (mps0 s.cfg)) := by
  have hn := Params.wf_nep_pos hc
  have hslot := s.busResetValues_restartedFrom.nextSlot_even 0 .out
  have htoggle : (s.busResetValues.epsAt 0 .out).toggle = false := congrArg Eps.toggle (s.epsAt_clearEndpoints 0 .out)
  have hown : (s.busResetValues.bd 0 .out .even).own = false :=
    State.own_clearEndpoints hc (ep := 0) hn .out .even
  have harm := armOp_ep0 s.busResetValues hc .out false (.ofNat 16 (mps0 s.cfg)) (Params.wf_mps0_half hc).le
  rw [hslot, hown, if_neg Bool.false_ne_true] at harm
  refine ⟨_, ?_, s.busResetValues.armed_armedFrom hc false false 0 .out .even false s.cfg.ep0Buf _ hn⟩
  show armOutOp _ _ _ _ _ s.busResetValues = _
  rw [armOutOp_eq, hslot, htoggle]
  exact harm

/-! ### SERVICE -/

/-- SERVICE with the block enabled runs its arms with `BUSY` set (R242). -/
theorem serviceOp_enabled {s : State} (hb : s.busy = false) (hu : s.usbEn = true) (hd : s.devState ≠ .detached) :
    serviceOp s = (serviceArms { s with busy := true }).endService := by
  rw [serviceOp, if_neg (by simp [hb]), if_neg (by simp [hu, hd])]

theorem serviceOp_busy {s : State} (hb : s.busy = true) : serviceOp s = .raised (s.faulted .reentry) :=
  if_pos hb

/-- Nothing pending, no arm runs (R242). -/
theorem serviceArms_nothing {s : State} (h : s.irByte = 0) : serviceArms s = .ok () s := by
  obtain ⟨hrst, hidle, hact, hsof, hq⟩ := s.irByte_eq_zero.mp h
  simp [serviceArms, Res.when, hrst, hidle, hact, hsof, hq]

theorem Res.toOutcome_endService (x : Res Unit) :
    x.endService.toOutcome = andThen x.toOutcome fun t => .next { t with busy := false } := by
  cases x <;> rfl

theorem Res.toOutcome_when (c : Bool) (f : State → Res Unit) (s : State) :
    (Res.when c f s).toOutcome = if c then (f s).toOutcome else .next s := by
  cases c <;> rfl

/-- An arm that never raises is followed by the rest of the SERVICE (R244, R303). -/
theorem Res.endService_when {c : Bool} {f g : State → Res Unit} {s : State} (hf : ∃ t, f s = .ok () t) :
    ((Res.when c f s).bind fun _ t => g t).endService.toOutcome =
      andThen (if c then (f s).toOutcome else .next s) fun t => (g t).endService.toOutcome := by
  obtain ⟨t, ht⟩ := hf
  cases c with
  | false => rfl
  | true => simp [Res.when, ht]

/-! ### Notifications -/

/-- `t` is `s` after the hook calls `items`, in this order, whatever the hooks answer (R262, R267); and nothing but their
trace when no answer is left to give. -/
structure CalledFrom (s t : State) (items : List TraceItem) : Prop where
  cfg : t.cfg = s.cfg
  suspended : t.suspended = s.suspended
  trace : t.trace = s.trace ++ items
  silent : s.hookTape = [] → t = { s with trace := t.trace }

theorem CalledFrom.trans {s t u : State} {xs ys : List TraceItem} (h : CalledFrom s t xs) (h' : CalledFrom t u ys) :
    CalledFrom s u (xs ++ ys) where
  cfg := h'.cfg.trans h.cfg
  suspended := h'.suspended.trans h.suspended
  trace := by rw [h'.trace, h.trace, List.append_assoc]
  silent hs := by
    have ht := h.silent hs
    rw [h'.silent (by rw [ht]; exact hs), ht]

theorem notifyHook_called (present : Bool) (item : TraceItem) (s : State) :
    ∃ t, notifyHook present item s = .ok () t ∧ CalledFrom s t (if present then [item] else []) := by
  obtain ⟨t, ht, hframe, hsilent⟩ := notifyHook_ok present item s
  have hf := hframe.frame
  exact ⟨t, ht, by rw [hf], by rw [hf], by rw [hf], fun hs => by rw [hsilent (.inl hs)]⟩

/-- The resume hook, when the activity ends a suspension, then the activity hook (R251). -/
theorem svcActOp_called (s : State) :
    ∃ t, svcActOp s = .ok () t ∧ CalledFrom { s with suspended := false } t
      ((if s.suspended && s.cfg.hooks.resume then [TraceItem.hookResume] else []) ++
        if s.cfg.hooks.activity then [TraceItem.hookActivity] else []) := by
  obtain ⟨t, ht, hresume⟩ :=
    notifyHook_called (s.suspended && s.cfg.hooks.resume) .hookResume { s with suspended := false }
  obtain ⟨u, hu, hactivity⟩ := notifyHook_called t.cfg.hooks.activity .hookActivity t
  rw [hresume.cfg] at hactivity
  refine ⟨u, ?_, hresume.trans hactivity⟩
  rw [svcActOp, ht]
  exact hu

/-! ### `DEVSTATE` -/

/-- What one step does to `DEVSTATE` (R270): a move of the table, and only a command word or a store to the register block
makes one. -/
theorem step_devState {s t : State} (hs : s.Inv) (ht : step s = .next t) :
    s.devState.mayBecome t.devState ∧
      ∀ x rest, s.sched = x :: rest → (∀ w, x ≠ .cmd w) → (∀ a v, x ≠ .csr a v) → t.devState = s.devState := by
  cases hq : s.sched with
  | nil =>
    rw [step_nil hq] at ht
    cases ht
    exact ⟨.inl rfl, fun _ _ h => absurd h (List.cons_ne_nil _ _).symm⟩
  | cons x rest =>
    rw [step_cons hq] at ht
    obtain ⟨-, hmove, hkept⟩ := runInput_served (hs.begin rest) ht
    refine ⟨hmove, fun y _ hy => ?_⟩
    obtain ⟨rfl, -⟩ := List.cons.inj hy
    exact hkept

end Sys2Proof.Machine

/-- Settles O59: the elements that are no command word and no store to the register block keep `DEVSTATE`. -/
theorem deviceTransitions : Obligations.DeviceTransitions := by
  unfold Obligations.DeviceTransitions
  intro s t hs ht
  obtain ⟨hmove, hkept⟩ := step_devState hs ht
  exact ⟨hmove, fun r rest hq => hkept _ rest hq nofun nofun, fun a v rest hq => hkept _ rest hq nofun nofun⟩

/-- Settles O15: the guard on `BUSY`, and the values of `State.restart`. -/
theorem restartRule : Obligations.RestartRule := by
  unfold Obligations.RestartRule
  intro s hc
  have hinit : exec .init s = (initOp s).toOutcome := rfl
  have hshutdown : exec .shutdown s = (shutdownOp s).toOutcome := rfl
  rw [hinit, hshutdown, initOp, shutdownOp]
  refine ⟨fun hb => ?_, fun hb => ?_⟩
  · rw [if_pos hb, if_pos hb]
    exact ⟨rfl, rfl⟩
  · rw [if_neg (Bool.eq_false_iff.mp hb), if_neg (Bool.eq_false_iff.mp hb)]
    have htable := fun x => State.read_clearEndpoints hc (x := x)
    exact ⟨⟨_, rfl, s.restart_restartedFrom _ _, rfl, rfl, rfl, s.clearEndpoints_keptOutside, htable⟩,
      ⟨_, rfl, s.restart_restartedFrom _ _, rfl, rfl, rfl, s.clearEndpoints_keptOutside, htable⟩⟩

/-- Settles O17: the block off or detached, nothing pending, and a SERVICE in progress. -/
theorem serviceNothing : Obligations.ServiceNothing := by
  unfold Obligations.ServiceNothing
  intro s
  show (_ → _ → (serviceOp s).toOutcome = _) ∧ (_ → (serviceOp s).toOutcome = _)
  refine ⟨fun hb h => ?_, fun hb => by rw [serviceOp_busy hb]; rfl⟩
  by_cases hon : s.usbEn = true ∧ s.devState ≠ .detached
  · have hnone : s.irByte = 0 := by simpa [hon.1, hon.2] using h
    rw [serviceOp_enabled hb hon.1 hon.2, serviceArms_nothing (s := { s with busy := true }) hnone]
    show Host.Outcome.next { s with busy := false } = _
    rw [← hb]
  · rw [serviceOp_disabled hb hon, Res.toOutcome_ok]

/-- Settles O18: the notification arms never raise, so each is followed by the next. -/
theorem serviceOrder : Obligations.ServiceOrder := by
  unfold Obligations.ServiceOrder
  intro s hb hu hd
  show (_ → (serviceOp s).toOutcome = _) ∧ (_ → (serviceOp s).toOutcome = _)
  rw [serviceOp_enabled hb hu hd, serviceArms]
  refine ⟨fun hrst => ?_, fun hrst => ?_⟩
  · rw [if_pos hrst]
    exact Res.toOutcome_endService _
  · rw [if_neg (Bool.eq_false_iff.mp hrst)]
    refine Eq.trans (Res.endService_when ((svcIdleOp_transaction _).imp fun _ => And.left))
      (congrArg (andThen _) (funext fun t => ?_))
    refine Eq.trans (Res.endService_when ((svcActOp_transaction _).imp fun _ => And.left))
      (congrArg (andThen _) (funext fun u => ?_))
    refine Eq.trans (Res.endService_when ((svcSofOp_transaction _).imp fun _ => And.left))
      (congrArg (andThen _) (funext fun v => ?_))
    rw [Res.toOutcome_endService, Res.toOutcome_when]
    simp only [decide_eq_true_eq]
    rfl

/-- Settles O20: the assignments, then one arming of a cleared descriptor. -/
theorem busResetRule : Obligations.BusResetRule := by
  unfold Obligations.BusResetRule
  intro s hc
  obtain ⟨t, ht, harmed⟩ := svcRstOp_armed hc
  have hrestarted := s.busResetValues_restartedFrom.armed harmed
  obtain ⟨hframe, hbd, -, -, hkept⟩ := harmed
  have haddr : bdAddr s.busResetValues.cfg 0 .out .even = s.cfg.bdtBase.toNat := bdAddr_eq s.cfg 0 .out .even
  have hn := Params.wf_nep_pos hc
  rw [haddr] at hkept
  refine ⟨t, congrArg Res.toOutcome ht, hrestarted, by rw [hframe]; rfl, by rw [hframe]; rfl, by rw [hframe]; rfl, ?_,
    fun x hx => ?_, fun x h4 hx => ?_⟩
  · rw [hbd, BitVec.setWidth_ofNat_of_le (by decide)]
  · rw [hkept x (by omega)]
    exact s.clearEndpoints_keptOutside x hx
  · rw [hkept _ (by omega)]
    exact State.read_clearEndpoints hc hx

/-- Settles O21: each arm sets `SUSPENDED` and calls its hooks. -/
theorem notificationArms : Obligations.NotificationArms := by
  unfold Obligations.NotificationArms
  intro s silent
  refine ⟨?_, ?_, ?_⟩
  · obtain ⟨t, ht, hcalled⟩ := notifyHook_called s.cfg.hooks.idle .hookIdle { s with suspended := true }
    exact ⟨t, congrArg Res.toOutcome ht, hcalled.suspended, hcalled.trace, fun hs => by rw [hcalled.silent hs]⟩
  · obtain ⟨t, ht, hcalled⟩ := svcActOp_called s
    exact ⟨t, congrArg Res.toOutcome ht, hcalled.suspended, by rw [hcalled.trace, List.append_assoc],
      fun hs => by rw [hcalled.silent hs]⟩
  · obtain ⟨t, ht, hcalled⟩ := notifyHook_called s.cfg.hooks.sof .hookSof s
    exact ⟨t, congrArg Res.toOutcome ht, hcalled.suspended, hcalled.trace, fun hs => by rw [hcalled.silent hs]⟩

/-- Settles O22: `HookFrom` is the frame of every list of words. -/
theorem hookFrame : Obligations.HookFrame := by
  unfold Obligations.HookFrame
  intro words s
  obtain ⟨t, ht, hfrom⟩ := runHookWords_ok words s
  exact ⟨t, ht, hfrom.frame⟩

/-- Settles O23: an illegal word, a command a hook may perform, and a re-entrant word. That the last is refused in a state
with `BUSY` 0 too is the model's choice (log 18): a hook runs only while `BUSY` is 1. -/
theorem hookWordIsCommand : Obligations.HookWordIsCommand := by
  unfold Obligations.HookWordIsCommand
  intro w s
  refine ⟨fun hr => ?_, fun hr => if_pos hr⟩
  simp only [runHookWord, runCommand, hr, Bool.and_false, Bool.false_eq_true, if_false]
  cases hd : decodeCmd w with
  | error e => rfl
  | ok i => exact (exec_eq_hookCommand hd hr _).symm

/-- Settles O25: the bookkeeping of ON_COMPLETE, then the call of HOOK_TRN. -/
theorem classCompletion : Obligations.ClassCompletion := by
  unfold Obligations.ClassCompletion
  intro r rest s hq h0
  have hbook := State.epsAt_onComplete { s with tq := rest } r.ep
  obtain ⟨t, ht, hframe, hsilent⟩ := notifyHook_ok s.cfg.hooks.trn
    (.hookTrn r.ep r.dir r.slot (s.bd r.ep r.dir r.slot).cnt) (onComplete r.ep r.dir r.slot { s with tq := rest }).2
  have hrun : svcTrnOp s = .ok () t := by
    rw [svcTrnOp_cons s r rest hq, if_neg h0]
    exact ht
  have hf := hframe.frame
  refine ⟨t, congrArg Res.toOutcome hrun, by rw [hf]; rfl, by rw [hf]; rfl, fun hquiet => ?_⟩
  have hexact := hsilent hquiet
  have heps : ∀ ep dir, t.epsAt ep dir = (onComplete r.ep r.dir r.slot { s with tq := rest }).2.epsAt ep dir :=
    State.epsAt_congr (by rw [hexact])
  refine ⟨by rw [hexact]; rfl, fun ep dir hne => ?_, ?_⟩
  · rw [heps, hbook, if_neg hne]
    rfl
  · rw [heps, hbook, if_pos ⟨rfl, rfl⟩]
    rfl

/-- Settles O16: the two images, as numbers. -/
theorem readsRule : Obligations.ReadsRule := by
  unfold Obligations.ReadsRule
  intro s
  have key : ∀ (b : Bool) (d : BitVec 3),
      ((BitVec.ofBool b ++ d).setWidth 16 : Half).toNat = (if b then 8 else 0) + d.toNat := by decide
  exact ⟨⟨_, rfl, key s.suspended s.devState.bits⟩, ⟨_, rfl, BitVec.toNat_setWidth_of_le (by decide)⟩⟩
end

section
/-! PROOFS. The hardware engine: the tokens it accepts (R284), TOK_OUT, TOK_SETUP and TOK_IN (R286 to R289), the bus
conditions (R292), and what an event may write (R283). -/

open Sys2Proof Sys2Proof.Machine

namespace Sys2Proof.Machine

/-! ### Acceptance -/

/-- `Accept(addr, ep)` condition by condition (R284). -/
theorem State.accepts_iff (s : State) (addr : BitVec 7) (ep : BitVec 4) :
    s.accepts addr ep = true ↔ s.usbEn = true ∧ s.ir.rst = false ∧ s.devState.active ∧ addr = s.devAddr ∧
      ep.toNat < s.cfg.nep ∧ s.epen.getLsbD ep.toNat = true := by
  simp [State.accepts, DevState.active, and_assoc, or_assoc]

/-! ### Reception and report -/

/-- A report pushes the record and moves ENG's pointer, nothing else (R289, R290). -/
theorem State.report_eq (s : State) (r : Completion) :
    s.report r = { s with engPp := (s.flipEngPp r.ep r.dir).engPp, tq := s.tq ++ [r] } := by
  unfold State.report State.flipEngPp
  split <;> rfl

/-- ENG's pointers after a report (R289). -/
theorem State.engSlotBit_report (s : State) (r : Completion) (ep' : BitVec 4) (dir' : Dir) :
    (s.report r).engSlotBit ep' dir' =
      if (ep' = r.ep ∧ dir' = r.dir) ∧ pp s.cfg r.ep r.dir then (s.engSlotBit r.ep r.dir).other
      else s.engSlotBit ep' dir' :=
  s.engSlotBit_flipEngPp r.ep ep' r.dir dir'

/-- A byte after a reception, but for the count and `STAT` (R286): the packet where its buffer lies, else the old byte. -/
theorem State.read_received (s : State) {ep : BitVec 4} {slot : Slot} (data : List Byte) {x : Nat}
    (h : x < bdAddr s.cfg ep .out slot ∨ bdAddr s.cfg ep .out slot + 2 ≤ x) :
    (s.received ep slot data).ram.read x = (s.ram.writeBytes (s.bd ep .out slot).addr.toNat data).read x :=
  State.read_writeCntStat _ _ _ _ _ _ h

/-- The bytes that a reception leaves alone (R283). -/
theorem State.read_received_outside (s : State) {ep : BitVec 4} {slot : Slot} {data : List Byte} {x : Nat}
    (hbuf : x < (s.bd ep .out slot).addr.toNat ∨ (s.bd ep .out slot).addr.toNat + data.length ≤ x)
    (hbd : x < bdAddr s.cfg ep .out slot ∨ bdAddr s.cfg ep .out slot + 2 ≤ x) :
    (s.received ep slot data).ram.read x = s.ram.read x := by
  rw [s.read_received data hbd, Memory.read_writeBytes, if_neg (by omega)]

/-- A buffer off the descriptor table holds the packet after its reception (R286). -/
theorem State.read_received_buffer (s : State) {ep : BitVec 4} (he : ep.toNat < s.cfg.nep) {slot : Slot} {data : List Byte}
    (hd : disjointRanges (s.bd ep .out slot).addr.toNat data.length s.cfg.bdtBase.toNat (16 * s.cfg.nep)) {i : Nat}
    (hi : i < data.length) (htop : (s.bd ep .out slot).addr.toNat + i < spaceSize) :
    (s.received ep slot data).ram.read ((s.bd ep .out slot).addr.toNat + i) = data.getD i 0 := by
  have hb := bdAddr_bounds s.cfg ep .out slot he
  rw [s.read_received data (by omega), Memory.read_writeBytes, if_pos (by omega), Nat.add_sub_cancel_left]

/-- The descriptor after a reception whose buffer lies off the descriptor table (R286). -/
theorem State.bd_received {s : State} (hc : s.cfg.wf) {ep : BitVec 4} (he : ep.toNat < s.cfg.nep) (slot : Slot)
    {data : List Byte}
    (hd : disjointRanges (s.bd ep .out slot).addr.toNat data.length s.cfg.bdtBase.toNat (16 * s.cfg.nep)) :
    (s.received ep slot data).bd ep .out slot =
      { s.bd ep .out slot with own := false, stall := false, cnt := .ofNat 10 data.length } := by
  have hb := bdAddr_bounds s.cfg ep .out slot he
  let u : State := { s with ram := s.ram.writeBytes (s.bd ep .out slot).addr.toNat data }
  have hkept : u.bd ep .out slot = s.bd ep .out slot := by
    refine State.bd_congr ?_ _ _ _ fun i hi => ?_
    · rfl
    · rw [Memory.read_writeBytes, if_neg (by omega)]
  exact (State.bd_writeCntStat u hc ep .out slot _ he).trans (by rw [hkept]; rfl)

/-- A reception, reported and acknowledged (R286, R287, R289). -/
theorem State.received_receivedFrom {s : State} (hc : s.cfg.wf) {ep : BitVec 4} (he : ep.toNat < s.cfg.nep) (slot : Slot)
    (setup : Bool) {data : List Byte}
    (hd : disjointRanges (s.bd ep .out slot).addr.toNat data.length s.cfg.bdtBase.toNat (16 * s.cfg.nep)) :
    let u := { s.received ep slot data with setupHold := s.setupHold || setup }
    let r : Completion := ⟨ep, .out, slot, setup, (s.bd ep .out slot).addr, (s.bd ep .out slot).cnt⟩
    ReceivedFrom s ((u.report r).respond .ack) ep slot setup data := by
  intro u r
  have hpointers := u.engSlotBit_report r
  rw [State.report_eq] at hpointers ⊢
  exact ⟨rfl, fun i hi htop => s.read_received_buffer he hd hi htop, State.bd_received hc he slot hd,
    fun x hbuf hbd => s.read_received_outside hbuf hbd, hpointers⟩

theorem Memory.length_readBytes (m : Memory) (draw a n : Nat) : (m.readBytes draw a n).length = n := by
  simp [Memory.readBytes]

/-- A byte of a packet read from memory, the free value past the top (R65, log 11). -/
theorem Memory.getD_readBytes (m : Memory) (draw a : Nat) {n j : Nat} (hj : j < n) :
    (m.readBytes draw a n).getD j 0 = if a + j < 0x10000 then m.read (a + j) else freeByte draw (a + j) := by
  simp [Memory.readBytes, List.getD_eq_getElem?_getD, hj, Memory.fetch, spaceSize]

/-! ### The tests of a token -/

theorem bnot_ne_true {b : Bool} (h : b = true) : ¬ (!b) = true := by simp [h]

/-- The tests that TOK_OUT and TOK_IN share, in their order (R286, R288): NAK while EP0 is held or the descriptor `b` is not
armed, STALL where it is stalled, NAK without room in the queue; `x` is the rest. -/
def State.gated (s : State) (ep : BitVec 4) (b : Bd) (x : Host.Outcome State Fault Refusal) :
    Host.Outcome State Fault Refusal :=
  if ep = 0 && s.setupHold then .next (s.respond .nak)
  else if !b.own then .next (s.respond .nak)
  else if b.stall then .next (s.respond .stall)
  else if s.tqFull then .next (s.respond .nak)
  else x

section
variable {s : State} {ep : BitVec 4} {b : Bd} {x : Host.Outcome State Fault Refusal}

/-- The test for a held EP0. -/
theorem held_iff (ep : BitVec 4) (s : State) : (decide (ep = 0) && s.setupHold) = true ↔ ep = 0 ∧ s.setupHold = true := by
  rw [Bool.and_eq_true, decide_eq_true_iff]

/-- The test for room in the queue (R290). -/
theorem State.tqFull_iff (s : State) : s.tqFull = true ↔ s.cfg.tqDepth ≤ s.tq.length := decide_eq_true_iff

theorem State.gated_unready (h : (ep = 0 ∧ s.setupHold = true) ∨ b.own = false) :
    s.gated ep b x = .next (s.respond .nak) := by
  rw [State.gated]
  by_cases hh : ep = 0 ∧ s.setupHold = true
  · rw [if_pos ((held_iff ep s).mpr hh)]
  · rw [if_neg (mt (held_iff ep s).mp hh), h.resolve_left hh]
    rfl

section
variable (hh : ¬ (ep = 0 ∧ s.setupHold = true)) (ho : b.own = true)
include hh ho

theorem State.gated_stalled (hs : b.stall = true) : s.gated ep b x = .next (s.respond .stall) := by
  rw [State.gated, if_neg (mt (held_iff ep s).mp hh), if_neg (bnot_ne_true ho), if_pos hs]

theorem State.gated_full (hs : b.stall = false) (hq : s.cfg.tqDepth ≤ s.tq.length) :
    s.gated ep b x = .next (s.respond .nak) := by
  rw [State.gated, if_neg (mt (held_iff ep s).mp hh), if_neg (bnot_ne_true ho), if_neg (ne_true_of_eq_false hs),
    if_pos (s.tqFull_iff.mpr hq)]

theorem State.gated_passed (hs : b.stall = false) (hq : s.tq.length < s.cfg.tqDepth) : s.gated ep b x = x := by
  rw [State.gated, if_neg (mt (held_iff ep s).mp hh), if_neg (bnot_ne_true ho), if_neg (ne_true_of_eq_false hs),
    if_neg (mt s.tqFull_iff.mp hq.not_ge)]

end

/-- A token that passes has met an armed descriptor. -/
theorem State.gated_cases (s : State) (ep : BitVec 4) (b : Bd) (x : Host.Outcome State Fault Refusal) :
    (∃ r, s.gated ep b x = .next (s.respond r)) ∨ (b.own = true ∧ s.gated ep b x = x) := by
  unfold State.gated
  split_ifs with _ ho
  iterate 4 exact .inl ⟨_, rfl⟩
  exact .inr ⟨by simpa using ho, rfl⟩

end

/-! ### What each token can do -/

section
variable {addr : BitVec 7} {ep : BitVec 4} {s : State}

/-- TOK_OUT accepted (R286). -/
theorem execTokOut_accepted (ha : s.accepts addr ep = true) (tgl : Bool) (data : List Byte) :
    let slot := s.engSlot ep .out
    let b := s.bd ep .out slot
    execTokOut addr ep tgl data s = s.gated ep b
      (if tgl ≠ b.dts then .next (s.respond .ack)
      else if b.cnt.toNat < data.length then .next (s.respond .silent)
      else .next (((s.received ep slot data).report ⟨ep, .out, slot, false, b.addr, b.cnt⟩).respond .ack)) :=
  if_neg (bnot_ne_true ha)

/-- TOK_IN accepted (R288). -/
theorem execTokIn_accepted (ha : s.accepts addr ep = true) (ack : Bool) :
    let slot := s.engSlot ep .inn
    let b := s.bd ep .inn slot
    let r := Response.data b.dts (s.ram.readBytes s.draws b.addr.toNat b.cnt.toNat)
    execTokIn addr ep ack s = s.gated ep b
      (if ack then
        .next (({ s.writeStat ep .inn slot b.completed with draws := s.drawsAfter b.addr.toNat b.cnt.toNat }.report
          ⟨ep, .inn, slot, false, b.addr, b.cnt⟩).respond r)
      else .next (s.respond r)) :=
  if_neg (bnot_ne_true ha)

/-- TOK_SETUP accepted on an armed EP0 that is not held, with room in the queue (R287). -/
theorem execTokSetup_received {data : List Byte} (ha : s.accepts addr 0 = true) (hh : s.setupHold = false) :
    let slot := s.engSlot 0 .out
    let b := s.bd 0 .out slot
    b.own = true → s.tq.length < s.cfg.tqDepth → data.length ≤ b.cnt.toNat →
      execTokSetup addr 0 data s = .next (({ s.received 0 slot data with setupHold := true }.report
        ⟨0, .out, slot, true, b.addr, b.cnt⟩).respond .ack) := by
  intro slot b ho hq hlen
  have accepted : ¬ (!s.accepts addr 0 || decide ((0 : BitVec 4) ≠ 0)) = true := by simpa using ha
  refine (if_neg accepted).trans ?_
  rw [if_neg (ne_true_of_eq_false hh), if_neg (bnot_ne_true ho), if_neg (mt s.tqFull_iff.mp hq.not_ge), if_neg hlen.not_gt]

/-- TOK_OUT only answers, or it receives a packet into the armed descriptor (R286). -/
theorem execTokOut_cases (addr : BitVec 7) (ep : BitVec 4) (tgl : Bool) (data : List Byte) (s : State) :
    let slot := s.engSlot ep .out
    let b := s.bd ep .out slot
    (∃ r, execTokOut addr ep tgl data s = .next (s.respond r)) ∨
    (s.accepts addr ep = true ∧ b.own = true ∧ data.length ≤ b.cnt.toNat ∧
      execTokOut addr ep tgl data s =
        .next (((s.received ep slot data).report ⟨ep, .out, slot, false, b.addr, b.cnt⟩).respond .ack)) := by
  intro slot b
  by_cases ha : s.accepts addr ep = true
  · rw [execTokOut_accepted ha]
    obtain ⟨r, hr⟩ | ⟨ho, hr⟩ := s.gated_cases ep b _
    · exact .inl ⟨r, hr⟩
    · rw [hr]
      split_ifs with _ hlong
      iterate 2 exact .inl ⟨_, rfl⟩
      exact .inr ⟨ha, ho, Nat.le_of_not_lt hlong, rfl⟩
  · exact .inl ⟨.silent, if_pos (by simpa using ha)⟩

/-- TOK_IN only answers, or, acknowledged, it completes the armed descriptor (R288). -/
theorem execTokIn_cases (addr : BitVec 7) (ep : BitVec 4) (ack : Bool) (s : State) :
    let slot := s.engSlot ep .inn
    let b := s.bd ep .inn slot
    (∃ r, execTokIn addr ep ack s = .next (s.respond r)) ∨
    (s.accepts addr ep = true ∧ b.own = true ∧ ack = true ∧
      ∃ r, execTokIn addr ep ack s = .next
        (({ s.writeStat ep .inn slot b.completed with draws := s.drawsAfter b.addr.toNat b.cnt.toNat }.report
          ⟨ep, .inn, slot, false, b.addr, b.cnt⟩).respond r)) := by
  intro slot b
  by_cases ha : s.accepts addr ep = true
  · rw [execTokIn_accepted ha]
    obtain ⟨r, hr⟩ | ⟨ho, hr⟩ := s.gated_cases ep b _
    · exact .inl ⟨r, hr⟩
    · rw [hr]
      split_ifs with hack
      · exact .inr ⟨ha, ho, hack, _, rfl⟩
      · exact .inl ⟨_, rfl⟩
  · exact .inl ⟨.silent, if_pos (by simpa using ha)⟩

/-- TOK_SETUP only answers NONE, or it receives a packet into EP0's armed descriptor and holds EP0 (R287). -/
theorem execTokSetup_cases (addr : BitVec 7) (ep : BitVec 4) (data : List Byte) (s : State) :
    let slot := s.engSlot 0 .out
    let b := s.bd 0 .out slot
    execTokSetup addr ep data s = .next (s.respond .silent) ∨
    (s.accepts addr ep = true ∧ ep = 0 ∧ s.setupHold = false ∧ b.own = true ∧ s.tq.length < s.cfg.tqDepth ∧
      data.length ≤ b.cnt.toNat ∧
      execTokSetup addr ep data s = .next (({ s.received 0 slot data with setupHold := true }.report
        ⟨0, .out, slot, true, b.addr, b.cnt⟩).respond .ack)) := by
  unfold execTokSetup
  dsimp only
  split_ifs with haccept hheld hown hfull hlong
  iterate 5 exact .inl rfl
  obtain ⟨ha, h0⟩ : s.accepts addr ep = true ∧ ep = 0 := by simpa using haccept
  exact .inr ⟨ha, h0, by simpa using hheld, by simpa using hown, by simpa [s.tqFull_iff] using hfull,
    Nat.le_of_not_lt hlong, rfl⟩

end

/-! ### The frame of an event -/

/-- What ENG leaves alone in an event that may write the bytes `w` of RAM (R283). -/
structure EngineWrites (w : Nat → Prop) (s t : State) : Prop where
  frame : t = { s with
    ram := t.ram, engPp := t.engPp, tq := t.tq, ir := t.ir, setupHold := t.setupHold, response := t.response
    draws := t.draws }
  ram : ∀ x, ¬ w x → t.ram.read x = s.ram.read x
  hold : s.setupHold = true → t.setupHold = true
  rst : s.ir.rst = true → t.ir.rst = true
  idle : s.ir.idle = true → t.ir.idle = true
  act : s.ir.act = true → t.ir.act = true
  sof : s.ir.sof = true → t.ir.sof = true
  tq : t.tq = s.tq ∨ ∃ c, t.tq = s.tq ++ [c]

theorem EngineWrites.refl (w : Nat → Prop) (s : State) : EngineWrites w s s :=
  ⟨rfl, fun _ _ => rfl, id, id, id, id, id, .inl rfl⟩

theorem EngineWrites.responded (w : Nat → Prop) (s : State) (r : Response) : EngineWrites w s (s.respond r) :=
  ⟨rfl, fun _ _ => rfl, id, id, id, id, id, .inl rfl⟩

/-- A reported completion; `u` is the state with the packet's own writes done. -/
theorem EngineWrites.reported {w : Nat → Prop} {s u : State}
    (hu : u = { s with ram := u.ram, setupHold := u.setupHold, draws := u.draws })
    (hram : ∀ x, ¬ w x → u.ram.read x = s.ram.read x) (hhold : s.setupHold = true → u.setupHold = true)
    (c : Completion) (r : Response) : EngineWrites w s ((u.report c).respond r) := by
  rw [State.report_eq]
  rw [hu] at hram hhold ⊢
  exact ⟨rfl, hram, hhold, id, id, id, id, .inr ⟨c, rfl⟩⟩

/-- A bus condition: the flags `f` are those of `s` and perhaps one more. -/
theorem EngineWrites.condition (w : Nat → Prop) {s : State} {f : IrFlags} (hrst : s.ir.rst = true → f.rst = true)
    (hidle : s.ir.idle = true → f.idle = true) (hact : s.ir.act = true → f.act = true)
    (hsof : s.ir.sof = true → f.sof = true) : EngineWrites w s (if s.usbEn then { s with ir := f } else s) := by
  split
  · exact ⟨rfl, fun _ _ => rfl, id, hrst, hidle, hact, hsof, .inl rfl⟩
  · exact .refl w s

/-- A reception writes only what R283 allows: `STAT`, the count byte and the buffer up to the packet. -/
theorem State.read_received_of_not {s : State} {ep : BitVec 4} {slot : Slot} {data : List Byte} {x : Nat}
    (hlen : data.length ≤ (s.bd ep .out slot).cnt.toNat)
    (hx : ¬ (x = bdAddr s.cfg ep .out slot ∨ x = bdAddr s.cfg ep .out slot + 1 ∨
      ((s.bd ep .out slot).addr.toNat ≤ x ∧
        x < (s.bd ep .out slot).addr.toNat + min data.length (s.bd ep .out slot).cnt.toNat))) :
    (s.received ep slot data).ram.read x = s.ram.read x := by
  rw [Nat.min_eq_left hlen] at hx
  exact s.read_received_outside (by omega) (by omega)

theorem execTokOut_engineWrites {addr : BitVec 7} {ep : BitVec 4} {tgl : Bool} {data : List Byte} {s t : State}
    (h : execTokOut addr ep tgl data s = .next t) : EngineWrites (s.engMayWrite (.tokOut addr ep tgl data)) s t := by
  obtain ⟨r, hr⟩ | ⟨ha, ho, hlen, hr⟩ := execTokOut_cases addr ep tgl data s
  · cases hr.symm.trans h
    exact .responded _ s r
  · cases hr.symm.trans h
    refine .reported ?_ (fun x hx => ?_) ?_ _ _
    · rfl
    · exact State.read_received_of_not hlen fun hw => hx ⟨ha, ho, hw.imp_right (Or.imp_left (⟨rfl, ·⟩))⟩
    · exact id

theorem execTokSetup_engineWrites {addr : BitVec 7} {ep : BitVec 4} {data : List Byte} {s t : State}
    (h : execTokSetup addr ep data s = .next t) : EngineWrites (s.engMayWrite (.tokSetup addr ep data)) s t := by
  obtain hr | ⟨ha, h0, -, ho, -, hlen, hr⟩ := execTokSetup_cases addr ep data s
  · cases hr.symm.trans h
    exact .responded _ s .silent
  · cases hr.symm.trans h
    subst h0
    refine .reported ?_ (fun x hx => ?_) ?_ _ _
    · rfl
    · exact State.read_received_of_not hlen fun hw => hx ⟨rfl, ha, ho, hw.imp_right (Or.imp_left (⟨rfl, ·⟩))⟩
    · exact fun _ => rfl

theorem execTokIn_engineWrites {addr : BitVec 7} {ep : BitVec 4} {ack : Bool} {s t : State}
    (h : execTokIn addr ep ack s = .next t) : EngineWrites (s.engMayWrite (.tokIn addr ep ack)) s t := by
  obtain ⟨r, hr⟩ | ⟨ha, ho, hack, r, hr⟩ := execTokIn_cases addr ep ack s
  · cases hr.symm.trans h
    exact .responded _ s r
  · cases hr.symm.trans h
    refine .reported ?_ (fun x hx => ?_) ?_ _ _
    · rfl
    · exact State.read_writeStat _ _ _ _ _ _ fun hw => hx ⟨hack, ha, ho, .inl hw⟩
    · exact id

/-- Every event of the bus stays within R283. -/
theorem exec_engineWrites {r : BusRecord} {i : Instr} {s t : State} (hd : decodeBus r = .ok i) (h : exec i s = .next t) :
    EngineWrites (s.engMayWrite i) s t := by
  unfold decodeBus at hd
  split at hd <;> cases hd
  · exact execTokOut_engineWrites h
  · exact execTokIn_engineWrites h
  · exact execTokSetup_engineWrites h
  · cases h
    exact .condition _ (fun _ => rfl) id id id
  · cases h
    exact .condition _ id (fun _ => rfl) id id
  · cases h
    exact .condition _ id id (fun _ => rfl) id
  · cases h
    exact .condition _ id id id (fun _ => rfl)

end Sys2Proof.Machine

/-- Settles O45: `accepts` is the conjunction, and without it each token answers NONE. -/
theorem tokenNotAccepted : Obligations.TokenNotAccepted := by
  unfold Obligations.TokenNotAccepted
  intro addr ep s accepted
  have hiff : s.accepts addr ep = true ↔ accepted := s.accepts_iff addr ep
  have silent : ¬ accepted → (!s.accepts addr ep) = true := fun hn => by simpa using mt hiff.mp hn
  refine ⟨hiff, fun hn => ⟨fun tgl data => if_pos (silent hn), fun ack => if_pos (silent hn)⟩, fun hn data => if_pos ?_⟩
  rw [Bool.or_eq_true, decide_eq_true_iff]
  exact hn.imp_left silent

/-- Settles O46: the shared tests, then the toggle, then the reception. -/
theorem tokOutRule : Obligations.TokOutRule := by
  unfold Obligations.TokOutRule
  intro addr ep tgl data s hc ha slot b held run
  have he : ep.toNat < s.cfg.nep := (s.accepts_active ha).1
  have hrun : run = s.gated ep b _ := execTokOut_accepted ha tgl data
  refine ⟨fun h => hrun.trans (State.gated_unready h), fun hh ho hs => hrun.trans (State.gated_stalled hh ho hs),
    fun hh ho hs => ⟨fun hq => hrun.trans (State.gated_full hh ho hs hq), fun hq => ?_⟩⟩
  have hpassed := hrun.trans (State.gated_passed hh ho hs hq)
  refine ⟨fun ht => hpassed.trans (if_pos ht), fun ht hlen hd => ?_⟩
  have hreceived := State.received_receivedFrom hc he slot false hd
  rw [Bool.or_false] at hreceived
  exact ⟨_, hpassed.trans ((if_neg (not_not.mpr ht)).trans (if_neg hlen.not_gt)), hreceived⟩

/-- Settles O47: TOK_SETUP answers NONE unless every condition of its reception holds. -/
theorem tokSetupRule : Obligations.TokSetupRule := by
  unfold Obligations.TokSetupRule
  intro addr data s hc ha slot b run
  have he : (0 : BitVec 4).toNat < s.cfg.nep := (s.accepts_active ha).1
  refine ⟨fun h => ?_, fun hh ho hq hlen hd => ?_⟩
  · obtain hr | ⟨-, -, hh, ho, hq, -⟩ := execTokSetup_cases addr 0 data s
    · exact hr
    · rcases h with h | h | h
      · cases hh.symm.trans h
      · cases ho.symm.trans h
      · exact absurd h hq.not_ge
  · have hreceived := State.received_receivedFrom hc he slot true hd
    rw [Bool.or_true] at hreceived
    refine ⟨_, execTokSetup_received ha hh ho hq hlen, ?_, hreceived⟩
    rw [State.report_eq]
    rfl

/-- Settles O48: the shared tests, then the packet and, acknowledged, its completion. -/
theorem tokInRule : Obligations.TokInRule := by
  unfold Obligations.TokInRule
  intro addr ep ack s hc ha slot b held run
  have he : ep.toNat < s.cfg.nep := (s.accepts_active ha).1
  have hrun : run = s.gated ep b _ := execTokIn_accepted ha ack
  refine ⟨fun h => hrun.trans (State.gated_unready h), fun hh ho hs => hrun.trans (State.gated_stalled hh ho hs),
    fun hh ho hs => ⟨fun hq => hrun.trans (State.gated_full hh ho hs hq), fun hq => ?_⟩⟩
  have hpassed := hrun.trans (State.gated_passed hh ho hs hq)
  refine ⟨_, s.ram.length_readBytes s.draws _ _, fun j hj => s.ram.getD_readBytes s.draws _ hj,
    fun hack => hpassed.trans (if_neg (ne_true_of_eq_false hack)), fun hack => ⟨_, hpassed.trans (if_pos hack), ?_⟩⟩
  let u : State := { s.writeStat ep .inn slot b.completed with draws := s.drawsAfter b.addr.toNat b.cnt.toNat }
  have hpointers := u.engSlotBit_report ⟨ep, .inn, slot, false, b.addr, b.cnt⟩
  rw [State.report_eq] at hpointers ⊢
  exact ⟨rfl, State.bd_writeStat s hc ep .inn slot b.completed he rfl rfl,
    fun x hx => s.read_writeStat ep .inn slot b.completed x hx, hpointers⟩

/-- Settles O49: the two sides of the guard. -/
theorem busConditions : Obligations.BusConditions := by
  unfold Obligations.BusConditions
  intro s
  exact ⟨fun h => ⟨congrArg _ (if_pos h), congrArg _ (if_pos h), congrArg _ (if_pos h), congrArg _ (if_pos h)⟩,
    fun h => have h := ne_true_of_eq_false h
      ⟨congrArg _ (if_neg h), congrArg _ (if_neg h), congrArg _ (if_neg h), congrArg _ (if_neg h)⟩⟩

/-- Settles O50: the fields of `EngineWrites`. -/
theorem engineFrame : Obligations.EngineFrame := by
  unfold Obligations.EngineFrame
  intro r i s t hd h
  obtain ⟨frame, ram, hold, rst, idle, act, sof, tq⟩ := exec_engineWrites hd h
  exact ⟨frame, ram, hold, rst, idle, act, sof, tq⟩
end

section
/-! PROOFS. Reset and hazards: the power-on state (R331) meets the invariant, and every step is defined (R357). -/

open Sys2Proof Sys2Proof.Machine

namespace Sys2Proof.Machine

/-! ### The power-on state -/

theorem State.epsAt_reset (ep : BitVec 4) (dir : Dir) : State.reset.epsAt ep dir = Eps.initial :=
  Vector.getElem_replicate (epIx ep dir).isLt

theorem State.engSlotBit_reset (ep : BitVec 4) (dir : Dir) : State.reset.engSlotBit ep dir = .even :=
  Vector.getElem_replicate (epIx ep dir).isLt

/-- The queue is empty, so the newest slot is that of the endpoint record (R28, R42). -/
theorem State.newestSlot_reset (ep : BitVec 4) (dir : Dir) : State.reset.newestSlot ep dir = .odd :=
  congrArg Eps.last (State.epsAt_reset ep dir)

/-! ### Every instruction and every element of the schedule -/

/-- Completed or abandoned by a fault, an operation leaves a next state (R96, R303). -/
theorem Res.toOutcome_exists_next {α : Type} (x : Res α) : ∃ t, x.toOutcome = .next t := by
  cases x with
  | ok _ t => exact ⟨t, rfl⟩
  | raised t => exact ⟨t, rfl⟩

/-- Every instruction is defined in every state (R357): the events of the bus answer and end, the others are operations. -/
theorem exec_exists_next (i : Instr) (s : State) : ∃ t, exec i s = .next t := by
  cases i
  case tokOut addr ep tgl data =>
    obtain ⟨_, h⟩ | ⟨-, -, -, h⟩ := execTokOut_cases addr ep tgl data s
    · exact ⟨_, h⟩
    · exact ⟨_, h⟩
  case tokIn addr ep ack =>
    obtain ⟨_, h⟩ | ⟨-, -, -, _, h⟩ := execTokIn_cases addr ep ack s
    · exact ⟨_, h⟩
    · exact ⟨_, h⟩
  case tokSetup addr ep data =>
    obtain h | ⟨-, -, -, -, -, -, h⟩ := execTokSetup_cases addr ep data s
    · exact ⟨_, h⟩
    · exact ⟨_, h⟩
  case busReset | busIdle | busActivity | busSof => exact ⟨_, rfl⟩
  case getState => exact Res.toOutcome_exists_next (getStateOp s)
  case getConfig => exact Res.toOutcome_exists_next (getConfigOp s)
  case setDescriptor t v i l => exact Res.toOutcome_exists_next (serve (stdSetDescriptor t v i l) s)
  case synchFrame t v i l => exact Res.toOutcome_exists_next (serve (stdSynchFrame t v i l) s)
  all_goals exact Res.toOutcome_exists_next _

/-- An illegal command word, or one refused during a SERVICE, is a fault of the block and no stop (R96, R303). -/
theorem runCommand_exists_next (w : Word64) (s : State) : ∃ t, runCommand w s = .next t := by
  unfold runCommand
  dsimp only
  split
  · exact ⟨_, rfl⟩
  · split
    · exact ⟨_, rfl⟩
    · exact exec_exists_next _ _

/-- Every code but the reserved 7 is an event (R106). -/
theorem decodeBus_exists_ok {r : BusRecord} (h : r.code ≠ 7) : ∃ i, decodeBus r = .ok i := by
  have h7 : r.code.toNat ≠ 7 := fun he => h (BitVec.eq_of_toNat_eq he)
  have hlt : r.code.toNat < 7 := by have := r.code.isLt; omega
  unfold decodeBus
  interval_cases r.code.toNat <;> exact ⟨_, rfl⟩

theorem runBus_exists_next {r : BusRecord} (h : r.code ≠ 7) (s : State) : ∃ t, runBus r s = .next t := by
  obtain ⟨i, hi⟩ := decodeBus_exists_ok h
  rw [runBus_decoded hi]
  exact exec_exists_next i s

/-- A store inside the register block (R45, R47). -/
theorem storeCsr_exists_next {a : Half} {s : State}
    (h : s.cfg.csrBase.toNat ≤ a.toNat ∧ a.toNat < s.cfg.csrBase.toNat + 0x42) (v : Byte) :
    ∃ t, storeCsr a v s = .next t := by
  unfold storeCsr
  rw [if_neg (by omega)]
  dsimp only
  split
  · exact ⟨_, rfl⟩
  · split
    · exact runCommand_exists_next _ _
    · exact ⟨_, rfl⟩

/-- Every element of a schedule but the reserved bus code and a store past the register block (R355, R357). -/
theorem runInput_exists_next {x : Input} {s : State} (hbus : ∀ r, x = .bus r → r.code ≠ 7)
    (hcsr : ∀ a v, x = .csr a v → s.cfg.csrBase.toNat ≤ a.toNat ∧ a.toNat < s.cfg.csrBase.toNat + 0x42) :
    ∃ t, runInput x s = .next t := by
  cases x with
  | cmd w => exact runCommand_exists_next w s
  | bus r => exact runBus_exists_next (hbus r rfl) s
  | mem a v => exact ⟨_, rfl⟩
  | csr a v => exact storeCsr_exists_next (hcsr a v rfl) v
  | setIe b => exact ⟨_, rfl⟩

/-! ### Runs -/

/-- The schedule and the oracle's answers are no part of the invariant. -/
theorem State.Inv.given {s : State} (h : s.Inv) (sched : List Input) (tape : List HookAnswer) :
    ({ s with sched := sched, hookTape := tape } : State).Inv :=
  (h.core.keep (t := { s with sched := sched, hookTape := tape }) h.ram
    ⟨rfl, rfl, rfl, rfl, rfl, rfl, rfl, rfl, rfl⟩ id fun _ _ => rfl).inv h.busy

/-- A run goes on as long as each element is defined under the parameters of its start, which it keeps (R80); and it keeps
the invariant. -/
theorem runSteps_exists_next {sched : Schedule} {s : State}
    (hdefined : ∀ n x, sched n = some x → ∀ u : State, u.cfg = s.cfg → ∃ t, runInput x u = .next t)
    (oracle : HookOracle) (n : Nat) :
    ∃ t, runSteps sched oracle s n = .next t ∧ t.cfg = s.cfg ∧ (s.Inv → t.Inv) := by
  induction n with
  | zero => exact ⟨s, rfl, rfl, id⟩
  | succ n ih =>
    obtain ⟨t, ht, hcfg, hinv⟩ := ih
    rw [runSteps, ht, andThen_next]
    cases hx : sched n with
    | none => exact ⟨t, rfl, hcfg, hinv⟩
    | some x =>
      obtain ⟨u, hu⟩ := hdefined n x hx (State.begin { t with sched := [x], hookTape := oracle n t } []) hcfg
      exact ⟨u, hu, (runInput_lasting hu).cfg.trans hcfg, fun hs =>
        (runInput_served (((hinv hs).given [x] (oracle n t)).begin []) hu).1⟩

end Sys2Proof.Machine

/-- Settles O53: one element, then a run by induction on its steps. -/
theorem everyStepDefined : Obligations.EveryStepDefined := by
  unfold Obligations.EveryStepDefined
  intro canOccur
  have one : ∀ (s : State) (x : Input), canOccur s.cfg x → ∃ t, runInput x s = .next t :=
    fun s x ⟨hbus, hcsr⟩ => runInput_exists_next hbus hcsr
  refine ⟨one, fun sched oracle s hsched n => ?_⟩
  obtain ⟨t, ht, -, hinv⟩ :=
    runSteps_exists_next (fun n x hx u hu => one u x (hu ▸ hsched n x hx)) oracle n
  exact ⟨t, ht, hinv⟩

/-- Settles O57: memory and queue are empty, the block is Detached, and the endpoint records and slot pointers are at their
reset values. -/
theorem resetInvariant : Obligations.ResetInvariant where
  params := by decide
  ram := by decide
  rom := by decide
  busy := rfl
  queue := Nat.zero_le _
  records := nofun
  active h := absurd rfl h
  enables i _ := BitVec.getLsbD_zero
  attached := nofun
  enabled := by decide
  configured := by decide
  address := by decide
  pending := nofun
  pointers ep dir _ := by
    rw [State.engSlotBit_reset, State.newestSlot_reset]
    rfl

/-- Settles O60: the fields, with the endpoint records and slot pointers by their lemmas. -/
theorem powerOnValues : Obligations.PowerOnValues := by
  unfold Obligations.PowerOnValues
  exact ⟨rfl, rfl, rfl, rfl, rfl, rfl, rfl, rfl, fun ep dir => congrArg Eps.byte (State.epsAt_reset ep dir),
    State.engSlotBit_reset, rfl, rfl, rfl, rfl, rfl, rfl, rfl, rfl, rfl⟩
end
